-- ==== Sys2Proof/Word.lean ====
section
/-!
DEFINITION. The bit vectors of the block: a byte, a word (a device address or a word transfer), a command word.
-/

namespace Sys2Proof

/-- A byte transfer, `BYTE_W = 8` bits (00_scope.md R12). -/
abbrev Byte := BitVec 8

/-- A device address or a word transfer, `ADDR_W = 64` bits (00_scope.md R12). -/
abbrev Word := BitVec 64

/-- A command word, 72 bits (30_encoding.md R80). -/
abbrev CmdWord := BitVec 72

end Sys2Proof
end

