-- ==== Sys2Proof/Syntax.lean ====
section
/-!
DEFINITION. The twelve operations of the block, one constructor a row of spec/opcode_table.json.
-/

namespace Sys2Proof

/-- An operation with its operand (30_encoding.md R84). The operands have exactly the types the document gives them
(R83): `bit: bool`, `v: 8-bit`, `v: 64-bit`, `address: 64-bit`. -/
inductive Instr where
  /-- RESET, `resetPulse()` (40_signal_primitives.md R110). -/
  | reset
  /-- WBIT, `writeBit(bit)` (40_signal_primitives.md R120). -/
  | wbit (bit : Bool)
  /-- RBIT, `readBit()` (40_signal_primitives.md R128). -/
  | rbit
  /-- WBYTE, `writeByte(v)` (41_framing.md R140). -/
  | wbyte (v : Byte)
  /-- RBYTE, `readByte()` (41_framing.md R142). -/
  | rbyte
  /-- WWORD, `writeWord(v)` (41_framing.md R141). -/
  | wword (v : Word)
  /-- RWORD, `readWord()` (41_framing.md R143). -/
  | rword
  /-- SELECT, `select(address)` (42_device_protocol.md R160). -/
  | select (address : Word)
  /-- SKIP, `skip()` (42_device_protocol.md R161). -/
  | skip
  /-- SRST, `resetSearchState()` (43_search.md R170). -/
  | srst
  /-- SEARCH, `searchOne()` (43_search.md R171). -/
  | search
  /-- ENUM, `enumerateAll()` (43_search.md R190). -/
  | enum
deriving DecidableEq, Repr

/-- The mnemonic of an operation (30_encoding.md R84, R91). -/
def Instr.mnemonic : Instr → String
  | .reset => "RESET"
  | .wbit _ => "WBIT"
  | .rbit => "RBIT"
  | .wbyte _ => "WBYTE"
  | .rbyte => "RBYTE"
  | .wword _ => "WWORD"
  | .rword => "RWORD"
  | .select _ => "SELECT"
  | .skip => "SKIP"
  | .srst => "SRST"
  | .search => "SEARCH"
  | .enum => "ENUM"

/-- The four command-word formats (30_encoding.md R81). -/
inductive Format where
  | z | b | y | w
deriving DecidableEq, Repr

/-- How many low bits of `arg` a format uses (30_encoding.md R81). -/
def Format.operandBits : Format → Nat
  | .z => 0
  | .b => 1
  | .y => 8
  | .w => 64

/-- The format of an operation (30_encoding.md R81). -/
def Instr.format : Instr → Format
  | .reset => .z
  | .wbit _ => .b
  | .rbit => .z
  | .wbyte _ => .y
  | .rbyte => .z
  | .wword _ => .w
  | .rword => .z
  | .select _ => .w
  | .skip => .z
  | .srst => .z
  | .search => .z
  | .enum => .z

end Sys2Proof
end

