-- ==== Sys2Proof/WellFormed.lean ====
section
/-!
DEFINITION. Which command words are well formed. An `Instr` carries its operand at its own width, so every `Instr` is well
formed by its type; what can be ill formed on this hardware is a command word (30_encoding.md R87), and this file says
which, by the `match` and `mask` columns of the opcode map alone (30_encoding.md R84).
-/

namespace Sys2Proof

/-- One row of the opcode map (30_encoding.md R84): a word `w` selects the row when `w & mask == pat`. -/
structure OpcodeRow where
  mnemonic : String
  format : Format
  pat : CmdWord
  mask : CmdWord
deriving DecidableEq, Repr

/-- The opcode map of 30_encoding.md R84. -/
def opcodeTable : List OpcodeRow :=
  [ ⟨"RESET",  .z, 0x010000000000000000#72, 0xFFFFFFFFFFFFFFFFFF#72⟩,
    ⟨"WBIT",   .b, 0x020000000000000000#72, 0xFFFFFFFFFFFFFFFFFE#72⟩,
    ⟨"RBIT",   .z, 0x030000000000000000#72, 0xFFFFFFFFFFFFFFFFFF#72⟩,
    ⟨"WBYTE",  .y, 0x040000000000000000#72, 0xFFFFFFFFFFFFFFFF00#72⟩,
    ⟨"RBYTE",  .z, 0x050000000000000000#72, 0xFFFFFFFFFFFFFFFFFF#72⟩,
    ⟨"WWORD",  .w, 0x060000000000000000#72, 0xFF0000000000000000#72⟩,
    ⟨"RWORD",  .z, 0x070000000000000000#72, 0xFFFFFFFFFFFFFFFFFF#72⟩,
    ⟨"SELECT", .w, 0x080000000000000000#72, 0xFF0000000000000000#72⟩,
    ⟨"SKIP",   .z, 0x090000000000000000#72, 0xFFFFFFFFFFFFFFFFFF#72⟩,
    ⟨"SRST",   .z, 0x0A0000000000000000#72, 0xFFFFFFFFFFFFFFFFFF#72⟩,
    ⟨"SEARCH", .z, 0x0B0000000000000000#72, 0xFFFFFFFFFFFFFFFFFF#72⟩,
    ⟨"ENUM",   .z, 0x0C0000000000000000#72, 0xFFFFFFFFFFFFFFFFFF#72⟩ ]

/-- Whether a word selects a row (30_encoding.md R84). -/
def OpcodeRow.selects (r : OpcodeRow) (w : CmdWord) : Bool :=
  w &&& r.mask == r.pat

/-- Whether a command word is legal: some row of the map selects it. A word is illegal otherwise (30_encoding.md R87). -/
def legalWord (w : CmdWord) : Bool :=
  opcodeTable.any (·.selects w)

end Sys2Proof
end

