-- ==== Sys2Proof/Decode.lean ====
section
/-!
DEFINITION. Decoding a command word, total on all 72 bits, and the encoder beside it (30_encoding.md R80 to R87).
-/

namespace Sys2Proof

/-- Why a command word names no operation (30_encoding.md R87). -/
inductive Illegal where
  /-- `op` is 0x00 or in 0x0D to 0xFF. -/
  | unassignedOp (op : Byte)
  /-- `op` has a row and a reserved bit of its format is 1. -/
  | reservedBits (op : Byte)
deriving DecidableEq, Repr

/-- What a command word decodes to. -/
inductive Decoded where
  | instr (i : Instr)
  | illegal (why : Illegal)
deriving DecidableEq, Repr

/-- `op = cmd_word[71:64]` (30_encoding.md R81). -/
def opField (w : CmdWord) : Byte := w.extractLsb' 64 8

/-- `arg = cmd_word[63:0]` (30_encoding.md R81). -/
def argField (w : CmdWord) : Word := w.extractLsb' 0 64

/-- `{op, arg}` (30_encoding.md R81). -/
def commandWord (op : Byte) (arg : Word) : CmdWord := op ++ arg

/-- Format Z: all of `arg` is reserved. -/
def decodeZ (op : Byte) (arg : Word) (i : Instr) : Decoded :=
  if arg = 0#64 then .instr i else .illegal (.reservedBits op)

/-- Format B: `arg[0]` is the operand, `arg[63:1]` is reserved. -/
def decodeB (op : Byte) (arg : Word) (f : Bool → Instr) : Decoded :=
  if arg >>> 1 = 0#64 then .instr (f (arg.getLsbD 0)) else .illegal (.reservedBits op)

/-- Format Y: `arg[7:0]` is the operand, `arg[63:8]` is reserved. -/
def decodeY (op : Byte) (arg : Word) (f : Byte → Instr) : Decoded :=
  if arg >>> 8 = 0#64 then .instr (f (arg.extractLsb' 0 8)) else .illegal (.reservedBits op)

/-- Look up `op`; if it has a row and the reserved bits of that row's format are zero, the word is that operation;
otherwise it is illegal (30_encoding.md R85). -/
def decode (w : CmdWord) : Decoded :=
  let op := opField w
  let arg := argField w
  match op.toNat with
  | 0x01 => decodeZ op arg .reset
  | 0x02 => decodeB op arg .wbit
  | 0x03 => decodeZ op arg .rbit
  | 0x04 => decodeY op arg .wbyte
  | 0x05 => decodeZ op arg .rbyte
  | 0x06 => .instr (.wword arg)
  | 0x07 => decodeZ op arg .rword
  | 0x08 => .instr (.select arg)
  | 0x09 => decodeZ op arg .skip
  | 0x0A => decodeZ op arg .srst
  | 0x0B => decodeZ op arg .search
  | 0x0C => decodeZ op arg .enum
  | _ => .illegal (.unassignedOp op)

/-- The `op` field of an operation (30_encoding.md R84). -/
def opcode : Instr → Byte
  | .reset => 0x01#8
  | .wbit _ => 0x02#8
  | .rbit => 0x03#8
  | .wbyte _ => 0x04#8
  | .rbyte => 0x05#8
  | .wword _ => 0x06#8
  | .rword => 0x07#8
  | .select _ => 0x08#8
  | .skip => 0x09#8
  | .srst => 0x0A#8
  | .search => 0x0B#8
  | .enum => 0x0C#8

/-- The `arg` field of an operation: its operand, zero-extended, the reserved bits 0 (30_encoding.md R81, R83). -/
def operand : Instr → Word
  | .reset => 0#64
  | .wbit bit => if bit then 1#64 else 0#64
  | .rbit => 0#64
  | .wbyte v => v.setWidth 64
  | .rbyte => 0#64
  | .wword v => v
  | .rword => 0#64
  | .select address => address
  | .skip => 0#64
  | .srst => 0#64
  | .search => 0#64
  | .enum => 0#64

/-- The command word of an operation. -/
def encode (i : Instr) : CmdWord := commandWord (opcode i) (operand i)

/-- The command word whose low `nbits` bits are those of `w` and whose other bits are 0. -/
def tableWord (nbits w : Nat) : CmdWord := BitVec.ofNat 72 (w % 2 ^ nbits)

/-- The operation the decoder reads from the table's numbering of a word: bit 0 is `cmd_word[0]` (30_encoding.md R80: one
word of 72 bits, taken whole). -/
def decodeTableWord (nbits w : Nat) : Option Instr :=
  match decode (tableWord nbits w) with
  | .instr i => some i
  | .illegal _ => none

end Sys2Proof
end

