-- ==== Sys2Proof/Config.lean ====
section
/-!
DEFINITION. What an implementation fixes: the protocol constants, the fixed and the open timing parameters, and the
free values, which have no body.
-/

namespace Sys2Proof.Config

/-- The Match-ROM command byte (00_scope.md R13). -/
def romMatch : Byte := 0x55#8
/-- The Skip-ROM command byte (00_scope.md R13). -/
def romSkip : Byte := 0xCC#8
/-- The Search-ROM command byte (00_scope.md R13). -/
def romSearch : Byte := 0xF0#8

/-- `T_RSTL`: how long a reset slot holds the line low (00_scope.md R14; log 18). -/
def tRstL : Nat := 480
/-- `T_FLOAT`: the budget of the float wait (00_scope.md R14; log 18). -/
def tFloat : Nat := 15
/-- `T_PRES`: the budget of the presence wait (00_scope.md R14; log 18). -/
def tPres : Nat := 240
/-- `T_PREL`: the budget of the release wait (00_scope.md R14; log 18). -/
def tPrel : Nat := 480
/-- `T_RSTH`: the least time from the release to the end of a reset slot (00_scope.md R14; log 18). -/
def tRstH : Nat := 480
/-- `T_RSLOT`: the length of a read slot (00_scope.md R14; log 18). -/
def tRSlot : Nat := 60

/-- The parameters the source leaves open (00_scope.md R14), in microseconds. They are chosen when the block is built and
no step changes them (00_scope.md R16). -/
structure Timing where
  /-- `T_W1L`: low phase of a write slot that carries a 1. -/
  tW1L : Nat
  /-- `T_W0L`: low phase of a write slot that carries a 0. -/
  tW0L : Nat
  /-- `T_WSLOT`: length of a write slot. -/
  tWSlot : Nat
  /-- `T_RINIT`: initiation pulse of a read slot. -/
  tRInit : Nat
  /-- `T_RWAIT`: from the release to the sample of a read slot. -/
  tRWait : Nat
  /-- `T_GAP`: idle time between two consecutive slots of one operation. -/
  tGap : Nat
  /-- `BOUNDARY_INCLUSIVE`: whether a level seen exactly at the end of a budget counts. -/
  boundaryInclusive : Bool
deriving DecidableEq, Repr

/-- The ranges of 00_scope.md R14 and the constraints of R15. `T_FLOAT < T_PRES ≤ T_PREL` holds of the constants. -/
def Timing.legal (t : Timing) : Bool :=
  decide (1 ≤ t.tW1L) && decide (t.tW1L ≤ 15) && decide (60 ≤ t.tW0L) && decide (t.tW0L ≤ 120) &&
  decide (60 ≤ t.tWSlot) && decide (t.tWSlot ≤ 120) && decide (t.tW1L < t.tW0L) && decide (t.tW0L ≤ t.tWSlot) &&
  decide (2 ≤ t.tRInit) && decide (12 ≤ t.tRWait) && decide (t.tRWait ≤ 14) && decide (t.tRInit + t.tRWait < tRSlot)

/-- The defaults of 00_scope.md R14 (DESIGN CHOICE of the spec, D11, D12, D14, D20; log 3). -/
def Timing.specDefault : Timing :=
  { tW1L := 10, tW0L := 60, tWSlot := 70, tRInit := 2, tRWait := 12, tGap := 0, boundaryInclusive := false }

/-- The level of `env_low` at an instant, in the environment numbered by the first argument, of which nothing is known
(00_scope.md R10, R11; 20_memory.md R63; log 1, log 2). -/
opaque freeLow : Nat → Nat → Bool

/-- The idle value of `p` after the numbered operation (93_implementation_defined.md U1; log 4). -/
opaque freeP : Nat → BitVec 7
/-- The idle value of `last_zero` (93_implementation_defined.md U1; log 4). -/
opaque freeLastZero : Nat → BitVec 7
/-- The idle value of `sh` (93_implementation_defined.md U1; log 4). -/
opaque freeSh : Nat → Word
/-- The idle value of `k` (93_implementation_defined.md U1; log 4). -/
opaque freeK : Nat → BitVec 3
/-- The idle value of `j` (93_implementation_defined.md U1; log 4). -/
opaque freeJ : Nat → BitVec 3
/-- The idle value of `t_ref` (93_implementation_defined.md U1; log 4). -/
opaque freeTRef : Nat → Nat

/-- Which of the five modes of 20_memory.md R64 a device of `Dev(S)` is in after the numbered cut, the second number being the
device's place in the list (93_implementation_defined.md U6; log 11). -/
opaque freeModeKind : Nat → Nat → Fin 5
/-- Its bit position there, before it is brought into the mode's range (93_implementation_defined.md U6; log 11). -/
opaque freeModePosition : Nat → Nat → Nat
/-- The bits of its command byte taken so far (93_implementation_defined.md U6; log 11). -/
opaque freeModeByte : Nat → Nat → Byte
/-- Its search phase (93_implementation_defined.md U6; log 11). -/
opaque freeModePhase : Nat → Nat → Fin 3
/-- The queue of the loopback after the numbered cut (93_implementation_defined.md U6; log 11). -/
opaque freeQueue : Nat → List Bool
/-- How far the outcomes of a script have been rotated by the numbered cut (93_implementation_defined.md U6; log 11). -/
opaque freeResetTurns : Nat → Nat
/-- How far the bits of a script have been rotated by the numbered cut (93_implementation_defined.md U6; log 11). -/
opaque freeBitTurns : Nat → Nat

end Sys2Proof.Config
end

