-- ==== Sys2Proof/Machine/State.lean ====
section
/-!
DEFINITION. The state of the block and of the two other agents, as plain data, and the state after hardware reset.
-/

namespace Sys2Proof.Machine

/-- The outcome of a reset slot (00_scope.md R10; 40_signal_primitives.md R117). -/
inductive ResetOutcome where
  /-- The line never rose within `T_FLOAT` of the release. -/
  | noFloat
  /-- The line rose, and no low level was seen within `T_PRES` of the release. -/
  | noPres
  /-- A presence pulse was seen, and it ended. -/
  | pres
  /-- A presence pulse was seen, and the line was not released within `T_PREL` of the release. -/
  | presNoRel
deriving DecidableEq, Repr

/-- One bus event (00_scope.md R10). -/
inductive BusEvent where
  /-- `RST(o)`: a reset slot with outcome `o`. -/
  | rst (o : ResetOutcome)
  /-- `W(b)`: a write slot carrying `b`. -/
  | w (b : Bool)
  /-- `R(b)`: a read slot that sampled `b`. -/
  | r (b : Bool)
deriving DecidableEq, Repr

/-- A completed slot: its bus event and the interval `[start, stop)` it took. -/
structure Slot where
  ev : BusEvent
  start : Nat
  stop : Nat
deriving DecidableEq, Repr

/-- The diagnostic events (60_exceptions.md R211). -/
inductive DiagCode where
  | noFloat | noPres | noRel | illegalCmd
deriving DecidableEq, Repr

/-- One beat of the diagnostic channel, and when (10_state.md R37). -/
structure Diag where
  time : Nat
  code : DiagCode
deriving DecidableEq, Repr

/-- One beat of the response channel, and when (10_state.md R36). -/
structure Beat where
  time : Nat
  data : Word
  last : Bool
deriving DecidableEq, Repr

/-- The levels of the two output registers over `[start, stop)`. -/
structure Span where
  start : Nat
  stop : Nat
  driveLow : Bool
  crit : Bool
deriving DecidableEq, Repr

/-- The instants of `[start, stop)`, at each of which the block read `ow_in` (10_state.md R32). -/
structure Window where
  start : Nat
  stop : Nat
deriving DecidableEq, Repr

/-- A command word the host will present, from the instant `time` on, until it is taken (10_state.md R35). -/
structure Offer where
  time : Nat
  word : CmdWord
deriving DecidableEq, Repr

/-- The transient registers (10_state.md R21, R28). -/
structure Transient where
  /-- Current bit position of a search pass. -/
  p : BitVec 7
  /-- Candidate for the next `LD`. -/
  lastZero : BitVec 7
  /-- The operand being shifted out, or the value being accumulated. -/
  sh : Word
  /-- Bit counter inside a byte. -/
  k : BitVec 3
  /-- Byte counter inside a word. -/
  j : BitVec 3
  /-- The instant the slot started, or the instant the line was released. -/
  tRef : Nat
deriving DecidableEq, Repr

/-- Phase of a device in a search (20_memory.md R64). -/
inductive SearchPhase where
  | bit | cmp | dir
deriving DecidableEq, Repr

/-- Mode of a device of `Dev(S)` (20_memory.md R64). -/
inductive DevMode where
  /-- `IDLE`. -/
  | idle
  /-- `CMD(n, c)`: has taken `n` bits, `0 ≤ n < 8`, of a ROM command byte, value so far `c`. -/
  | cmd (n : Nat) (c : Byte)
  /-- `SRCH(i, ph)`: in a search, at address bit `i`, `0 ≤ i ≤ 63`. -/
  | srch (i : Nat) (ph : SearchPhase)
  /-- `MATCH(i)`: comparing address bit `i` of a Match-ROM. -/
  | matching (i : Nat)
  /-- `SEL`: selected. -/
  | sel
deriving DecidableEq, Repr

/-- A device of `Dev(S)`: its ROM code and its mode. -/
structure Device where
  rom : Word
  mode : DevMode
deriving DecidableEq, Repr

/-- The bus environment (00_scope.md R9; 20_memory.md R63 to R72): everything on the line but the block. -/
inductive Env where
  /-- An environment of which nothing is known: `env_low(t)` is `Config.freeLow seed t` (log 1, log 2). -/
  | free (seed : Nat)
  /-- A waveform environment (R72): `env_low` is 0 before the first instant listed and changes at each one. -/
  | wave (edges : List Nat)
  /-- The device-set environment `Dev(S)` (R64 to R67). -/
  | dev (devices : List Device)
  /-- The loopback environment `Loop` (R68), the head of its queue first. -/
  | loop (q : List Bool)
  /-- A scripted oracle (00_scope.md R10): each list is answered in order, over and over (log 14). `Const(o, b)` of
  95_test_vectors.md is `script [o] [b]`. -/
  | script (resets : List ResetOutcome) (bits : List Bool)
deriving DecidableEq, Repr

/-- The whole state. -/
structure State where
  /-- `LD` (10_state.md R22). -/
  ld : BitVec 7
  /-- `LDF` (10_state.md R23). -/
  ldf : Bool
  /-- `ADDR` (10_state.md R24). -/
  addr : Word
  /-- `busy` (10_state.md R21, R35, R36). Between two steps it is 1 only inside ENUM's loop (log 9). -/
  busy : Bool
  /-- The transient registers (10_state.md R28). -/
  tr : Transient
  /-- `ow_drive_low` (10_state.md R31). -/
  owDriveLow : Bool
  /-- `crit` (10_state.md R33). -/
  crit : Bool
  /-- The time base, in microseconds (10_state.md R34). -/
  now : Nat
  /-- Whether the operation in progress has performed a slot: the model's own, for `T_GAP` (log 10). -/
  inOp : Bool
  /-- The open timing parameters; no step changes them (00_scope.md R14, R16; log 3). -/
  timing : Config.Timing
  /-- The bus environment. -/
  env : Env
  /-- The instants at which the `rst` input changes level, from 0 at the beginning (10_state.md R38; log 11). -/
  rstEdges : List Nat
  /-- What the host will present on the command channel, in order (10_state.md R35; log 5). -/
  offers : List Offer
  /-- The beats given on the response channel, oldest first (10_state.md R36). -/
  rsp : List Beat
  /-- The beats given on the diagnostic channel, oldest first (10_state.md R37). -/
  diags : List Diag
  /-- The completed slots, oldest first (20_memory.md R61). -/
  bus : List Slot
  /-- The levels of the outputs while one of them was 1, oldest first; both were 0 at every other instant. -/
  trace : List Span
  /-- When the block read `ow_in`, oldest first (10_state.md R32). -/
  looks : List Window
  /-- How many free values have been drawn: the model's own (log 4). -/
  draws : Nat
deriving DecidableEq, Repr

/-- The reasons the machine stops with a fault. There is none, and so no constructor: nothing traps and nothing is fatal
(60_exceptions.md R210, R219, R230; log 21). -/
inductive Fault where
deriving DecidableEq, Repr

/-- The reasons the model gives an instruction no meaning. -/
inductive Refusal where
  /-- An instruction with no meaning yet. No arm of `exec` raises it: every instruction has its meaning. Safe. -/
  | notModelled (mnemonic : String)
deriving DecidableEq, Repr

/-- The transient registers in `State.reset`: unspecified and unobservable (10_state.md R40, R28), so a DESIGN CHOICE
(log 4). -/
def Transient.atReset : Transient :=
  { p := 1#7, lastZero := 0#7, sh := 0#64, k := 0#3, j := 0#3, tRef := 0 }

/-- The machine right after hardware reset (10_state.md R40; 70_reset_and_hazards.md R242), the `rst` input low again. -/
def State.reset : State :=
  { ld := 0#7
    ldf := false
    addr := 0#64
    busy := false
    tr := Transient.atReset
    owDriveLow := false
    crit := false
    now := 0
    inOp := false
    timing := Config.Timing.specDefault
    env := .free 0
    rstEdges := []
    offers := []
    rsp := []
    diags := []
    bus := []
    trace := []
    looks := []
    draws := 1 }

end Sys2Proof.Machine
end

