-- ==== Sys2Proof/Machine/Bus.lean ====
section
/-!
DEFINITION. The bus environments: what each one does to the line in a slot, and how it goes on afterwards
(20_memory.md R51, R63 to R72). None of this is part of the block.
-/

namespace Sys2Proof.Machine

/-- The level at instant `t` of a signal that is 0 at first and changes at each instant listed. -/
def levelAt (edges : List Nat) (t : Nat) : Bool :=
  (edges.filter fun e => decide (e ≤ t)).length % 2 == 1

/-- The line is wired-AND: high only when neither the block nor the environment holds it low (20_memory.md R51). -/
def lineLevel (driveLow envLow : Bool) : Bool := !driveLow && !envLow

/-- `env_low`, `t` microseconds after the release of a reset slot, for a slot-level environment that answers `o`: one waveform
of the class that 20_memory.md R72 gives for `o` (DESIGN CHOICE, log 13). -/
def answerWave (o : ResetOutcome) (t : Nat) : Bool :=
  match o with
  | .noFloat => true
  | .noPres => false
  | .pres => decide (30 ≤ t) && decide (t < 150)
  | .presNoRel => decide (30 ≤ t)

/-- The bit a device puts on the line in a read slot; one that puts nothing counts as 1 (20_memory.md R67). -/
def Device.putBit (d : Device) : Bool :=
  match d.mode with
  | .srch i .bit => d.rom.getLsbD i
  | .srch i .cmp => !d.rom.getLsbD i
  | .srch _ .dir => true
  | .idle => true
  | .cmd _ _ => true
  | .matching _ => true
  | .sel => true

/-- A device after a reset slot (20_memory.md R65). -/
def Device.afterReset (d : Device) : Device := { d with mode := .cmd 0 0#8 }

/-- A device after a read slot (20_memory.md R67). -/
def Device.afterRead (d : Device) : Device :=
  match d.mode with
  | .srch i .bit => { d with mode := .srch i .cmp }
  | .srch i .cmp => { d with mode := .srch i .dir }
  | .srch _ .dir => { d with mode := .idle }
  | .idle => d
  | .cmd _ _ => d
  | .matching _ => d
  | .sel => d

/-- The mode a completed ROM command byte leads to (20_memory.md R66). -/
def romCommandMode (c : Byte) : DevMode :=
  if c = Config.romSearch then .srch 0 .bit
  else if c = Config.romMatch then .matching 0
  else if c = Config.romSkip then .sel
  else .idle

/-- A device after a write slot carrying `b` (20_memory.md R66). -/
def Device.afterWrite (b : Bool) (d : Device) : Device :=
  match d.mode with
  | .cmd n c =>
    let c' := c ||| ((BitVec.ofBool b).setWidth 8 <<< n)
    if n < 7 then { d with mode := .cmd (n + 1) c' } else { d with mode := romCommandMode c' }
  | .srch i .dir =>
    if b = d.rom.getLsbD i then
      if i < 63 then { d with mode := .srch (i + 1) .bit } else { d with mode := .sel }
    else { d with mode := .idle }
  | .matching i =>
    if b = d.rom.getLsbD i then
      if i < 63 then { d with mode := .matching (i + 1) } else { d with mode := .sel }
    else { d with mode := .idle }
  | .srch _ .bit => { d with mode := .idle }
  | .srch _ .cmp => { d with mode := .idle }
  | .idle => d
  | .sel => d

/-- Move the head of a list to its end. -/
def rotate {α : Type} : List α → List α
  | [] => []
  | x :: xs => xs ++ [x]

/-- The answer of a slot-level environment to a reset slot (20_memory.md R65, R68). The two waveform environments have no
answer of their own: theirs follows from `env_low` alone. -/
def Env.resetAnswer : Env → ResetOutcome
  | .free _ => .noPres
  | .wave _ => .noPres
  | .dev ds => if ds.isEmpty then .noPres else .pres
  | .loop _ => .pres
  | .script resets _ => resets.headD .noPres

/-- The answer of a slot-level environment to a read slot (20_memory.md R67, R68); as above for the two waveform
environments. -/
def Env.readAnswer : Env → Bool
  | .free _ => true
  | .wave _ => true
  | .dev ds => ds.all Device.putBit
  | .loop q => q.headD true
  | .script _ bits => bits.headD true

/-- `env_low(t)` in a reset slot released at `tRel`. -/
def Env.lowInReset (e : Env) (tRel t : Nat) : Bool :=
  match e with
  | .free seed => Config.freeLow seed t
  | .wave edges => levelAt edges t
  | .dev ds => answerWave (Env.dev ds).resetAnswer (t - tRel)
  | .loop q => answerWave (Env.loop q).resetAnswer (t - tRel)
  | .script rs bs => answerWave (Env.script rs bs).resetAnswer (t - tRel)

/-- `env_low(t)` at the sample instant of a read slot (20_memory.md R72). -/
def Env.lowInRead (e : Env) (t : Nat) : Bool :=
  match e with
  | .free seed => Config.freeLow seed t
  | .wave edges => levelAt edges t
  | .dev ds => !(Env.dev ds).readAnswer
  | .loop q => !(Env.loop q).readAnswer
  | .script rs bs => !(Env.script rs bs).readAnswer

/-- The environment after a reset slot. -/
def Env.afterReset : Env → Env
  | .free seed => .free seed
  | .wave edges => .wave edges
  | .dev ds => .dev (ds.map Device.afterReset)
  | .loop _ => .loop []
  | .script resets bits => .script (rotate resets) bits

/-- The environment after a write slot carrying `b`. -/
def Env.afterWrite (b : Bool) : Env → Env
  | .free seed => .free seed
  | .wave edges => .wave edges
  | .dev ds => .dev (ds.map (Device.afterWrite b))
  | .loop q => .loop (q ++ [b])
  | .script resets bits => .script resets bits

/-- The environment after a read slot. -/
def Env.afterRead : Env → Env
  | .free seed => .free seed
  | .wave edges => .wave edges
  | .dev ds => .dev (ds.map Device.afterRead)
  | .loop q => .loop q.tail
  | .script resets bits => .script resets (rotate bits)

/-- The environment after a slot with this bus event. -/
def Env.afterEvent (e : Env) : BusEvent → Env
  | .rst _ => e.afterReset
  | .w b => e.afterWrite b
  | .r _ => e.afterRead

/-- The search phase with this number. -/
def phaseOf : Fin 3 → SearchPhase
  | 0 => .bit
  | 1 => .cmp
  | 2 => .dir

/-- Any mode of 20_memory.md R64, within the bounds R64 gives: `n < 8` and a value of `n` bits, `i ≤ 63` (log 11). -/
def freeMode (cut device : Nat) : DevMode :=
  let n := Config.freeModePosition cut device
  match Config.freeModeKind cut device with
  | 0 => .idle
  | 1 => .cmd (n % 8) (Config.freeModeByte cut device &&& BitVec.ofNat 8 (2 ^ (n % 8) - 1))
  | 2 => .srch (n % 64) (phaseOf (Config.freeModePhase cut device))
  | 3 => .matching (n % 64)
  | 4 => .sel

/-- The environment after a slot was cut short by hardware reset: the slaves are in a state the block knows nothing about
(70_reset_and_hazards.md R241; 93_implementation_defined.md U6). Their state is any value; which slaves there are does not change
(20_memory.md R64), and a waveform is given for every instant whatever the block does (log 11). -/
def Env.afterCut (cut : Nat) : Env → Env
  | .free _ => .free cut
  | .wave edges => .wave edges
  | .dev ds => .dev (ds.mapIdx fun device d => { d with mode := freeMode cut device })
  | .loop _ => .loop (Config.freeQueue cut)
  | .script resets bits => .script (resets.rotate (Config.freeResetTurns cut)) (bits.rotate (Config.freeBitTurns cut))

end Sys2Proof.Machine
end

