-- ==== Sys2Proof/Machine/Operands.lean ====
section
/-!
DEFINITION. The values inside an operation: bit and byte order on the line, the accumulators, the results
(20_memory.md R52, R53; 41_framing.md R145; 43_search.md R176, R188; 30_encoding.md R92).
-/

namespace Sys2Proof.Machine

/-- `v[n] <- b`, by shift and mask on the logical integer (41_framing.md R145; 43_search.md R188). -/
def setBit (v : Word) (n : Nat) (b : Bool) : Word :=
  (v &&& ~~~(1#64 <<< n)) ||| ((BitVec.ofBool b).setWidth 64 <<< n)

/-- Byte 0 of a word (00_scope.md R17). -/
def lowByte (v : Word) : Byte := v.extractLsb' 0 8

/-- `zext_64` of a byte (30_encoding.md R92). -/
def ofByte (v : Byte) : Word := v.setWidth 64

/-- `zext_64` of a Boolean (00_scope.md R17; 30_encoding.md R92). -/
def ofBit (b : Bool) : Word := (BitVec.ofBool b).setWidth 64

/-- The values of a 3-bit counter in the order a loop takes them, 0 to 7 (10_state.md R29). -/
def counter : List (BitVec 3) := [0#3, 1#3, 2#3, 3#3, 4#3, 5#3, 6#3, 7#3]

/-- The bit of `sh` that the counters point at: bit `k` of byte `j`, which is bit `8j + k` (00_scope.md R17). -/
def Transient.shIndex (t : Transient) : Nat := 8 * t.j.toNat + t.k.toNat

/-- The bit to shift out next. -/
def State.shBit (s : State) : Bool := s.tr.sh.getLsbD s.tr.shIndex

/-- Put a bit into the accumulator, where the counters point. -/
def State.putShBit (b : Bool) (s : State) : State :=
  { s with tr := { s.tr with sh := setBit s.tr.sh s.tr.shIndex b } }

/-- Load `sh` and clear the counters, before a byte or a word goes out or comes in. -/
def State.loadSh (v : Word) (s : State) : State :=
  { s with tr := { s.tr with sh := v, j := 0#3, k := 0#3 } }

/-- `k <- v`. -/
def State.setK (v : BitVec 3) (s : State) : State := { s with tr := { s.tr with k := v } }

/-- `j <- v`. -/
def State.setJ (v : BitVec 3) (s : State) : State := { s with tr := { s.tr with j := v } }

/-- `p <- v`. -/
def State.setP (v : BitVec 7) (s : State) : State := { s with tr := { s.tr with p := v } }

/-- `last_zero <- v`. -/
def State.setLastZero (v : BitVec 7) (s : State) : State := { s with tr := { s.tr with lastZero := v } }

/-- The address bit of search position `p`, which is bit `p − 1` (43_search.md R176). -/
def State.addrIndex (s : State) : Nat := s.tr.p.toNat - 1

/-- `ADDR[p-1] <- d` (43_search.md R182). -/
def State.setAddrBit (d : Bool) (s : State) : State := { s with addr := setBit s.addr s.addrIndex d }

end Sys2Proof.Machine
end

