-- ==== Sys2Proof/Machine/Flags.lean ====
section
/-!
DEFINITION. The one flag, `LDF`, and the registers that go with it (10_state.md R23, R39): how a pass ends, and the branch it
takes at a discrepancy.
-/

namespace Sys2Proof.Machine

/-- `ResetSearchState()` (43_search.md R170). -/
def State.resetSearchState (s : State) : State := { s with ld := 0#7, ldf := false, addr := 0#64 }

/-- The branch at a discrepancy: before `LD` the branch of the previous pass, at `LD` the 1 branch, after it the 0 branch
(43_search.md R180, R181). -/
def State.discrepancyBranch (s : State) : Bool :=
  if s.tr.p < s.ld then s.addr.getLsbD s.addrIndex
  else if s.tr.p = s.ld then true
  else false

/-- Step 5: `LD <- last_zero`, and `LDF <- 1` if that is 0 (43_search.md R184). -/
def State.commitPass (s : State) : State :=
  { s with ld := s.tr.lastZero, ldf := s.ldf || s.tr.lastZero == 0#7 }

/-- Step 6: byte 0 of the address must not be zero (43_search.md R185). -/
def State.addressValid (s : State) : Bool := lowByte s.addr != 0#8

end Sys2Proof.Machine
end

