-- ==== Sys2Proof/Machine/Ops.lean ====
section
/-!
DEFINITION. The shared operations: time and the two output registers, the three slots, the response and diagnostic channels,
the byte and word loops, and hardware reset, which stands where other machines take an exception (60_exceptions.md R219).
-/

namespace Sys2Proof.Machine

/-! ### Time and outputs -/

/-- `ow_drive_low <- v` (10_state.md R31). -/
def State.setDrive (v : Bool) (s : State) : State := { s with owDriveLow := v }

/-- `crit <- v` (10_state.md R33). -/
def State.setCrit (v : Bool) (s : State) : State := { s with crit := v }

/-- Let `d` microseconds pass with the outputs as they are. -/
def State.advance (d : Nat) (s : State) : State :=
  { s with
    now := s.now + d
    trace := if s.owDriveLow || s.crit then s.trace ++ [⟨s.now, s.now + d, s.owDriveLow, s.crit⟩] else s.trace }

/-- Let time pass until the instant `t`. -/
def State.advanceTo (t : Nat) (s : State) : State := s.advance (t - s.now)

/-- `t_ref <- now` (10_state.md R21). -/
def State.markRef (s : State) : State := { s with tr := { s.tr with tRef := s.now } }

/-- Record that `ow_in` is read at each instant of `[start, stop)` (10_state.md R32). -/
def State.look (start stop : Nat) (s : State) : State := { s with looks := s.looks ++ [⟨start, stop⟩] }

/-! ### Channels -/

/-- The two bits of `diag_code` (60_exceptions.md R211; 10_state.md R37). -/
def DiagCode.value : DiagCode → BitVec 2
  | .noFloat => 0#2
  | .noPres => 1#2
  | .noRel => 2#2
  | .illegalCmd => 3#2

/-- `diag(code)`: one beat on the diagnostic channel (60_exceptions.md R211). -/
def State.diag (code : DiagCode) (s : State) : State := { s with diags := s.diags ++ [⟨s.now, code⟩] }

/-- `respond(data, last)` (00_scope.md R18), at the instant the last slot ended (30_encoding.md R93; log 7). -/
def State.respond (data : Word) (last : Bool) (s : State) : State :=
  { s with rsp := s.rsp ++ [⟨s.now, data, last⟩] }

/-- The transient registers of an idle block: any value (10_state.md R28; 93_implementation_defined.md U1; log 4). -/
def idleTransient (n : Nat) : Transient :=
  { p := Config.freeP n, lastZero := Config.freeLastZero n, sh := Config.freeSh n,
    k := Config.freeK n, j := Config.freeJ n, tRef := Config.freeTRef n }

/-- The sequencer becomes idle: `busy <- 0`, and the transient registers hold any value. -/
def State.becomeIdle (s : State) : State :=
  { s with busy := false, inOp := false, tr := idleTransient s.draws, draws := s.draws + 1 }

/-- The sequencer starts an operation: `busy <- 1` (10_state.md R35). -/
def State.start (s : State) : State := { s with busy := true, inOp := false }

/-- `return v` at the top level of an operation: the last beat, and the block becomes idle (00_scope.md R18). -/
def State.complete (v : Word) (s : State) : State := (s.respond v true).becomeIdle

/-! ### Slots -/

/-- What every slot begins with: the line released and `crit` 0 during the gap that separates it from the slot before it in the
same operation (40_signal_primitives.md R135), then `t_ref <- now`. -/
def State.beginSlot (s : State) : State :=
  let q := (s.setDrive false).setCrit false
  let q := if q.inOp then q.advance q.timing.tGap else q
  { q.markRef with inOp := true }

/-- What every slot ends with: the environment goes on, and the bus event is appended. -/
def State.endSlot (ev : BusEvent) (start : Nat) (env : Env) (s : State) : State :=
  { s with env := env, bus := s.bus ++ [⟨ev, start, s.now⟩] }

/-- The low phase of a write slot (40_signal_primitives.md R121). -/
def lowPhase (t : Config.Timing) (bit : Bool) : Nat := if bit then t.tW1L else t.tW0L

/-- `SlotWrite(b)` (40_signal_primitives.md R121 to R123). -/
def State.slotWrite (b : Bool) (s : State) : State :=
  let q := s.beginSlot
  let t0 := q.tr.tRef
  let q := (q.setCrit true).setDrive true
  let q := q.advanceTo (t0 + lowPhase q.timing b)
  let q := q.setDrive false
  let q := q.advanceTo (t0 + q.timing.tWSlot)
  let q := q.setCrit false
  q.endSlot (.w b) t0 (q.env.afterWrite b)

/-- `SlotRead()` (40_signal_primitives.md R129 to R132). -/
def State.slotRead (s : State) : Bool × State :=
  let q := s.beginSlot
  let t0 := q.tr.tRef
  let q := (q.setCrit true).setDrive true
  let q := q.advanceTo (t0 + q.timing.tRInit)
  let q := q.setDrive false
  let q := q.advanceTo (t0 + q.timing.tRInit + q.timing.tRWait)
  let b := lineLevel q.owDriveLow (q.env.lowInRead q.now)
  let q := q.look q.now (q.now + 1)
  let q := q.advanceTo (t0 + Config.tRSlot)
  let q := q.setCrit false
  (b, q.endSlot (.r b) t0 q.env.afterRead)

/-- Look at the line once per microsecond, `n` times from the instant `t` on, for the level `lv`: the first instant at which it
is seen (00_scope.md R19, `wait_level`). -/
def waitLevel (line : Nat → Bool) (lv : Bool) : Nat → Nat → Option Nat
  | 0, _ => none
  | n + 1, t => if line t = lv then some t else waitLevel line lv n (t + 1)

/-- The instant before which `within(t - origin, budget)` holds (00_scope.md R19). -/
def budgetEnd (inclusive : Bool) (origin budget : Nat) : Nat :=
  origin + budget + (if inclusive then 1 else 0)

/-- `wait_level(lv, start, origin, budget)` (00_scope.md R19): `none` where it answers false. -/
def waitWithin (inclusive : Bool) (line : Nat → Bool) (lv : Bool) (start origin budget : Nat) : Option Nat :=
  waitLevel line lv (budgetEnd inclusive origin budget - start) start

/-- What the three waits of a reset slot find. -/
structure ResetScan where
  /-- `o`. -/
  outcome : ResetOutcome
  /-- `t_c`, the end of the critical section (40_signal_primitives.md R116). -/
  tc : Nat
  /-- The instant after the last one at which the line was looked at. -/
  lookStop : Nat
deriving DecidableEq, Repr

/-- Phases A, B and C of the reset slot released at `tRel` (40_signal_primitives.md R113 to R117). -/
def resetScan (inclusive : Bool) (line : Nat → Bool) (tRel : Nat) : ResetScan :=
  match waitWithin inclusive line true tRel tRel Config.tFloat with
  | none => ⟨.noFloat, tRel + Config.tFloat, budgetEnd inclusive tRel Config.tFloat⟩
  | some tH =>
    match waitWithin inclusive line false tH tRel Config.tPres with
    | none => ⟨.noPres, tRel + Config.tPres, budgetEnd inclusive tRel Config.tPres⟩
    | some tP =>
      match waitWithin inclusive line true tP tRel Config.tPrel with
      | some tR => ⟨.pres, tR, tR + 1⟩
      | none => ⟨.presNoRel, tRel + Config.tPrel, budgetEnd inclusive tRel Config.tPrel⟩

/-- `SlotReset()` (40_signal_primitives.md R111 to R118). -/
def State.slotReset (s : State) : ResetOutcome × State :=
  let q := s.beginSlot
  let t0 := q.tr.tRef
  let q := q.setDrive true
  let q := q.advanceTo (t0 + Config.tRstL)
  let q := ((q.setDrive false).markRef).setCrit true
  let tRel := q.tr.tRef
  let scan := resetScan q.timing.boundaryInclusive (fun t => lineLevel q.owDriveLow (q.env.lowInReset tRel t)) tRel
  let q := q.look tRel scan.lookStop
  let q := q.advanceTo scan.tc
  let q := q.setCrit false
  let q := q.advanceTo (max scan.tc (tRel + Config.tRstH))
  (scan.outcome, q.endSlot (.rst scan.outcome) t0 q.env.afterReset)

/-- `ResetPulse()` (40_signal_primitives.md R110). -/
def State.resetPulse (s : State) : Bool × State :=
  let r := s.slotReset
  match r.1 with
  | .noFloat => (false, r.2.diag .noFloat)
  | .noPres => (false, r.2.diag .noPres)
  | .presNoRel => (true, r.2.diag .noRel)
  | .pres => (true, r.2)

/-! ### Bytes and words -/

/-- One iteration of WriteByte's loop (41_framing.md R140). -/
def State.shiftOutBit (s : State) (k : BitVec 3) : State :=
  let q := s.setK k
  q.slotWrite q.shBit

/-- WriteByte's loop, over byte `j` of `sh` (41_framing.md R140). -/
def State.shiftOutByte (s : State) : State := counter.foldl State.shiftOutBit s

/-- One iteration of WriteWord's loop (41_framing.md R141). -/
def State.shiftOutByteAt (s : State) (j : BitVec 3) : State := (s.setJ j).shiftOutByte

/-- `WriteByte(v)` (41_framing.md R140). -/
def State.writeByte (v : Byte) (s : State) : State := (s.loadSh (ofByte v)).shiftOutByte

/-- `WriteWord(v)` (41_framing.md R141). -/
def State.writeWord (v : Word) (s : State) : State := counter.foldl State.shiftOutByteAt (s.loadSh v)

/-- One iteration of ReadByte's loop (41_framing.md R142). -/
def State.shiftInBit (s : State) (k : BitVec 3) : State :=
  let r := (s.setK k).slotRead
  r.2.putShBit r.1

/-- ReadByte's loop, into byte `j` of `sh` (41_framing.md R142). -/
def State.shiftInByte (s : State) : State := counter.foldl State.shiftInBit s

/-- One iteration of ReadWord's loop (41_framing.md R143). -/
def State.shiftInByteAt (s : State) (j : BitVec 3) : State := (s.setJ j).shiftInByte

/-- `ReadByte()` (41_framing.md R142). -/
def State.readByte (s : State) : Byte × State :=
  let q := (s.loadSh 0#64).shiftInByte
  (lowByte q.tr.sh, q)

/-- `ReadWord()` (41_framing.md R143). -/
def State.readWord (s : State) : Word × State :=
  let q := counter.foldl State.shiftInByteAt (s.loadSh 0#64)
  (q.tr.sh, q)

/-! ### Hardware reset -/

/-- The registers after hardware reset (10_state.md R40; 70_reset_and_hazards.md R242). The inputs, the histories, the time base
and the build-time parameters are not the block's registers and stay. -/
def State.hardReset (s : State) : State :=
  { s.becomeIdle.resetSearchState with owDriveLow := false, crit := false }

/-- The part of a span before the instant `t`. -/
def clipSpan (t : Nat) (sp : Span) : Option Span :=
  if sp.start < t then some { sp with stop := min sp.stop t } else none

/-- The part of a window before the instant `t`. -/
def clipWindow (t : Nat) (w : Window) : Option Window :=
  if w.start < t then some { w with stop := min w.stop t } else none

/-- The slots performed on the way from `s` to `s'`. -/
def State.newSlots (s s' : State) : List Slot := s'.bus.drop s.bus.length

/-- The environment at the instant `t` on the way from `s` to `s'`, where the block is reset at `t`: it has gone through the slots
that had ended by `t`; if a slot was in progress, that slot was cut short (log 11). -/
def State.envAt (t : Nat) (s s' : State) : Env :=
  let env := ((s.newSlots s').filter fun sl => decide (sl.stop ≤ t)).foldl (fun e sl => e.afterEvent sl.ev) s.env
  if (s.newSlots s').any fun sl => decide (sl.start < t) && decide (t < sl.stop) then env.afterCut s'.draws else env

/-- Hardware reset at the instant `t`, in the middle of what leads from `s` to `s'` (10_state.md R38; 70_reset_and_hazards.md R241):
the block is in its reset state from `t` on and an operation in progress is abandoned. What had happened on the line and on the
channels before `t` has happened; from `t` on no beat and no diagnostic is given (log 11). -/
def State.abandonAt (t : Nat) (s s' : State) : State :=
  { s'.hardReset with
    now := t
    env := s.envAt t s'
    rsp := s.rsp ++ (s'.rsp.drop s.rsp.length).filter fun b => decide (b.time < t)
    diags := s.diags ++ (s'.diags.drop s.diags.length).filter fun d => decide (d.time < t)
    bus := s.bus ++ (s.newSlots s').filter fun sl => decide (sl.stop ≤ t)
    trace := s.trace ++ (s'.trace.drop s.trace.length).filterMap (clipSpan t)
    looks := s.looks ++ (s'.looks.drop s.looks.length).filterMap (clipWindow t) }

end Sys2Proof.Machine
end

