-- ==== Sys2Proof/Machine/Search.lean ====
section
/-!
DEFINITION. The ROM search state machine: SRST, SEARCH, ENUM (43_search.md).
-/

namespace Sys2Proof.Machine

/-- SRST (43_search.md R170). -/
def execSrst (s : State) : Host.Outcome State Fault Refusal :=
  .next (s.start.resetSearchState.complete 0#64)

/-- A position of a pass whose pair is not `(1, 1)`: the branch `d` is recorded if it is the 0 branch of a discrepancy, put into
`ADDR`, and written back (43_search.md R182, R183). -/
def State.takeBranch (discrepancy d : Bool) (s : State) : State :=
  let q := if discrepancy && !d then s.setLastZero s.tr.p else s
  let q := (q.setAddrBit d).slotWrite d
  q.setP (q.tr.p + 1#7)

/-- The body of the loop of step 4 (43_search.md R177 to R183): false where it leaves the loop. -/
def State.searchPosition (s : State) : Bool × State :=
  let i := s.slotRead
  let c := i.2.slotRead
  match i.1, c.1 with
  | true, true => (false, c.2)
  | true, false => (true, c.2.takeBranch false true)
  | false, true => (true, c.2.takeBranch false false)
  | false, false => (true, c.2.takeBranch true c.2.discrepancyBranch)

/-- The loop of step 4, `n` more positions (43_search.md R176): false if it was left early. -/
def State.searchLoop : Nat → State → Bool × State
  | 0, s => (true, s)
  | n + 1, s =>
    let r := s.searchPosition
    match r.1 with
    | false => (false, r.2)
    | true => State.searchLoop n r.2

/-- A failing exit: the search state is cleared, the result is 0 (43_search.md R186). -/
def State.failPass (s : State) : Word × State := (0#64, s.resetSearchState)

/-- Steps 5 to 7 (43_search.md R184 to R187). -/
def State.finishPass (s : State) : Word × State :=
  let q := s.commitPass
  if q.addressValid then (q.addr, q) else q.failPass

/-- Steps 3 to 7 (43_search.md R175 to R187), after a reset slot that found a device. -/
def State.traverse (s : State) : Word × State :=
  let q := ((s.writeByte Config.romSearch).setLastZero 0#7).setP 1#7
  let r := State.searchLoop 64 q
  match r.1 with
  | true => r.2.finishPass
  | false => r.2.failPass

/-- `SearchOne()` (43_search.md R171). -/
def State.searchOne (s : State) : Word × State :=
  match s.ldf with
  | true => (0#64, s)
  | false =>
    let r := s.resetPulse
    match r.1 with
    | true => r.2.traverse
    | false => r.2.failPass

/-- SEARCH (43_search.md R171). -/
def execSearch (s : State) : Host.Outcome State Fault Refusal :=
  .next (let r := s.start.searchOne; r.2.complete r.1)

/-- One round of ENUM's loop (43_search.md R190; 30_encoding.md R94): a pass, then the beat of the address found, or the closing
beat. The block stays busy after the first and becomes idle after the second. -/
def State.enumRound (s : State) : State :=
  let r := s.searchOne
  if r.1 = 0#64 then r.2.complete 0#64 else r.2.respond r.1 false

/-- ENUM (43_search.md R190): the search state is cleared and the first round of the loop is run. The loop has no bound
(R196), so each further round is a step of its own, taken while the block is busy (log 9). -/
def execEnum (s : State) : Host.Outcome State Fault Refusal :=
  .next s.start.resetSearchState.enumRound

end Sys2Proof.Machine
end

