-- ==== Sys2Proof/Machine/Channel.lean ====
section
/-!
DEFINITION. The command channel and the `rst` input: what the block does next, an illegal word, and hardware reset in the middle
of an operation (10_state.md R35, R38; 30_encoding.md R88; 70_reset_and_hazards.md R241, R242).
-/

namespace Sys2Proof.Machine

/-- The `rst` input now (10_state.md R38). -/
def State.rst (s : State) : Bool := levelAt s.rstEdges s.now

/-- `cmd_ready = 1` if and only if `busy = 0` and `rst = 0` (10_state.md R35; 90_conflicts.md C9). -/
def State.cmdReady (s : State) : Bool := !s.busy && !s.rst

/-- The word on `cmd_word` while `cmd_valid = 1`, and the offers after it. -/
def State.offered (s : State) : Option (CmdWord × List Offer) :=
  match s.offers with
  | [] => none
  | o :: rest => if o.time ≤ s.now then some (o.word, rest) else none

/-- What the next step is. -/
inductive Action where
  /-- `rst = 1`: the block is in its reset state. -/
  | hold
  /-- The block is inside ENUM's loop. -/
  | resume
  /-- `cmd_valid = 1` and `cmd_ready = 1`: the word is taken; the other offers remain. -/
  | accept (w : CmdWord) (rest : List Offer)
  /-- The block is idle and no word is offered. -/
  | wait
deriving DecidableEq, Repr

/-- What the next step is (10_state.md R35, R38). -/
def State.action (s : State) : Action :=
  if s.rst then .hold
  else if s.busy then .resume
  else
    match s.offered with
    | some (w, rest) => .accept w rest
    | none => .wait

/-- The offer is taken (10_state.md R35). -/
def State.take (rest : List Offer) (s : State) : State := { s with offers := rest }

/-- One microsecond in the reset state (70_reset_and_hazards.md R242; log 16). -/
def State.holdReset (s : State) : State := s.hardReset.advance 1

/-- One microsecond of idling, unless `rst` rises (60_exceptions.md R229; log 16). -/
def State.idle (s : State) : State := s.advance 1

/-- An illegal command word: no slot, no register changed, the diagnostic, one beat of 0 (30_encoding.md R88;
60_exceptions.md R218; log 6). -/
def execIllegal (s : State) : Host.Outcome State Fault Refusal :=
  .next ((s.start.diag .illegalCmd).complete 0#64)

/-- The first instant after `t0`, up to now, at which `rst` is 1. -/
def State.firstReset (t0 : Nat) (s : State) : Option Nat :=
  (s.rstEdges.filter fun e => decide (t0 < e) && decide (e ≤ s.now) && levelAt s.rstEdges e).min?

/-- Hardware reset in the middle of what leads from `s` to `s'`, if `rst` rises there (10_state.md R38;
70_reset_and_hazards.md R241; log 11, log 12). -/
def State.cutByReset (s s' : State) : State :=
  match s'.firstReset s.now with
  | some t => s.abandonAt t s'
  | none => s'

/-- The same of an outcome. -/
def settle (s : State) (o : Host.Outcome State Fault Refusal) : Host.Outcome State Fault Refusal :=
  match o with
  | .next s' => .next (s.cutByReset s')
  | .fault r => .fault r
  | .refused r => .refused r

/-- The state in which the host presents `w` now, to an idle block with `rst = 0` for good. -/
def State.present (w : CmdWord) (s : State) : State :=
  { s with busy := false, rstEdges := [], offers := ⟨s.now, w⟩ :: s.offers }

end Sys2Proof.Machine
end

