-- ==== Sys2Proof/Machine/Device.lean ====
section
/-!
DEFINITION. The device protocol: SELECT, SKIP (42_device_protocol.md).
-/

namespace Sys2Proof.Machine

/-- SELECT (42_device_protocol.md R160). -/
def execSelect (address : Word) (s : State) : Host.Outcome State Fault Refusal :=
  .next (((s.start.writeByte Config.romMatch).writeWord address).complete 0#64)

/-- SKIP (42_device_protocol.md R161). -/
def execSkip (s : State) : Host.Outcome State Fault Refusal :=
  .next ((s.start.writeByte Config.romSkip).complete 0#64)

end Sys2Proof.Machine
end

