-- ==== Sys2Proof/Machine/Framing.lean ====
section
/-!
DEFINITION. Byte and word framing: WBYTE, RBYTE, WWORD, RWORD (41_framing.md).
-/

namespace Sys2Proof.Machine

/-- WBYTE (41_framing.md R140). -/
def execWbyte (v : Byte) (s : State) : Host.Outcome State Fault Refusal :=
  .next ((s.start.writeByte v).complete 0#64)

/-- RBYTE (41_framing.md R142). -/
def execRbyte (s : State) : Host.Outcome State Fault Refusal :=
  .next (let r := s.start.readByte; r.2.complete (ofByte r.1))

/-- WWORD (41_framing.md R141). -/
def execWword (v : Word) (s : State) : Host.Outcome State Fault Refusal :=
  .next ((s.start.writeWord v).complete 0#64)

/-- RWORD (41_framing.md R143). -/
def execRword (s : State) : Host.Outcome State Fault Refusal :=
  .next (let r := s.start.readWord; r.2.complete r.1)

end Sys2Proof.Machine
end

