-- ==== Sys2Proof/Machine/Primitives.lean ====
section
/-!
DEFINITION. The signal primitives: RESET, WBIT, RBIT (40_signal_primitives.md).
-/

namespace Sys2Proof.Machine

/-- RESET (40_signal_primitives.md R110). -/
def execReset (s : State) : Host.Outcome State Fault Refusal :=
  .next (let r := s.start.resetPulse; r.2.complete (ofBit r.1))

/-- WBIT (40_signal_primitives.md R120). -/
def execWbit (bit : Bool) (s : State) : Host.Outcome State Fault Refusal :=
  .next ((s.start.slotWrite bit).complete 0#64)

/-- RBIT (40_signal_primitives.md R128). -/
def execRbit (s : State) : Host.Outcome State Fault Refusal :=
  .next (let r := s.start.slotRead; r.2.complete (ofBit r.1))

end Sys2Proof.Machine
end

