-- ==== Sys2Proof/Machine/Dispatch.lean ====
section
/-!
DEFINITION. One arm an operation.
-/

namespace Sys2Proof.Machine

def exec (i : Instr) (s : State) : Host.Outcome State Fault Refusal :=
  match i with
  | .reset => Sys2Proof.Machine.execReset s
  | .wbit bit => Sys2Proof.Machine.execWbit bit s
  | .rbit => Sys2Proof.Machine.execRbit s
  | .wbyte v => Sys2Proof.Machine.execWbyte v s
  | .rbyte => Sys2Proof.Machine.execRbyte s
  | .wword v => Sys2Proof.Machine.execWword v s
  | .rword => Sys2Proof.Machine.execRword s
  | .select address => Sys2Proof.Machine.execSelect address s
  | .skip => Sys2Proof.Machine.execSkip s
  | .srst => Sys2Proof.Machine.execSrst s
  | .search => Sys2Proof.Machine.execSearch s
  | .enum => Sys2Proof.Machine.execEnum s

end Sys2Proof.Machine
end

