-- ==== Sys2Proof/Machine/Step.lean ====
section
/-!
DEFINITION. One step of the machine.
-/

namespace Sys2Proof.Machine

/-- The operation a command word names, or the meaning of an illegal word (30_encoding.md R85, R88). -/
def execWord (w : CmdWord) (s : State) : Host.Outcome State Fault Refusal :=
  match decode w with
  | .instr i => exec i s
  | .illegal _ => execIllegal s

/-- One step: a microsecond of reset, a round of ENUM's loop, a whole operation, or a microsecond of idling. Where `rst` rises
after the beginning of one of the last three, the step ends at that instant, with the block in its reset state
(10_state.md R38). -/
def step (s : State) : Host.Outcome State Fault Refusal :=
  match s.action with
  | .hold => .next s.holdReset
  | .resume => settle s (.next s.enumRound)
  | .accept w rest => settle s (execWord w (s.take rest))
  | .wait => settle s (.next s.idle)

/-- `s` with the command word of the table's numbering presented by the host, so that the next step takes it (log 5). -/
def State.withFetchWord (s : State) (nbits w : Nat) : State := s.present (tableWord nbits w)

end Sys2Proof.Machine
end

