-- ==== Sys2Proof/SlotLevel.lean ====
section
/-!
DEFINITION. The slot level of the specification (00_scope.md R10), written a second time straight from the pseudocode, without
time and without the transient registers: lists of bits, natural numbers and loops as recursion. `step` does not use it. It is
what the untimed claims compare the machine with.
-/

namespace Sys2Proof.SlotLevel

open Sys2Proof.Machine

/-- What the slot level sees: the search state, the environment, and the three observable sequences (00_scope.md R11). -/
structure View where
  ld : Nat
  ldf : Bool
  addr : Word
  env : Env
  events : List BusEvent
  diags : List DiagCode
  rsp : List (Word × Bool)
deriving DecidableEq, Repr

/-- `SlotWrite(b)`: the environment is told the bit. -/
def View.write (v : View) (b : Bool) : View :=
  { v with env := v.env.afterWrite b, events := v.events ++ [.w b] }

/-- `SlotRead()`: the environment answers the bit. -/
def View.read (v : View) : Bool × View :=
  (v.env.readAnswer, { v with env := v.env.afterRead, events := v.events ++ [.r v.env.readAnswer] })

/-- `SlotReset()`: the environment answers the outcome. -/
def View.resetSlot (v : View) : ResetOutcome × View :=
  (v.env.resetAnswer, { v with env := v.env.afterReset, events := v.events ++ [.rst v.env.resetAnswer] })

/-- `diag(code)`. -/
def View.diag (code : DiagCode) (v : View) : View := { v with diags := v.diags ++ [code] }

/-- `respond(data, last)`. -/
def View.respond (data : Word) (last : Bool) (v : View) : View := { v with rsp := v.rsp ++ [(data, last)] }

/-- `ResetPulse()` (40_signal_primitives.md R110). -/
def View.resetPulse (v : View) : Bool × View :=
  match v.resetSlot with
  | (.noFloat, v) => (false, v.diag .noFloat)
  | (.noPres, v) => (false, v.diag .noPres)
  | (.presNoRel, v) => (true, v.diag .noRel)
  | (.pres, v) => (true, v)

/-- The bits of a value, bit 0 first (20_memory.md R52, R53). -/
def bitsOf {n : Nat} (v : BitVec n) : List Bool := (List.range n).map v.getLsbD

/-- The number whose bits, bit 0 first, are those of a list (41_framing.md R142, R143). -/
def numberOf : List Bool → Nat
  | [] => 0
  | b :: bs => b.toNat + 2 * numberOf bs

/-- A write slot for each bit of a list. -/
def View.writeBits (bits : List Bool) (v : View) : View := bits.foldl View.write v

/-- `n` read slots, the bits in the order they were read. -/
def View.readBits : Nat → View → List Bool × View
  | 0, v => ([], v)
  | n + 1, v =>
    let r := v.read
    let rest := View.readBits n r.2
    (r.1 :: rest.1, rest.2)

/-- `ResetSearchState()` (43_search.md R170). -/
def View.resetSearchState (v : View) : View := { v with ld := 0, ldf := false, addr := 0#64 }

/-- The branch at position `p`, from the pair read there: `none` where nobody answers (43_search.md R178 to R181). -/
def branch (ld : Nat) (addr : Word) (p : Nat) (id cmp : Bool) : Option Bool :=
  if id && cmp then none
  else if id != cmp then some id
  else if p < ld then some (addr.getLsbD (p - 1))
  else if p = ld then some true
  else some false

/-- The loop of step 4 from position `p` on, `n` more positions, with the candidate `lastZero`: the candidate at the end, or
`none` where the pass aborts (43_search.md R171). -/
def View.positions : Nat → Nat → Nat → View → Option Nat × View
  | 0, _, lastZero, v => (some lastZero, v)
  | n + 1, p, lastZero, v =>
    let i := v.read
    let c := i.2.read
    match branch v.ld v.addr p i.1 c.1 with
    | none => (none, c.2)
    | some d =>
      let lastZero := if !i.1 && !c.1 && !d then p else lastZero
      View.positions n (p + 1) lastZero (View.write { c.2 with addr := setBit c.2.addr (p - 1) d } d)

/-- A failing exit (43_search.md R186). -/
def View.failPass (v : View) : Word × View := (0#64, v.resetSearchState)

/-- `SearchOne()` (43_search.md R171). -/
def View.searchOne (v : View) : Word × View :=
  if v.ldf then (0#64, v)
  else
    let r := v.resetPulse
    if r.1 then
      match View.positions 64 1 0 (r.2.writeBits (bitsOf Config.romSearch)) with
      | (none, v) => v.failPass
      | (some lastZero, v) =>
        if v.addr.extractLsb' 0 8 = 0#8 then v.failPass
        else (v.addr, { v with ld := lastZero, ldf := decide (lastZero = 0) })
    else r.2.failPass

/-- One round of ENUM's loop (43_search.md R190). -/
def View.enumRound (v : View) : View :=
  let r := v.searchOne
  if r.1 = 0#64 then r.2.respond 0#64 true else r.2.respond r.1 false

/-- An operation, up to its last beat; of ENUM, up to the end of the first round of its loop. -/
def run (i : Instr) (v : View) : View :=
  match i with
  | .reset => let r := v.resetPulse; r.2.respond (BitVec.ofNat 64 r.1.toNat) true
  | .wbit bit => (v.write bit).respond 0#64 true
  | .rbit => let r := v.read; r.2.respond (BitVec.ofNat 64 r.1.toNat) true
  | .wbyte b => (v.writeBits (bitsOf b)).respond 0#64 true
  | .rbyte => let r := v.readBits 8; r.2.respond (BitVec.ofNat 64 (numberOf r.1)) true
  | .wword w => (v.writeBits (bitsOf w)).respond 0#64 true
  | .rword => let r := v.readBits 64; r.2.respond (BitVec.ofNat 64 (numberOf r.1)) true
  | .select address => ((v.writeBits (bitsOf Config.romMatch)).writeBits (bitsOf address)).respond 0#64 true
  | .skip => (v.writeBits (bitsOf Config.romSkip)).respond 0#64 true
  | .srst => v.resetSearchState.respond 0#64 true
  | .search => let r := v.searchOne; r.2.respond r.1 true
  | .enum => v.resetSearchState.enumRound

end Sys2Proof.SlotLevel
end

