-- ==== Sys2Proof/Safety.lean ====
section
/-!
DEFINITION. The terms claims are stated in: the waveform read off the trace, what a step may observe and must keep, the
invariant, and runs.
-/

namespace Sys2Proof.Machine

/-! ### Reading the histories -/

/-- The sequence of bus events (00_scope.md R10). -/
def State.events (s : State) : List BusEvent := s.bus.map Slot.ev

/-- `ow_drive_low` at the instant `t` (10_state.md R31). -/
def State.driveAt (s : State) (t : Nat) : Bool :=
  s.trace.any fun sp => sp.driveLow && decide (sp.start ≤ t) && decide (t < sp.stop)

/-- `crit` at the instant `t` (10_state.md R33). -/
def State.critAt (s : State) (t : Nat) : Bool :=
  s.trace.any fun sp => sp.crit && decide (sp.start ≤ t) && decide (t < sp.stop)

/-- Whether `ow_in` was read at the instant `t` (10_state.md R32). -/
def State.lookedAt (s : State) (t : Nat) : Bool :=
  s.looks.any fun w => decide (w.start ≤ t) && decide (t < w.stop)

/-- What has been put on `diag_code`, oldest first (10_state.md R37; 60_exceptions.md R211). -/
def State.diagCodes (s : State) : List (BitVec 2) := s.diags.map fun d => d.code.value

/-- The slot level of a state (00_scope.md R10). -/
def State.view (s : State) : SlotLevel.View :=
  { ld := s.ld.toNat, ldf := s.ldf, addr := s.addr, env := s.env, events := s.events,
    diags := s.diags.map Diag.code, rsp := s.rsp.map fun b => (b.data, b.last) }

/-- The environments that answer slots, as against waveforms (00_scope.md R10). -/
def Env.slotLevel : Env → Bool
  | .free _ => false
  | .wave _ => false
  | .dev _ => true
  | .loop _ => true
  | .script _ _ => true

/-- The instant at which the next slot of the operation in progress starts: after `T_GAP` where it is not the operation's first
(40_signal_primitives.md R135). -/
def State.slotStart (s : State) : Nat := if s.inOp then s.now + s.timing.tGap else s.now

/-! ### What an operation keeps -/

/-- `LD`, `LDF` and `ADDR` are as before. -/
def SearchStateKept (s t : State) : Prop := t.ld = s.ld ∧ t.ldf = s.ldf ∧ t.addr = s.addr

/-- The registers are at their reset values (10_state.md R40; 70_reset_and_hazards.md R242). -/
def RegistersAtReset (s : State) : Prop :=
  s.ld = 0#7 ∧ s.ldf = false ∧ s.addr = 0#64 ∧ s.busy = false ∧ s.owDriveLow = false ∧ s.crit = false

/-- What no operation changes: the build-time parameters and the inputs. -/
def InputsKept (s t : State) : Prop := t.timing = s.timing ∧ t.rstEdges = s.rstEdges ∧ t.offers = s.offers

/-- The block is idle with the line released. -/
def IdleReleased (t : State) : Prop := t.busy = false ∧ t.owDriveLow = false ∧ t.crit = false

/-- One beat with this data and `last` was given (10_state.md R36). -/
def OneBeat (s t : State) (data : Word) : Prop := ∃ time, t.rsp = s.rsp ++ [⟨time, data, true⟩]

/-- What an operation that neither reads nor writes the search state does besides its slots: these bus events, one closing beat
with this data, no diagnostic, the block idle again, and nothing else changed that a later operation could see. -/
def LineOperation (s t : State) (evs : List BusEvent) (data : Word) : Prop :=
  t.events = s.events ++ evs ∧ OneBeat s t data ∧ SearchStateKept s t ∧ InputsKept s t ∧ IdleReleased t ∧ t.diags = s.diags

/-- The search state is empty (43_search.md R170). -/
def SearchStateEmpty (t : State) : Prop := t.ld = 0#7 ∧ t.ldf = false ∧ t.addr = 0#64

/-- What RESET returns for an outcome (40_signal_primitives.md R110). -/
def presence : ResetOutcome → Bool
  | .noFloat => false
  | .noPres => false
  | .pres => true
  | .presNoRel => true

/-- What a reset slot reports for an outcome (40_signal_primitives.md R110; 60_exceptions.md R210). -/
def diagnostics : ResetOutcome → List DiagCode
  | .noFloat => [.noFloat]
  | .noPres => [.noPres]
  | .pres => []
  | .presNoRel => [.noRel]

/-- The block takes `w` in the next step: it is idle, `rst` is 0 and the host presents `w` (10_state.md R35). -/
def Taking (s : State) (w : CmdWord) (rest : List Offer) : Prop :=
  s.rst = false ∧ s.busy = false ∧ s.offered = some (w, rest)

/-- The `rst` input does not change after now. -/
def NoResetAhead (s : State) : Prop := ∀ e ∈ s.rstEdges, e ≤ s.now

/-- The next step is a round of ENUM's loop after the first (log 9), and hardware reset does not cut it. -/
def LaterRound (s : State) : Prop := s.busy = true ∧ s.rst = false ∧ NoResetAhead s

/-- `rst` is 0 now and rises at `e` for the first time after now (10_state.md R38). -/
def RstRisesAt (s : State) (e : Nat) : Prop :=
  s.now < e ∧ levelAt s.rstEdges e = true ∧ ∀ x, s.now ≤ x → x < e → levelAt s.rstEdges x = false

/-- `u` is what hardware reset at `e` leaves of what leads from `s` to `t`: the block is in its reset state, `rst` is 1, no beat is
given, a diagnostic only if it had been given before `e`, the outputs were as they would have been before `e` and are 0 from `e` on,
and the slots that had ended by `e` are on the line (70_reset_and_hazards.md R241, R242; log 11). -/
def AbandonedAt (s t : State) (e : Nat) (u : State) : Prop :=
  u.now = e ∧ RegistersAtReset u ∧ u.rst = true ∧ u.cmdReady = false ∧ u.rsp = s.rsp ∧
  u.diags = (t.diags.filter fun d => decide (d.time < e)) ∧ u.timing = s.timing ∧ u.rstEdges = s.rstEdges ∧
  (∀ x, e ≤ x → u.driveAt x = false ∧ u.critAt x = false) ∧
  (∀ x, x < e → u.driveAt x = t.driveAt x ∧ u.critAt x = t.critAt x) ∧
  (∀ sl, sl ∈ u.bus ↔ sl ∈ t.bus ∧ sl.stop ≤ e)

/-- The command word selects SRST, SEARCH or ENUM. -/
def writesSearchState : Instr → Bool
  | .reset => false
  | .wbit _ => false
  | .rbit => false
  | .wbyte _ => false
  | .rbyte => false
  | .wword _ => false
  | .rword => false
  | .select _ => false
  | .skip => false
  | .srst => true
  | .search => true
  | .enum => true

/-! ### Slots in time -/

/-- `new` are the slots on the way from `s` to `t`: the first starts at `start`, each later one `T_GAP` after the one before it has
ended, and the last ends when `t` is reached; with no slot no time passes (40_signal_primitives.md R135). -/
def SlotsFollow (s t : State) (start : Nat) (new : List Slot) : Prop :=
  t.bus = s.bus ++ new ∧
  (∀ sl, new.head? = some sl → sl.start = start) ∧
  new.IsChain (fun a b => b.start = a.stop + s.timing.tGap) ∧
  (∀ sl, new.getLast? = some sl → sl.stop = t.now) ∧
  (new = [] → t.now = s.now)

/-- The line after the release at `tRel` of a reset slot with outcome `o`: what `env_low` leaves of it, or, where the environment
answers slots, the waveform that stands for the answer (20_memory.md R51, R72; log 13). -/
def Env.lineAfterRelease (e : Env) (o : ResetOutcome) (tRel x : Nat) : Bool :=
  if e.slotLevel then !answerWave o (x - tRel) else lineLevel false (e.lowInReset tRel x)

/-- The slot `sl` of an operation that leads from `s` to `t` is the slot of its kind: its length, its edges, its critical section,
the instants at which the line is read, and what the line says there (40_signal_primitives.md R111 to R132, R136). -/
def SlotAsSpecified (s t : State) (sl : Slot) : Prop :=
  match sl.ev with
  | .w b =>
    sl.stop = sl.start + s.timing.tWSlot ∧
    ∀ x, sl.start ≤ x → x < sl.stop →
      t.driveAt x = decide (x < sl.start + (if b then s.timing.tW1L else s.timing.tW0L)) ∧ t.critAt x = true ∧
      (sl.start < x → t.lookedAt x = false)
  | .r b =>
    sl.stop = sl.start + 60 ∧
    (s.env.slotLevel = false → b = lineLevel false (s.env.lowInRead (sl.start + s.timing.tRInit + s.timing.tRWait))) ∧
    ∀ x, sl.start ≤ x → x < sl.stop →
      t.driveAt x = decide (x < sl.start + s.timing.tRInit) ∧ t.critAt x = true ∧
      (sl.start < x → t.lookedAt x = decide (x = sl.start + s.timing.tRInit + s.timing.tRWait))
  | .rst o =>
    let tRel := sl.start + 480
    let scan := resetScan s.timing.boundaryInclusive (s.env.lineAfterRelease o tRel) tRel
    sl.stop = sl.start + 960 ∧ o = scan.outcome ∧
    ∀ x, sl.start ≤ x → x < sl.stop →
      t.driveAt x = decide (x < tRel) ∧ t.critAt x = (decide (tRel ≤ x) && decide (x < scan.tc)) ∧
      (sl.start < x → t.lookedAt x = (decide (tRel ≤ x) && decide (x < scan.lookStop)))

/-- Outside the slots the line is released and `crit` is 0, from now on (10_state.md R33; 40_signal_primitives.md R135). -/
def LowOutsideSlots (s t : State) : Prop :=
  ∀ x, s.now ≤ x → (∀ sl ∈ t.bus, ¬ (sl.start ≤ x ∧ x < sl.stop)) → t.driveAt x = false ∧ t.critAt x = false

/-! ### The invariant -/

/-- The search state is empty, or it is what a pass that found an address leaves: byte 0 is not zero, `LD` is a position at
which the 0 branch was taken, or 0 and then `LDF` is set (10_state.md R22 to R25; 43_search.md R183 to R186). -/
def SearchStateLegal (s : State) : Prop :=
  (s.ld = 0#7 ∧ s.ldf = false ∧ s.addr = 0#64) ∨
  (lowByte s.addr ≠ 0#8 ∧ s.ld.toNat ≤ 64 ∧ s.ldf = (s.ld == 0#7) ∧
    (s.ld ≠ 0#7 → s.addr.getLsbD (s.ld.toNat - 1) = false))

/-- The histories lie in the past, and each slot starts after the slot before it has ended (20_memory.md R61). Where a budget's last
instant counts, a reset slot looks at the line at the very instant at which it ends (log 23). -/
def HistoryOrdered (s : State) : Prop :=
  (∀ sl ∈ s.bus, sl.start ≤ sl.stop ∧ sl.stop ≤ s.now) ∧
  s.bus.Pairwise (fun a b => a.stop ≤ b.start) ∧
  (∀ sp ∈ s.trace, sp.stop ≤ s.now) ∧
  (∀ w ∈ s.looks, w.stop ≤ s.now + 1) ∧
  (∀ b ∈ s.rsp, b.time ≤ s.now) ∧
  (∀ d ∈ s.diags, d.time ≤ s.now)

/-- Between two rounds of ENUM's loop: a slot has been performed, the last one ends now, and the search state is that of a pass that
found an address (43_search.md R190; log 9). -/
def BetweenRounds (s : State) : Prop :=
  s.inOp = true ∧ (∃ sl, s.bus.getLast? = some sl ∧ sl.stop = s.now) ∧ lowByte s.addr ≠ 0#8

/-- What holds between two steps. -/
structure Inv (s : State) : Prop where
  timingLegal : s.timing.legal = true
  released : s.owDriveLow = false ∧ s.crit = false
  searchStateLegal : SearchStateLegal s
  historyOrdered : HistoryOrdered s
  /-- While `rst = 1` the registers are at their reset values (10_state.md R38; 70_reset_and_hazards.md R242). -/
  inReset : s.rst = true → RegistersAtReset s
  /-- Only ENUM leaves the block busy (log 9). -/
  betweenRounds : s.busy = true → BetweenRounds s

/-! ### Runs -/

/-- The state an outcome leads to, if it is a next state. -/
def nextState (o : Host.Outcome State Fault Refusal) : Option State :=
  match o with
  | .next t => some t
  | .fault _ => none
  | .refused _ => none

/-- Operations, one after another, each to its end (of ENUM, to the end of its first round): the state after the last. -/
def execAll : List Instr → State → Option State
  | [], s => some s
  | i :: is, s =>
    match nextState (exec i s) with
    | some t => execAll is t
    | none => none

/-- So many steps, one after another: the state after the last. -/
def stepAll : Nat → State → Option State
  | 0, s => some s
  | n + 1, s =>
    match nextState (step s) with
    | some t => stepAll n t
    | none => none

/-- `Dev(S)` with every device in some mode (20_memory.md R64). -/
def devicesOf (roms : List Word) (e : Env) : Prop :=
  ∃ ds : List Device, e = .dev ds ∧ ds.map Device.rom = roms

/-- The code with 0 at the first bit position at which two codes differ comes first (43_search.md R192). -/
def BitFirstLess (a b : Word) : Prop :=
  ∃ n, n < 64 ∧ (∀ m, m < n → a.getLsbD m = b.getLsbD m) ∧ a.getLsbD n = false ∧ b.getLsbD n = true

end Sys2Proof.Machine
end

