-- ==== Sys2Proof/Certificates/Slice0/Obligations.lean ====
section
/-!
DEFINITION. The statements for the provers. Each docstring names the rule it formalises; where it rests on a choice of the model
it names the log entry.
-/

open Sys2Proof Sys2Proof.Machine Sys2Proof.SlotLevel

/-! ### Encoding -/

/-- Decoding the command word of an operation gives the operation back, whatever its operand (30_encoding.md R81, R83, R84). -/
def Obligations.EncodeThenDecode : Prop :=
  ∀ i : Instr, decode (encode i) = .instr i

/-- A legal word is the command word of the operation it decodes to: no bit of it is dropped (30_encoding.md R81, R83). -/
def Obligations.DecodeThenEncode : Prop :=
  ∀ (w : CmdWord) (i : Instr), decode w = .instr i → encode i = w

/-- At most one row of the opcode map selects a word, the word is then that row's operation, and a word that no row selects is
illegal (30_encoding.md R85, which the spec derives from R84). -/
def Obligations.DecodingFollowsTheOpcodeMap : Prop :=
  ∀ w : CmdWord,
    (∀ r₁ ∈ opcodeTable, ∀ r₂ ∈ opcodeTable, r₁.selects w = true → r₂.selects w = true → r₁ = r₂) ∧
    (∀ r ∈ opcodeTable, r.selects w = true →
      ∃ i, decode w = .instr i ∧ i.mnemonic = r.mnemonic ∧ i.format = r.format) ∧
    ((∀ r ∈ opcodeTable, r.selects w = false) → ∃ why, decode w = .illegal why)

/-- Which words are illegal (30_encoding.md R87): `op` is 0x00 or in 0x0D to 0xFF, or `op` has a row and a reserved bit of its
format is 1. -/
def Obligations.IllegalWordsAreTheReservedOnes : Prop :=
  ∀ w : CmdWord, (∃ why, decode w = .illegal why) ↔
    (opField w).toNat = 0x00 ∨ 0x0D ≤ (opField w).toNat ∨
      ∃ r ∈ opcodeTable, r.pat.extractLsb' 64 8 = opField w ∧
        ∃ n, r.format.operandBits ≤ n ∧ n < 64 ∧ (argField w).getLsbD n = true

/-- Words written out from the opcode map and the examples (30_encoding.md R84, R87; 95_test_vectors.md V01 to V09). -/
def Obligations.WordsOfTheOpcodeMapDecode : Prop :=
  decode 0x010000000000000000#72 = .instr .reset ∧
  decode 0x020000000000000001#72 = .instr (.wbit true) ∧
  decode 0x0400000000000000A5#72 = .instr (.wbyte 0xA5#8) ∧
  decode 0x060123456789ABCDEF#72 = .instr (.wword 0x0123456789ABCDEF#64) ∧
  decode 0x082B000000ABCDEF28#72 = .instr (.select 0x2B000000ABCDEF28#64) ∧
  decode 0x0B0000000000000000#72 = .instr .search ∧
  decode 0x000000000000000000#72 = .illegal (.unassignedOp 0x00#8) ∧
  decode 0x0D0000000000000000#72 = .illegal (.unassignedOp 0x0D#8) ∧
  decode 0x020000000000000002#72 = .illegal (.reservedBits 0x02#8) ∧
  decode 0x0400000000000001A5#72 = .illegal (.reservedBits 0x04#8) ∧
  decode 0x0B0000000000000001#72 = .illegal (.reservedBits 0x0B#8)

/-! ### A step, the command channel, hardware reset -/

/-- A step runs the operation the presented word decodes to, with the offer taken, and hardware reset cuts it if `rst` rises before
it has ended (10_state.md R35; 30_encoding.md R82, R85; log 11). -/
def Obligations.StepRunsTheDecodedOperation : Prop :=
  ∀ (s : State) (w : CmdWord) (rest : List Offer) (i : Instr), Taking s w rest → decode w = .instr i →
    step s = settle s (exec i (s.take rest)) ∧
    (NoResetAhead s → step s = exec i (s.take rest))

/-- The machine never stops: each step has a next state (60_exceptions.md R219, R230; 10_state.md R36). -/
def Obligations.EveryStepHasANextState : Prop :=
  ∀ s : State, ∃ t, step s = .next t

/-- An illegal word is accepted, performs no slot, changes no register, and gives the diagnostic and one beat of 0
(30_encoding.md R88; 60_exceptions.md R218). -/
def Obligations.IllegalWordIsADiagnosedNoOp : Prop :=
  ∀ (s : State) (w : CmdWord) (rest : List Offer) (why : Illegal), Taking s w rest → decode w = .illegal why →
    ∃ t, step s = .next t ∧
      t.offers = rest ∧ t.bus = s.bus ∧ t.trace = s.trace ∧ t.looks = s.looks ∧ t.env = s.env ∧
      t.ld = s.ld ∧ t.ldf = s.ldf ∧ t.addr = s.addr ∧
      t.diags.map Diag.code = s.diags.map Diag.code ++ [.illegalCmd] ∧ OneBeat s t 0#64 ∧ t.busy = false

/-- While `rst = 1` every register is at its reset value, from the very instant at which `rst` has risen, whatever step led there;
no beat is given and no command is taken; and when `rst` falls the block is ready (70_reset_and_hazards.md R242;
10_state.md R38). -/
def Obligations.RegistersWhileInReset : Prop :=
  (∀ s t : State, step s = .next t → t.rst = true → RegistersAtReset t ∧ t.cmdReady = false) ∧
  (∀ s : State, s.rst = true →
    s.cmdReady = false ∧
    ∃ t, step s = .next t ∧ RegistersAtReset t ∧
      t.rsp = s.rsp ∧ t.diags = s.diags ∧ t.offers = s.offers ∧ t.bus = s.bus ∧ t.trace = s.trace ∧ t.looks = s.looks ∧
      t.env = s.env ∧ (t.rst = false → t.cmdReady = true))

/-- The state after hardware reset (10_state.md R40). -/
def Obligations.StateAfterReset : Prop :=
  State.reset.ld = 0#7 ∧ State.reset.ldf = false ∧ State.reset.addr = 0#64 ∧ State.reset.busy = false ∧
  State.reset.rst = false ∧ State.reset.cmdReady = true ∧
  State.reset.owDriveLow = false ∧ State.reset.crit = false ∧
  State.reset.rsp = [] ∧ State.reset.diags = [] ∧ State.reset.bus = []

/-- A word is taken in a step exactly when the block is ready and the host presents it; otherwise the offers stay
(10_state.md R35; 30_encoding.md R82; 20_memory.md R73). -/
def Obligations.WordsAreTakenOnlyWhenReady : Prop :=
  ∀ s t : State, step s = .next t →
    (s.cmdReady = true → ∀ w rest, s.offered = some (w, rest) → t.offers = rest) ∧
    (s.cmdReady = false → t.offers = s.offers) ∧
    (s.offered = none → t.offers = s.offers)

/-- Hardware reset in the middle of an operation, or of a later round of ENUM's loop: it is abandoned at the instant `rst` rises, the
line is released from then on and was as the operation had it before, the registers are at their reset values, no beat is given for
it and no diagnostic from then on, and its slots that had ended stay on the line (70_reset_and_hazards.md R241; that a diagnostic
given before that instant has been given, as have the beats of ENUM's earlier rounds, and that the last instant counts as inside,
are the model's readings, log 11 and log 12; that a round of ENUM is a step is the model's choice, log 9). -/
def Obligations.ResetInTheMiddleAbandons : Prop :=
  ∀ (s : State) (e : Nat), Inv s → RstRisesAt s e →
    (∀ (t : State) (w : CmdWord) (rest : List Offer) (i : Instr), Taking s w rest → decode w = .instr i →
      exec i (s.take rest) = .next t → e ≤ t.now → ∃ u, step s = .next u ∧ AbandonedAt s t e u) ∧
    (s.busy = true → e ≤ s.enumRound.now → ∃ u, step s = .next u ∧ AbandonedAt s s.enumRound e u)

/-! ### Signal primitives -/

/-- RESET completes in one reset slot, returns its presence and reports its outcome, and leaves the search state alone
(40_signal_primitives.md R110; 60_exceptions.md R210, R212 to R215; that the diagnostic comes at the end of the slot is the model's
choice, log 8). -/
def Obligations.ResetReturnsPresence : Prop :=
  ∀ s : State, ∃ o t, exec .reset s = .next t ∧
    t.events = s.events ++ [.rst o] ∧ OneBeat s t (if presence o then 1#64 else 0#64) ∧
    t.diags = s.diags ++ (diagnostics o).map (fun c => ⟨t.now, c⟩) ∧
    SearchStateKept s t ∧ InputsKept s t ∧ IdleReleased t ∧ t.env = s.env.afterReset

/-- The outcome of a reset slot as a function of `env_low` after the release, for both values of `BOUNDARY_INCLUSIVE`
(40_signal_primitives.md R113 to R115, R117; 00_scope.md R19). -/
def Obligations.ResetOutcomeIsReadOffTheLine : Prop :=
  ∀ (s t : State) (o : ResetOutcome), exec .reset s = .next t → t.events = s.events ++ [.rst o] →
    let tRel := s.now + 480
    let low := s.env.lowInReset tRel
    let more := if s.timing.boundaryInclusive then 1 else 0
    (o = .noFloat ↔ ∀ x, tRel ≤ x → x < tRel + 15 + more → low x = true) ∧
    ∀ tH, tRel ≤ tH → tH < tRel + 15 + more → low tH = false → (∀ x, tRel ≤ x → x < tH → low x = true) →
      (o = .noPres ↔ ∀ x, tH ≤ x → x < tRel + 240 + more → low x = false) ∧
      ∀ tP, tH ≤ tP → tP < tRel + 240 + more → low tP = true → (∀ x, tH ≤ x → x < tP → low x = false) →
        (o = .pres ↔ ∃ x, tP < x ∧ x < tRel + 480 + more ∧ low x = false) ∧
        (o = .presNoRel ↔ ∀ x, tP < x → x < tRel + 480 + more → low x = true)

/-- The waveform of a reset slot (40_signal_primitives.md R111, R116, R118): low for 480 microseconds with `crit = 0` and no look
at the line; then released; `crit = 1` from the release to the end of the last wait that ran, which after a presence pulse is the first
instant at which the line is high again after its first low since it rose; the slot, and with it the operation, ends 960
microseconds after it started, whatever the line does. -/
def Obligations.ResetSlotWaveform : Prop :=
  ∀ s : State, HistoryOrdered s → ∃ t o tc, exec .reset s = .next t ∧ t.events = s.events ++ [.rst o] ∧
    t.now = s.now + 960 ∧
    (∀ x, s.now ≤ x → t.driveAt x = decide (x < s.now + 480)) ∧
    (∀ x, s.now ≤ x → t.critAt x = (decide (s.now + 480 ≤ x) && decide (x < tc))) ∧
    (∀ x, s.now ≤ x → x < s.now + 480 → s.lookedAt x = false → t.lookedAt x = false) ∧
    s.now + 480 ≤ tc ∧ tc ≤ s.now + 960 ∧
    (o = .noFloat → tc = s.now + 480 + 15) ∧
    (o = .noPres → tc = s.now + 480 + 240) ∧
    (o = .presNoRel → tc = s.now + 480 + 480) ∧
    (o = .pres → ∃ tH tP, s.now + 480 ≤ tH ∧ tH < tP ∧ tP < tc ∧
      (∀ x, s.now + 480 ≤ x → x < tH → s.env.lowInReset (s.now + 480) x = true) ∧
      (∀ x, tH ≤ x → x < tP → s.env.lowInReset (s.now + 480) x = false) ∧
      (∀ x, tP ≤ x → x < tc → s.env.lowInReset (s.now + 480) x = true) ∧
      s.env.lowInReset (s.now + 480) tc = false)

/-- WBIT completes: one write slot with the waveform of 40_signal_primitives.md R121 to R123, the same length for both bits, `ow_in`
never read, result 0. -/
def Obligations.WriteBitSlot : Prop :=
  ∀ (s : State) (bit : Bool), s.timing.legal = true → HistoryOrdered s →
    ∃ t, exec (.wbit bit) s = .next t ∧ LineOperation s t [.w bit] 0#64 ∧ t.env = s.env.afterWrite bit ∧
      t.now = s.now + s.timing.tWSlot ∧ t.looks = s.looks ∧
      (∀ x, s.now ≤ x →
        t.driveAt x = decide (x < s.now + (if bit then s.timing.tW1L else s.timing.tW0L))) ∧
      (∀ x, s.now ≤ x → t.critAt x = decide (x < s.now + s.timing.tWSlot))

/-- RBIT completes: one read slot with the waveform of 40_signal_primitives.md R129 to R132; the line is sampled once, and its level
at that instant is the result. -/
def Obligations.ReadBitSlot : Prop :=
  ∀ s : State, s.timing.legal = true → HistoryOrdered s →
    let tS := s.now + s.timing.tRInit + s.timing.tRWait
    let b := lineLevel false (s.env.lowInRead tS)
    ∃ t, exec .rbit s = .next t ∧ LineOperation s t [.r b] (if b then 1#64 else 0#64) ∧ t.env = s.env.afterRead ∧
      t.now = s.now + 60 ∧ t.looks = s.looks ++ [⟨tS, tS + 1⟩] ∧
      (∀ x, s.now ≤ x → t.driveAt x = decide (x < s.now + s.timing.tRInit)) ∧
      (∀ x, s.now ≤ x → t.critAt x = decide (x < s.now + 60))

/-- A presence pulse that begins 239 microseconds after the release is seen and one that begins at 241 is not, and a line that does
not rise within 15 microseconds gives no device, for both values of `BOUNDARY_INCLUSIVE` (40_signal_primitives.md R113, R114;
95_test_vectors.md E4, E5). -/
def Obligations.PresencePulseAt239And241 : Prop :=
  ∀ (s : State) (width : Nat), s.now = 0 → 0 < width → width < 200 →
    (s.env = .wave [480 + 239, 480 + 239 + width] → ∃ t, exec .reset s = .next t ∧ OneBeat s t 1#64) ∧
    (s.env = .wave [480 + 241, 480 + 241 + width] → ∃ t, exec .reset s = .next t ∧ OneBeat s t 0#64) ∧
    (s.env = .wave [480, 480 + 16 + width] →
      ∃ t, exec .reset s = .next t ∧ OneBeat s t 0#64 ∧ t.events = s.events ++ [.rst .noFloat])

/-! ### Framing and device protocol -/

/-- Bytes go on the line bit 0 first, out and in (20_memory.md R52): WBYTE and RBYTE complete. -/
def Obligations.BytesAreBitZeroFirst : Prop :=
  (∀ (s : State) (v : Byte), ∃ t, exec (.wbyte v) s = .next t ∧ t.looks = s.looks ∧
    LineOperation s t
      [.w (v.getLsbD 0), .w (v.getLsbD 1), .w (v.getLsbD 2), .w (v.getLsbD 3),
       .w (v.getLsbD 4), .w (v.getLsbD 5), .w (v.getLsbD 6), .w (v.getLsbD 7)] 0#64) ∧
  (∀ s : State, ∃ (t : State) (r : Byte), exec .rbyte s = .next t ∧
    LineOperation s t
      [.r (r.getLsbD 0), .r (r.getLsbD 1), .r (r.getLsbD 2), .r (r.getLsbD 3),
       .r (r.getLsbD 4), .r (r.getLsbD 5), .r (r.getLsbD 6), .r (r.getLsbD 7)] (r.setWidth 64))

/-- Words go on the line byte 0 first, each byte bit 0 first, out and in (20_memory.md R53): WWORD and RWORD complete. -/
def Obligations.WordsAreByteZeroFirst : Prop :=
  (∀ (s : State) (v : Word), ∃ t, exec (.wword v) s = .next t ∧ t.looks = s.looks ∧
    LineOperation s t
      ((List.range 8).flatMap fun j => (List.range 8).map fun k => .w (v.getLsbD (8 * j + k))) 0#64) ∧
  (∀ s : State, ∃ (t : State) (r : Word), exec .rword s = .next t ∧
    LineOperation s t
      ((List.range 8).flatMap fun j => (List.range 8).map fun k => .r (r.getLsbD (8 * j + k))) r)

/-- SELECT and SKIP complete: the Match-ROM byte and the address, the Skip-ROM byte; neither has a reset slot, neither reads or
writes the search state (42_device_protocol.md R160, R161, R163). -/
def Obligations.SelectAndSkipSendTheirBytes : Prop :=
  (∀ (s : State) (a : Word), ∃ t, exec (.select a) s = .next t ∧ t.looks = s.looks ∧
    LineOperation s t (((bitsOf 0x55#8) ++ (bitsOf a)).map .w) 0#64) ∧
  (∀ s : State, ∃ t, exec .skip s = .next t ∧ t.looks = s.looks ∧
    LineOperation s t ((bitsOf 0xCC#8).map .w) 0#64)

/-- How the three ROM command bytes appear on the line (30_encoding.md R97). -/
def Obligations.RomCommandBytesOnTheLine : Prop :=
  (∀ (s : State) (a : Word), ∃ t more, exec (.select a) s = .next t ∧ t.events = s.events ++
    [.w true, .w false, .w true, .w false, .w true, .w false, .w true, .w false] ++ more) ∧
  (∀ s : State, ∃ t, exec .skip s = .next t ∧ t.events = s.events ++
    [.w false, .w false, .w true, .w true, .w false, .w false, .w true, .w true]) ∧
  (∀ s : State, s.ldf = false → ∃ t o, exec .search s = .next t ∧
    (presence o = false → t.events = s.events ++ [.rst o]) ∧
    (presence o = true → ∃ more, t.events = s.events ++ [.rst o] ++
      [.w false, .w false, .w false, .w false, .w true, .w true, .w true, .w true] ++ more))

/-- The line has one order whatever the width of the operation: WWORD is the same write slots as eight WBYTEs and as sixty-four
WBITs, and, against an environment that answers slots, RWORD returns what eight RBYTEs return (20_memory.md R54). -/
def Obligations.WidthsShareOneOrder : Prop :=
  ∀ (s : State) (v : Word),
    (∃ t u x, exec (.wword v) s = .next t ∧
      execAll ((List.range 8).map fun j => .wbyte (v.extractLsb' (8 * j) 8)) s = some u ∧
      execAll ((List.range 64).map fun n => .wbit (v.getLsbD n)) s = some x ∧
      u.events = t.events ∧ x.events = t.events ∧ u.env = t.env ∧ x.env = t.env) ∧
    (s.env.slotLevel = true → ∃ (t u : State) (r : Word), exec .rword s = .next t ∧ OneBeat s t r ∧
      execAll (List.replicate 8 .rbyte) s = some u ∧ u.events = t.events ∧ u.env = t.env ∧
      u.rsp.map Beat.data = s.rsp.map Beat.data ++ (List.range 8).map fun j => (r.extractLsb' (8 * j) 8).setWidth 64)

/-- Against the loopback environment with an empty queue, what is written is what is read: a word, a byte, a bit
(41_framing.md R146, which the spec derives from R141 and R143). -/
def Obligations.LoopbackRoundTrip : Prop :=
  ∀ s : State, s.env = .loop [] →
    (∀ v : Word, ∃ t, execAll [.wword v, .rword] s = some t ∧
      t.rsp.map Beat.data = s.rsp.map Beat.data ++ [0#64, v] ∧ t.env = .loop []) ∧
    (∀ v : Byte, ∃ t, execAll [.wbyte v, .rbyte] s = some t ∧
      t.rsp.map Beat.data = s.rsp.map Beat.data ++ [0#64, v.setWidth 64] ∧ t.env = .loop []) ∧
    (∀ b : Bool, ∃ t, execAll [.wbit b, .rbit] s = some t ∧
      t.rsp.map Beat.data = s.rsp.map Beat.data ++ [0#64, if b then 1#64 else 0#64] ∧ t.env = .loop [])

/-- Against `Dev(S)`, RESET then SELECT of the code of a device leaves exactly that device selected and every other idle, and RESET
then SKIP leaves all selected (42_device_protocol.md R160, R161; 20_memory.md R64 to R66). -/
def Obligations.AddressingReachesTheDevices : Prop :=
  ∀ (s : State) (ds : List Device), s.env = .dev ds →
    (∀ a : Word, ∃ t, execAll [.reset, .select a] s = some t ∧
      t.env = .dev (ds.map fun d => ⟨d.rom, if d.rom = a then .sel else .idle⟩)) ∧
    (∃ t, execAll [.reset, .skip] s = some t ∧ t.env = .dev (ds.map fun d => ⟨d.rom, .sel⟩))

/-! ### The search state and its writers -/

/-- Only hardware reset, SRST, SEARCH and ENUM write the search state, and the other nine operations do not read it either
(10_state.md R26). -/
def Obligations.WritersOfTheSearchState : Prop :=
  (∀ (i : Instr) (s : State), writesSearchState i = false → ∃ t, exec i s = .next t ∧ SearchStateKept s t ∧
    ∀ (l : BitVec 7) (f : Bool) (a : Word),
      exec i { s with ld := l, ldf := f, addr := a } = .next { t with ld := l, ldf := f, addr := a }) ∧
  (∀ s t : State, step s = .next t → ¬ SearchStateKept s t →
    s.rst = true ∨ t.rst = true ∨ s.busy = true ∨
      ∃ w rest i, Taking s w rest ∧ decode w = .instr i ∧ writesSearchState i = true)

/-- The values the transient registers hold when an operation starts do not matter to it, nor to a round of ENUM's loop
(10_state.md R28). -/
def Obligations.TransientRegistersDoNotMatter : Prop :=
  (∀ (i : Instr) (s : State) (x : Transient), exec i { s with tr := x } = exec i s) ∧
  (∀ (s : State) (x : Transient), State.enumRound { s with tr := x } = s.enumRound)

/-- SRST clears the three registers and does nothing on the line; doing it twice gives the same search state
(43_search.md R170). -/
def Obligations.SrstClearsTheSearchState : Prop :=
  ∀ s : State, ∃ t u, exec .srst s = .next t ∧ SearchStateEmpty t ∧
    t.bus = s.bus ∧ t.trace = s.trace ∧ t.looks = s.looks ∧ t.now = s.now ∧ t.env = s.env ∧ t.diags = s.diags ∧
    OneBeat s t 0#64 ∧ InputsKept s t ∧ t.busy = false ∧ t.owDriveLow = s.owDriveLow ∧ t.crit = s.crit ∧
    exec .srst t = .next u ∧ SearchStateEmpty u

/-- SEARCH with the flag set returns 0 at once: nothing on the line, no register changed; and no operation but SRST and ENUM clears
the flag (43_search.md R173). -/
def Obligations.SearchAfterTheLastDevice : Prop :=
  ∀ s : State, s.ldf = true →
    (∃ t, exec .search s = .next t ∧ SearchStateKept s t ∧ t.bus = s.bus ∧ t.trace = s.trace ∧ t.looks = s.looks ∧
      t.now = s.now ∧ t.env = s.env ∧ t.diags = s.diags ∧ t.rsp = s.rsp ++ [⟨s.now, 0#64, true⟩] ∧ InputsKept s t ∧
      t.busy = false) ∧
    (∀ i : Instr, i ≠ .srst → i ≠ .enum → ∃ t, exec i s = .next t ∧ t.ldf = true)

/-- SEARCH begins with a reset slot; if no device is present the search state is cleared and the result is 0, and otherwise the
search goes on with the Search-ROM byte (43_search.md R174). -/
def Obligations.SearchNeedsPresence : Prop :=
  ∀ s : State, s.ldf = false → ∃ t o more, exec .search s = .next t ∧ t.events = s.events ++ .rst o :: more ∧
    t.diags.map Diag.code = s.diags.map Diag.code ++ diagnostics o ∧
    (presence o = false → more = [] ∧ SearchStateEmpty t ∧ OneBeat s t 0#64) ∧
    (presence o = true → ∃ rest, more = (bitsOf 0xF0#8).map .w ++ rest ∧ rest ≠ [])

/-- What SEARCH returns: an address whose byte 0 is not zero, or 0; on 0 the search state is as it was if the flag was set, with no
bus event, and empty otherwise, with at least one (43_search.md R172, R186, R187). -/
def Obligations.SearchResult : Prop :=
  ∀ s : State, ∃ t a, exec .search s = .next t ∧ OneBeat s t a ∧ InputsKept s t ∧ t.busy = false ∧
    ((a ≠ 0#64 ∧ lowByte a ≠ 0#8 ∧ s.ldf = false ∧ t.addr = a ∧ t.ldf = (t.ld == 0#7)) ∨
     (a = 0#64 ∧ s.ldf = true ∧ SearchStateKept s t ∧ t.events = s.events) ∨
     (a = 0#64 ∧ s.ldf = false ∧ SearchStateEmpty t ∧ s.events.length < t.events.length))

/-- How many bus events a pass has (43_search.md R189): none with the flag set; one with no device; `1 + 8 + 3(q-1) + 2` where it
aborts at position `q`, and then it ends in a pair `(1, 1)`; 201 where it is complete. -/
def Obligations.SearchBusEvents : Prop :=
  ∀ s : State, ∃ t new, exec .search s = .next t ∧ t.events = s.events ++ new ∧
    (s.ldf = true → new = []) ∧
    (s.ldf = false →
      (∃ o, presence o = false ∧ new = [.rst o]) ∨
      (∃ q front, 1 ≤ q ∧ q ≤ 64 ∧ new = front ++ [.r true, .r true] ∧ new.length = 1 + 8 + 3 * (q - 1) + 2 ∧
        SearchStateEmpty t) ∨
      new.length = 201)

/-- ENUM starts from an empty search state whatever it held, and each round of its loop gives the beat of an address and stays busy,
or gives the closing beat and ends (43_search.md R190, R191; 30_encoding.md R94; that a round is a step, and that its beat
comes at the instant the round ends, are the model's choices, log 9 and log 7). -/
def Obligations.EnumGoesRoundByRound : Prop :=
  (∀ s : State, ∃ t, exec .enum s = .next t ∧ InputsKept s t ∧
    ((∃ a, a ≠ 0#64 ∧ lowByte a ≠ 0#8 ∧ t.rsp = s.rsp ++ [⟨t.now, a, false⟩] ∧ t.addr = a ∧ t.busy = true) ∨
     (t.rsp = s.rsp ++ [⟨t.now, 0#64, true⟩] ∧ t.busy = false ∧ SearchStateEmpty t))) ∧
  (∀ (s : State) (l : BitVec 7) (f : Bool) (a : Word),
    exec .enum { s with ld := l, ldf := f, addr := a } = exec .enum s) ∧
  (∀ s : State, LaterRound s → ∃ t, step s = .next t ∧ InputsKept s t ∧
    ((∃ a, a ≠ 0#64 ∧ lowByte a ≠ 0#8 ∧ t.rsp = s.rsp ++ [⟨t.now, a, false⟩] ∧ t.addr = a ∧ t.busy = true) ∨
     (t.rsp = s.rsp ++ [⟨t.now, 0#64, true⟩] ∧ t.busy = false ∧ (SearchStateKept s t ∨ SearchStateEmpty t))))

/-- ENUM need not end (43_search.md R196): there is an environment, such as that of 95_test_vectors.md V57, against which every
round finds an address (that a round is a step, so that each step gives one beat more, is the model's choice, log 9; that a script
is an environment is log 14). -/
def Obligations.EnumNeedNotEnd : Prop :=
  ∃ s t, s.timing.legal = true ∧ s.env.slotLevel = true ∧ exec .enum s = .next t ∧
    ∀ n, ∃ u, stepAll n t = some u ∧ u.busy = true ∧ u.rsp.length = s.rsp.length + n + 1

/-- On a line of devices that does not change, ENUM gives their codes in ascending order, bit 0 compared first, each exactly once,
up to the first whose byte 0 is zero, and then the closing beat; it ends after at most one pass more than there are devices; and
it leaves the state of 43_search.md R190 behind (R192, R193, R196; that the first pass is `exec` and each further pass a step is the
model's choice, log 9). -/
def Obligations.EnumerationIsCompleteAndOrdered : Prop :=
  ∀ (roms : List Word) (s : State), roms.Nodup → devicesOf roms s.env → NoResetAhead s → s.rst = false →
    ∃ (found : List Word) (n : Nat) (t u : State), found.Perm roms ∧ found.Pairwise BitFirstLess ∧ n ≤ roms.length ∧
      exec .enum s = .next t ∧ stepAll n t = some u ∧ u.busy = false ∧
      u.rsp.map (fun b => (b.data, b.last)) = s.rsp.map (fun b => (b.data, b.last)) ++
        (found.takeWhile fun a => lowByte a != 0#8).map (fun a => (a, false)) ++ [(0#64, true)] ∧
      (roms ≠ [] → (∀ a ∈ roms, lowByte a ≠ 0#8) → u.ld = 0#7 ∧ u.ldf = true ∧ some u.addr = found.getLast?) ∧
      (roms = [] ∨ (∃ a ∈ roms, lowByte a = 0#8) → SearchStateEmpty u)

/-- On such a line, with byte 0 of every code not zero, SEARCH after SRST returns the codes one by one in the same order, and the
SEARCH after the last returns 0 with no bus event (43_search.md R192). -/
def Obligations.SuccessiveSearchesFindEveryDevice : Prop :=
  ∀ (roms : List Word) (s : State), roms ≠ [] → roms.Nodup → (∀ a ∈ roms, lowByte a ≠ 0#8) → devicesOf roms s.env →
    ∃ (found : List Word) (t u : State), found.Perm roms ∧ found.Pairwise BitFirstLess ∧
      execAll (.srst :: List.replicate roms.length .search) s = some t ∧
      t.rsp.map Beat.data = s.rsp.map Beat.data ++ 0#64 :: found ∧
      exec .search t = .next u ∧ OneBeat t u 0#64 ∧ u.bus = t.bus ∧ u.trace = t.trace

/-! ### All operations -/

/-- The machine, microsecond by microsecond, does what the slot level says, whatever the timing: the same bus events, diagnostics,
beats, search state and environment (00_scope.md R10; 70_reset_and_hazards.md R254). Of ENUM, `exec` and `SlotLevel.run` are the
first round of the loop; each later round is a step, and the same holds of it (that is the model's choice, log 9). -/
def Obligations.WaveformLevelRefinesSlotLevel : Prop :=
  (∀ (i : Instr) (s : State), s.env.slotLevel = true →
    ∃ t, exec i s = .next t ∧ t.view = SlotLevel.run i s.view ∧ t.env.slotLevel = true) ∧
  (∀ s : State, s.env.slotLevel = true → LaterRound s →
    ∃ t, step s = .next t ∧ t.view = View.enumRound s.view ∧ t.env.slotLevel = true)

/-- Every operation but ENUM gives exactly one beat, with `last`, and leaves the block idle; no operation gives more than one
diagnostic, of ENUM no round does (10_state.md R36; 60_exceptions.md R220; that `exec` of ENUM is its first round, and so gives at
most one, is the model's choice, log 9, and that the beat comes at the instant the operation ends is too, log 7). -/
def Obligations.OneBeatAnOperation : Prop :=
  ∀ (i : Instr) (s : State), ∃ t, exec i s = .next t ∧ InputsKept s t ∧
    t.diags.length ≤ s.diags.length + 1 ∧ s.diags <+: t.diags ∧
    (i ≠ .enum → t.busy = false ∧ ∃ data, t.rsp = s.rsp ++ [⟨t.now, data, true⟩])

/-- Only SRST, and SEARCH with the flag set, touch no slave: they add no bus event and leave the environment as it is; every other
operation adds at least one (20_memory.md R59). -/
def Obligations.OnlySrstAndDoneSearchTouchNoSlave : Prop :=
  ∀ (i : Instr) (s : State), ∃ t, exec i s = .next t ∧
    (if i = .srst ∨ (i = .search ∧ s.ldf = true) then t.bus = s.bus ∧ t.env = s.env
     else s.bus.length < t.bus.length)

/-- The slots of an operation: the first starts when the operation does, each later one starts `T_GAP` after the one before it has
ended, and the last ends when the operation does; and so in a later round of ENUM's loop, whose first slot comes `T_GAP` after the
last slot of the round before (40_signal_primitives.md R135; 20_memory.md R61; 30_encoding.md R93; that the beat comes at once is the
model's choice, log 7, that a round is a step is too, log 9, and that the gap comes between two passes of ENUM is its reading,
log 10). -/
def Obligations.SlotsFollowEachOther : Prop :=
  (∀ (i : Instr) (s : State), s.timing.legal = true → ∃ t new, exec i s = .next t ∧ SlotsFollow s t s.now new) ∧
  (∀ s : State, Inv s → LaterRound s → ∃ t new before, step s = .next t ∧ s.bus.getLast? = some before ∧
    SlotsFollow s t (before.stop + s.timing.tGap) new)

/-- Each slot of each operation, and of each later round of ENUM's loop, is the slot of its kind, whether it is an operation of its
own or part of a composite: the same edges, the same sample, the same critical section (40_signal_primitives.md R136, with R111 to
R118, R121, R123, R129 to R132; which instants of the waits count as looks is the model's reading, log 23, the waveform behind
the answer of a slot-level environment its choice, log 13, and that a round of ENUM is a step too, log 9). -/
def Obligations.EverySlotHasItsWaveform : Prop :=
  (∀ (i : Instr) (s : State), s.timing.legal = true → HistoryOrdered s →
    ∃ t new, exec i s = .next t ∧ t.bus = s.bus ++ new ∧ ∀ sl ∈ new, SlotAsSpecified s t sl) ∧
  (∀ s : State, Inv s → LaterRound s →
    ∃ t new, step s = .next t ∧ t.bus = s.bus ++ new ∧ ∀ sl ∈ new, SlotAsSpecified s t sl)

/-- Outside the slots, between them and between operations, the line is released and `crit` is 0, also in the later rounds of ENUM's
loop (10_state.md R33; 40_signal_primitives.md R135; that a round of ENUM is a step is the model's choice, log 9). -/
def Obligations.OutputsAreLowOutsideSlots : Prop :=
  (∀ (i : Instr) (s : State), s.timing.legal = true → HistoryOrdered s → ∃ t, exec i s = .next t ∧ LowOutsideSlots s t) ∧
  (∀ s : State, Inv s → LaterRound s → ∃ t, step s = .next t ∧ LowOutsideSlots s t)

/-- How long each operation takes (70_reset_and_hazards.md R255, its rows but ENUM's). -/
def Obligations.DurationOfEachOperation : Prop :=
  ∀ s : State, s.timing.legal = true →
    let w := s.timing.tWSlot
    let g := s.timing.tGap
    (∃ t, exec .reset s = .next t ∧ t.now = s.now + 960) ∧
    (∀ b, ∃ t, exec (.wbit b) s = .next t ∧ t.now = s.now + w) ∧
    (∃ t, exec .rbit s = .next t ∧ t.now = s.now + 60) ∧
    (∀ v, ∃ t, exec (.wbyte v) s = .next t ∧ t.now = s.now + 8 * w + 7 * g) ∧
    (∃ t, exec .rbyte s = .next t ∧ t.now = s.now + 8 * 60 + 7 * g) ∧
    (∀ v, ∃ t, exec (.wword v) s = .next t ∧ t.now = s.now + 64 * w + 63 * g) ∧
    (∃ t, exec .rword s = .next t ∧ t.now = s.now + 64 * 60 + 63 * g) ∧
    (∀ a, ∃ t, exec (.select a) s = .next t ∧ t.now = s.now + 72 * w + 71 * g) ∧
    (∃ t, exec .skip s = .next t ∧ t.now = s.now + 8 * w + 7 * g) ∧
    (∃ t, exec .srst s = .next t ∧ t.now = s.now) ∧
    (∃ t, exec .search s = .next t ∧
      (s.ldf = true → t.now = s.now) ∧
      (s.ldf = false →
        (t.events.length = s.events.length + 1 ∧ t.now = s.now + 960) ∨
        (t.events.length = s.events.length + 201 ∧ t.now = s.now + 960 + 72 * w + 128 * 60 + 200 * g) ∨
        (∃ q, 1 ≤ q ∧ q ≤ 64 ∧ t.events.length = s.events.length + 1 + 8 + 3 * (q - 1) + 2 ∧
          t.now = s.now + 960 + (7 + q) * w + 2 * q * 60 + (7 + 3 * q) * g)))

/-! ### Every step -/

/-- The state after reset meets the invariant. -/
def Obligations.ResetMeetsTheInvariant : Prop := Inv State.reset

/-- Every step keeps the invariant: legal parameters, the line released between steps, a legal search state
(10_state.md R22 to R25; 43_search.md R183 to R186), slots in one total order in the past (20_memory.md R61), registers at their reset
values while `rst = 1` (10_state.md R38; 70_reset_and_hazards.md R242), and a busy block between two rounds of ENUM (log 9). -/
def Obligations.StepKeepsTheInvariant : Prop :=
  ∀ s t : State, Inv s → step s = .next t → Inv t

/-- Time never runs backwards, the build-time parameters and the `rst` input are never written, and what has been given on an output
is never taken back (10_state.md R34, R36, R37; 00_scope.md R11, R16; 20_memory.md R61). That beats, diagnostics, slots, output levels
and looks are recorded in lists that only grow is the model's choice, log 15; that beats and diagnostics already given stay given where
reset abandons the operation, those of earlier rounds of an abandoned ENUM too, is its reading of 70_reset_and_hazards.md R241,
log 11. -/
def Obligations.StepOnlyAddsToTheHistory : Prop :=
  ∀ s t : State, step s = .next t →
    s.now ≤ t.now ∧ t.timing = s.timing ∧ t.rstEdges = s.rstEdges ∧
    s.bus <+: t.bus ∧ s.rsp <+: t.rsp ∧ s.diags <+: t.diags ∧ s.trace <+: t.trace ∧ s.looks <+: t.looks

/-! ### The idle block, the diagnostic channel, the devices on the line -/

/-- An idle block to which nothing is offered does nothing: a microsecond passes and nothing else changes, no slot, no output, no
register, no beat, no diagnostic; if `rst` has risen in that microsecond the registers are at their reset values, and nothing else
has changed but the transient registers (60_exceptions.md R229; 10_state.md R33, R38; that the step takes a microsecond is the
model's choice, log 16). -/
def Obligations.IdleStepOnlyLetsTimePass : Prop :=
  ∀ s : State, Inv s → s.rst = false → s.busy = false → s.offered = none →
    (levelAt s.rstEdges (s.now + 1) = false → step s = .next { s with now := s.now + 1 }) ∧
    (levelAt s.rstEdges (s.now + 1) = true → ∃ u, step s = .next u ∧ u.now = s.now + 1 ∧ u.rst = true ∧ RegistersAtReset u ∧
      u.bus = s.bus ∧ u.trace = s.trace ∧ u.looks = s.looks ∧ u.rsp = s.rsp ∧ u.diags = s.diags ∧ u.env = s.env ∧
      InputsKept s u)

/-- The diagnostic channel (60_exceptions.md R211): the codes are 0 `NOFLOAT`, 1 `NOPRES`, 2 `NOREL`, 3 `ILLEGAL_CMD`, one beat each;
and what is on the channel has no effect on anything else. -/
def Obligations.DiagnosticCodesOnTheChannel : Prop :=
  (∀ s : State, ∃ t o, exec .reset s = .next t ∧ t.events = s.events ++ [.rst o] ∧
    t.diagCodes = s.diagCodes ++
      match o with
      | .noFloat => [0#2]
      | .noPres => [1#2]
      | .pres => []
      | .presNoRel => [2#2]) ∧
  (∀ (s : State) (w : CmdWord) (rest : List Offer) (why : Illegal), Taking s w rest → decode w = .illegal why →
    ∃ t, step s = .next t ∧ t.diagCodes = s.diagCodes ++ [3#2]) ∧
  (∀ (i : Instr) (s : State) (d : List Diag), ∃ t new, exec i s = .next t ∧ t.diags = s.diags ++ new ∧
    exec i { s with diags := d } = .next { t with diags := d ++ new })

/-- Which devices are on the line of `Dev(S)` does not change, whatever the step: not even where hardware reset cuts a slot and
leaves the devices in any mode (20_memory.md R64; 70_reset_and_hazards.md R241; log 11). -/
def Obligations.DevicesStayOnTheLine : Prop :=
  ∀ (roms : List Word) (s t : State), devicesOf roms s.env → step s = .next t → devicesOf roms t.env
end

