-- ==== Sys2Proof/Laws/State.lean ====
section
/-!
SUPPORT. One lemma a field an update, each true by definition, so that no later proof unfolds a record update.
-/

namespace Sys2Proof.Machine

@[simp] theorem State.setDrive_ld (v : Bool) (s : State) : (s.setDrive v).ld = s.ld := rfl
@[simp] theorem State.setDrive_ldf (v : Bool) (s : State) : (s.setDrive v).ldf = s.ldf := rfl
@[simp] theorem State.setDrive_addr (v : Bool) (s : State) : (s.setDrive v).addr = s.addr := rfl
@[simp] theorem State.setDrive_busy (v : Bool) (s : State) : (s.setDrive v).busy = s.busy := rfl
@[simp] theorem State.setDrive_tr (v : Bool) (s : State) : (s.setDrive v).tr = s.tr := rfl
@[simp] theorem State.setDrive_owDriveLow (v : Bool) (s : State) : (s.setDrive v).owDriveLow = v := rfl
@[simp] theorem State.setDrive_crit (v : Bool) (s : State) : (s.setDrive v).crit = s.crit := rfl
@[simp] theorem State.setDrive_now (v : Bool) (s : State) : (s.setDrive v).now = s.now := rfl
@[simp] theorem State.setDrive_inOp (v : Bool) (s : State) : (s.setDrive v).inOp = s.inOp := rfl
@[simp] theorem State.setDrive_timing (v : Bool) (s : State) : (s.setDrive v).timing = s.timing := rfl
@[simp] theorem State.setDrive_env (v : Bool) (s : State) : (s.setDrive v).env = s.env := rfl
@[simp] theorem State.setDrive_rstEdges (v : Bool) (s : State) : (s.setDrive v).rstEdges = s.rstEdges := rfl
@[simp] theorem State.setDrive_offers (v : Bool) (s : State) : (s.setDrive v).offers = s.offers := rfl
@[simp] theorem State.setDrive_rsp (v : Bool) (s : State) : (s.setDrive v).rsp = s.rsp := rfl
@[simp] theorem State.setDrive_diags (v : Bool) (s : State) : (s.setDrive v).diags = s.diags := rfl
@[simp] theorem State.setDrive_bus (v : Bool) (s : State) : (s.setDrive v).bus = s.bus := rfl
@[simp] theorem State.setDrive_trace (v : Bool) (s : State) : (s.setDrive v).trace = s.trace := rfl
@[simp] theorem State.setDrive_looks (v : Bool) (s : State) : (s.setDrive v).looks = s.looks := rfl
@[simp] theorem State.setDrive_draws (v : Bool) (s : State) : (s.setDrive v).draws = s.draws := rfl

@[simp] theorem State.setCrit_ld (v : Bool) (s : State) : (s.setCrit v).ld = s.ld := rfl
@[simp] theorem State.setCrit_ldf (v : Bool) (s : State) : (s.setCrit v).ldf = s.ldf := rfl
@[simp] theorem State.setCrit_addr (v : Bool) (s : State) : (s.setCrit v).addr = s.addr := rfl
@[simp] theorem State.setCrit_busy (v : Bool) (s : State) : (s.setCrit v).busy = s.busy := rfl
@[simp] theorem State.setCrit_tr (v : Bool) (s : State) : (s.setCrit v).tr = s.tr := rfl
@[simp] theorem State.setCrit_owDriveLow (v : Bool) (s : State) : (s.setCrit v).owDriveLow = s.owDriveLow := rfl
@[simp] theorem State.setCrit_crit (v : Bool) (s : State) : (s.setCrit v).crit = v := rfl
@[simp] theorem State.setCrit_now (v : Bool) (s : State) : (s.setCrit v).now = s.now := rfl
@[simp] theorem State.setCrit_inOp (v : Bool) (s : State) : (s.setCrit v).inOp = s.inOp := rfl
@[simp] theorem State.setCrit_timing (v : Bool) (s : State) : (s.setCrit v).timing = s.timing := rfl
@[simp] theorem State.setCrit_env (v : Bool) (s : State) : (s.setCrit v).env = s.env := rfl
@[simp] theorem State.setCrit_rstEdges (v : Bool) (s : State) : (s.setCrit v).rstEdges = s.rstEdges := rfl
@[simp] theorem State.setCrit_offers (v : Bool) (s : State) : (s.setCrit v).offers = s.offers := rfl
@[simp] theorem State.setCrit_rsp (v : Bool) (s : State) : (s.setCrit v).rsp = s.rsp := rfl
@[simp] theorem State.setCrit_diags (v : Bool) (s : State) : (s.setCrit v).diags = s.diags := rfl
@[simp] theorem State.setCrit_bus (v : Bool) (s : State) : (s.setCrit v).bus = s.bus := rfl
@[simp] theorem State.setCrit_trace (v : Bool) (s : State) : (s.setCrit v).trace = s.trace := rfl
@[simp] theorem State.setCrit_looks (v : Bool) (s : State) : (s.setCrit v).looks = s.looks := rfl
@[simp] theorem State.setCrit_draws (v : Bool) (s : State) : (s.setCrit v).draws = s.draws := rfl

@[simp] theorem State.advance_ld (d : Nat) (s : State) : (s.advance d).ld = s.ld := rfl
@[simp] theorem State.advance_ldf (d : Nat) (s : State) : (s.advance d).ldf = s.ldf := rfl
@[simp] theorem State.advance_addr (d : Nat) (s : State) : (s.advance d).addr = s.addr := rfl
@[simp] theorem State.advance_busy (d : Nat) (s : State) : (s.advance d).busy = s.busy := rfl
@[simp] theorem State.advance_tr (d : Nat) (s : State) : (s.advance d).tr = s.tr := rfl
@[simp] theorem State.advance_owDriveLow (d : Nat) (s : State) : (s.advance d).owDriveLow = s.owDriveLow := rfl
@[simp] theorem State.advance_crit (d : Nat) (s : State) : (s.advance d).crit = s.crit := rfl
@[simp] theorem State.advance_now (d : Nat) (s : State) : (s.advance d).now = s.now + d := rfl
@[simp] theorem State.advance_inOp (d : Nat) (s : State) : (s.advance d).inOp = s.inOp := rfl
@[simp] theorem State.advance_timing (d : Nat) (s : State) : (s.advance d).timing = s.timing := rfl
@[simp] theorem State.advance_env (d : Nat) (s : State) : (s.advance d).env = s.env := rfl
@[simp] theorem State.advance_rstEdges (d : Nat) (s : State) : (s.advance d).rstEdges = s.rstEdges := rfl
@[simp] theorem State.advance_offers (d : Nat) (s : State) : (s.advance d).offers = s.offers := rfl
@[simp] theorem State.advance_rsp (d : Nat) (s : State) : (s.advance d).rsp = s.rsp := rfl
@[simp] theorem State.advance_diags (d : Nat) (s : State) : (s.advance d).diags = s.diags := rfl
@[simp] theorem State.advance_bus (d : Nat) (s : State) : (s.advance d).bus = s.bus := rfl
@[simp] theorem State.advance_looks (d : Nat) (s : State) : (s.advance d).looks = s.looks := rfl
@[simp] theorem State.advance_draws (d : Nat) (s : State) : (s.advance d).draws = s.draws := rfl

@[simp] theorem State.markRef_ld (s : State) : s.markRef.ld = s.ld := rfl
@[simp] theorem State.markRef_ldf (s : State) : s.markRef.ldf = s.ldf := rfl
@[simp] theorem State.markRef_addr (s : State) : s.markRef.addr = s.addr := rfl
@[simp] theorem State.markRef_busy (s : State) : s.markRef.busy = s.busy := rfl
@[simp] theorem State.markRef_tr (s : State) : s.markRef.tr = { s.tr with tRef := s.now } := rfl
@[simp] theorem State.markRef_owDriveLow (s : State) : s.markRef.owDriveLow = s.owDriveLow := rfl
@[simp] theorem State.markRef_crit (s : State) : s.markRef.crit = s.crit := rfl
@[simp] theorem State.markRef_now (s : State) : s.markRef.now = s.now := rfl
@[simp] theorem State.markRef_inOp (s : State) : s.markRef.inOp = s.inOp := rfl
@[simp] theorem State.markRef_timing (s : State) : s.markRef.timing = s.timing := rfl
@[simp] theorem State.markRef_env (s : State) : s.markRef.env = s.env := rfl
@[simp] theorem State.markRef_rstEdges (s : State) : s.markRef.rstEdges = s.rstEdges := rfl
@[simp] theorem State.markRef_offers (s : State) : s.markRef.offers = s.offers := rfl
@[simp] theorem State.markRef_rsp (s : State) : s.markRef.rsp = s.rsp := rfl
@[simp] theorem State.markRef_diags (s : State) : s.markRef.diags = s.diags := rfl
@[simp] theorem State.markRef_bus (s : State) : s.markRef.bus = s.bus := rfl
@[simp] theorem State.markRef_trace (s : State) : s.markRef.trace = s.trace := rfl
@[simp] theorem State.markRef_looks (s : State) : s.markRef.looks = s.looks := rfl
@[simp] theorem State.markRef_draws (s : State) : s.markRef.draws = s.draws := rfl

@[simp] theorem State.look_ld (a b : Nat) (s : State) : (s.look a b).ld = s.ld := rfl
@[simp] theorem State.look_ldf (a b : Nat) (s : State) : (s.look a b).ldf = s.ldf := rfl
@[simp] theorem State.look_addr (a b : Nat) (s : State) : (s.look a b).addr = s.addr := rfl
@[simp] theorem State.look_busy (a b : Nat) (s : State) : (s.look a b).busy = s.busy := rfl
@[simp] theorem State.look_tr (a b : Nat) (s : State) : (s.look a b).tr = s.tr := rfl
@[simp] theorem State.look_owDriveLow (a b : Nat) (s : State) : (s.look a b).owDriveLow = s.owDriveLow := rfl
@[simp] theorem State.look_crit (a b : Nat) (s : State) : (s.look a b).crit = s.crit := rfl
@[simp] theorem State.look_now (a b : Nat) (s : State) : (s.look a b).now = s.now := rfl
@[simp] theorem State.look_inOp (a b : Nat) (s : State) : (s.look a b).inOp = s.inOp := rfl
@[simp] theorem State.look_timing (a b : Nat) (s : State) : (s.look a b).timing = s.timing := rfl
@[simp] theorem State.look_env (a b : Nat) (s : State) : (s.look a b).env = s.env := rfl
@[simp] theorem State.look_rstEdges (a b : Nat) (s : State) : (s.look a b).rstEdges = s.rstEdges := rfl
@[simp] theorem State.look_offers (a b : Nat) (s : State) : (s.look a b).offers = s.offers := rfl
@[simp] theorem State.look_rsp (a b : Nat) (s : State) : (s.look a b).rsp = s.rsp := rfl
@[simp] theorem State.look_diags (a b : Nat) (s : State) : (s.look a b).diags = s.diags := rfl
@[simp] theorem State.look_bus (a b : Nat) (s : State) : (s.look a b).bus = s.bus := rfl
@[simp] theorem State.look_trace (a b : Nat) (s : State) : (s.look a b).trace = s.trace := rfl
@[simp] theorem State.look_looks (a b : Nat) (s : State) : (s.look a b).looks = s.looks ++ [⟨a, b⟩] := rfl
@[simp] theorem State.look_draws (a b : Nat) (s : State) : (s.look a b).draws = s.draws := rfl

@[simp] theorem State.diag_ld (c : DiagCode) (s : State) : (s.diag c).ld = s.ld := rfl
@[simp] theorem State.diag_ldf (c : DiagCode) (s : State) : (s.diag c).ldf = s.ldf := rfl
@[simp] theorem State.diag_addr (c : DiagCode) (s : State) : (s.diag c).addr = s.addr := rfl
@[simp] theorem State.diag_busy (c : DiagCode) (s : State) : (s.diag c).busy = s.busy := rfl
@[simp] theorem State.diag_tr (c : DiagCode) (s : State) : (s.diag c).tr = s.tr := rfl
@[simp] theorem State.diag_owDriveLow (c : DiagCode) (s : State) : (s.diag c).owDriveLow = s.owDriveLow := rfl
@[simp] theorem State.diag_crit (c : DiagCode) (s : State) : (s.diag c).crit = s.crit := rfl
@[simp] theorem State.diag_now (c : DiagCode) (s : State) : (s.diag c).now = s.now := rfl
@[simp] theorem State.diag_inOp (c : DiagCode) (s : State) : (s.diag c).inOp = s.inOp := rfl
@[simp] theorem State.diag_timing (c : DiagCode) (s : State) : (s.diag c).timing = s.timing := rfl
@[simp] theorem State.diag_env (c : DiagCode) (s : State) : (s.diag c).env = s.env := rfl
@[simp] theorem State.diag_rstEdges (c : DiagCode) (s : State) : (s.diag c).rstEdges = s.rstEdges := rfl
@[simp] theorem State.diag_offers (c : DiagCode) (s : State) : (s.diag c).offers = s.offers := rfl
@[simp] theorem State.diag_rsp (c : DiagCode) (s : State) : (s.diag c).rsp = s.rsp := rfl
@[simp] theorem State.diag_diags (c : DiagCode) (s : State) : (s.diag c).diags = s.diags ++ [⟨s.now, c⟩] := rfl
@[simp] theorem State.diag_bus (c : DiagCode) (s : State) : (s.diag c).bus = s.bus := rfl
@[simp] theorem State.diag_trace (c : DiagCode) (s : State) : (s.diag c).trace = s.trace := rfl
@[simp] theorem State.diag_looks (c : DiagCode) (s : State) : (s.diag c).looks = s.looks := rfl
@[simp] theorem State.diag_draws (c : DiagCode) (s : State) : (s.diag c).draws = s.draws := rfl

@[simp] theorem State.respond_ld (v : Word) (l : Bool) (s : State) : (s.respond v l).ld = s.ld := rfl
@[simp] theorem State.respond_ldf (v : Word) (l : Bool) (s : State) : (s.respond v l).ldf = s.ldf := rfl
@[simp] theorem State.respond_addr (v : Word) (l : Bool) (s : State) : (s.respond v l).addr = s.addr := rfl
@[simp] theorem State.respond_busy (v : Word) (l : Bool) (s : State) : (s.respond v l).busy = s.busy := rfl
@[simp] theorem State.respond_tr (v : Word) (l : Bool) (s : State) : (s.respond v l).tr = s.tr := rfl
@[simp] theorem State.respond_owDriveLow (v : Word) (l : Bool) (s : State) : (s.respond v l).owDriveLow = s.owDriveLow := rfl
@[simp] theorem State.respond_crit (v : Word) (l : Bool) (s : State) : (s.respond v l).crit = s.crit := rfl
@[simp] theorem State.respond_now (v : Word) (l : Bool) (s : State) : (s.respond v l).now = s.now := rfl
@[simp] theorem State.respond_inOp (v : Word) (l : Bool) (s : State) : (s.respond v l).inOp = s.inOp := rfl
@[simp] theorem State.respond_timing (v : Word) (l : Bool) (s : State) : (s.respond v l).timing = s.timing := rfl
@[simp] theorem State.respond_env (v : Word) (l : Bool) (s : State) : (s.respond v l).env = s.env := rfl
@[simp] theorem State.respond_rstEdges (v : Word) (l : Bool) (s : State) : (s.respond v l).rstEdges = s.rstEdges := rfl
@[simp] theorem State.respond_offers (v : Word) (l : Bool) (s : State) : (s.respond v l).offers = s.offers := rfl
@[simp] theorem State.respond_rsp (v : Word) (l : Bool) (s : State) : (s.respond v l).rsp = s.rsp ++ [⟨s.now, v, l⟩] := rfl
@[simp] theorem State.respond_diags (v : Word) (l : Bool) (s : State) : (s.respond v l).diags = s.diags := rfl
@[simp] theorem State.respond_bus (v : Word) (l : Bool) (s : State) : (s.respond v l).bus = s.bus := rfl
@[simp] theorem State.respond_trace (v : Word) (l : Bool) (s : State) : (s.respond v l).trace = s.trace := rfl
@[simp] theorem State.respond_looks (v : Word) (l : Bool) (s : State) : (s.respond v l).looks = s.looks := rfl
@[simp] theorem State.respond_draws (v : Word) (l : Bool) (s : State) : (s.respond v l).draws = s.draws := rfl

@[simp] theorem State.becomeIdle_ld (s : State) : s.becomeIdle.ld = s.ld := rfl
@[simp] theorem State.becomeIdle_ldf (s : State) : s.becomeIdle.ldf = s.ldf := rfl
@[simp] theorem State.becomeIdle_addr (s : State) : s.becomeIdle.addr = s.addr := rfl
@[simp] theorem State.becomeIdle_busy (s : State) : s.becomeIdle.busy = false := rfl
@[simp] theorem State.becomeIdle_tr (s : State) : s.becomeIdle.tr = idleTransient s.draws := rfl
@[simp] theorem State.becomeIdle_owDriveLow (s : State) : s.becomeIdle.owDriveLow = s.owDriveLow := rfl
@[simp] theorem State.becomeIdle_crit (s : State) : s.becomeIdle.crit = s.crit := rfl
@[simp] theorem State.becomeIdle_now (s : State) : s.becomeIdle.now = s.now := rfl
@[simp] theorem State.becomeIdle_inOp (s : State) : s.becomeIdle.inOp = false := rfl
@[simp] theorem State.becomeIdle_timing (s : State) : s.becomeIdle.timing = s.timing := rfl
@[simp] theorem State.becomeIdle_env (s : State) : s.becomeIdle.env = s.env := rfl
@[simp] theorem State.becomeIdle_rstEdges (s : State) : s.becomeIdle.rstEdges = s.rstEdges := rfl
@[simp] theorem State.becomeIdle_offers (s : State) : s.becomeIdle.offers = s.offers := rfl
@[simp] theorem State.becomeIdle_rsp (s : State) : s.becomeIdle.rsp = s.rsp := rfl
@[simp] theorem State.becomeIdle_diags (s : State) : s.becomeIdle.diags = s.diags := rfl
@[simp] theorem State.becomeIdle_bus (s : State) : s.becomeIdle.bus = s.bus := rfl
@[simp] theorem State.becomeIdle_trace (s : State) : s.becomeIdle.trace = s.trace := rfl
@[simp] theorem State.becomeIdle_looks (s : State) : s.becomeIdle.looks = s.looks := rfl
@[simp] theorem State.becomeIdle_draws (s : State) : s.becomeIdle.draws = s.draws + 1 := rfl

@[simp] theorem State.start_ld (s : State) : s.start.ld = s.ld := rfl
@[simp] theorem State.start_ldf (s : State) : s.start.ldf = s.ldf := rfl
@[simp] theorem State.start_addr (s : State) : s.start.addr = s.addr := rfl
@[simp] theorem State.start_busy (s : State) : s.start.busy = true := rfl
@[simp] theorem State.start_tr (s : State) : s.start.tr = s.tr := rfl
@[simp] theorem State.start_owDriveLow (s : State) : s.start.owDriveLow = s.owDriveLow := rfl
@[simp] theorem State.start_crit (s : State) : s.start.crit = s.crit := rfl
@[simp] theorem State.start_now (s : State) : s.start.now = s.now := rfl
@[simp] theorem State.start_inOp (s : State) : s.start.inOp = false := rfl
@[simp] theorem State.start_timing (s : State) : s.start.timing = s.timing := rfl
@[simp] theorem State.start_env (s : State) : s.start.env = s.env := rfl
@[simp] theorem State.start_rstEdges (s : State) : s.start.rstEdges = s.rstEdges := rfl
@[simp] theorem State.start_offers (s : State) : s.start.offers = s.offers := rfl
@[simp] theorem State.start_rsp (s : State) : s.start.rsp = s.rsp := rfl
@[simp] theorem State.start_diags (s : State) : s.start.diags = s.diags := rfl
@[simp] theorem State.start_bus (s : State) : s.start.bus = s.bus := rfl
@[simp] theorem State.start_trace (s : State) : s.start.trace = s.trace := rfl
@[simp] theorem State.start_looks (s : State) : s.start.looks = s.looks := rfl
@[simp] theorem State.start_draws (s : State) : s.start.draws = s.draws := rfl

@[simp] theorem State.complete_ld (v : Word) (s : State) : (s.complete v).ld = s.ld := rfl
@[simp] theorem State.complete_ldf (v : Word) (s : State) : (s.complete v).ldf = s.ldf := rfl
@[simp] theorem State.complete_addr (v : Word) (s : State) : (s.complete v).addr = s.addr := rfl
@[simp] theorem State.complete_busy (v : Word) (s : State) : (s.complete v).busy = false := rfl
@[simp] theorem State.complete_tr (v : Word) (s : State) : (s.complete v).tr = idleTransient s.draws := rfl
@[simp] theorem State.complete_owDriveLow (v : Word) (s : State) : (s.complete v).owDriveLow = s.owDriveLow := rfl
@[simp] theorem State.complete_crit (v : Word) (s : State) : (s.complete v).crit = s.crit := rfl
@[simp] theorem State.complete_now (v : Word) (s : State) : (s.complete v).now = s.now := rfl
@[simp] theorem State.complete_inOp (v : Word) (s : State) : (s.complete v).inOp = false := rfl
@[simp] theorem State.complete_timing (v : Word) (s : State) : (s.complete v).timing = s.timing := rfl
@[simp] theorem State.complete_env (v : Word) (s : State) : (s.complete v).env = s.env := rfl
@[simp] theorem State.complete_rstEdges (v : Word) (s : State) : (s.complete v).rstEdges = s.rstEdges := rfl
@[simp] theorem State.complete_offers (v : Word) (s : State) : (s.complete v).offers = s.offers := rfl
@[simp] theorem State.complete_rsp (v : Word) (s : State) : (s.complete v).rsp = s.rsp ++ [⟨s.now, v, true⟩] := rfl
@[simp] theorem State.complete_diags (v : Word) (s : State) : (s.complete v).diags = s.diags := rfl
@[simp] theorem State.complete_bus (v : Word) (s : State) : (s.complete v).bus = s.bus := rfl
@[simp] theorem State.complete_trace (v : Word) (s : State) : (s.complete v).trace = s.trace := rfl
@[simp] theorem State.complete_looks (v : Word) (s : State) : (s.complete v).looks = s.looks := rfl
@[simp] theorem State.complete_draws (v : Word) (s : State) : (s.complete v).draws = s.draws + 1 := rfl

@[simp] theorem State.endSlot_ld (e : BusEvent) (t0 : Nat) (env : Env) (s : State) : (s.endSlot e t0 env).ld = s.ld := rfl
@[simp] theorem State.endSlot_ldf (e : BusEvent) (t0 : Nat) (env : Env) (s : State) : (s.endSlot e t0 env).ldf = s.ldf := rfl
@[simp] theorem State.endSlot_addr (e : BusEvent) (t0 : Nat) (env : Env) (s : State) : (s.endSlot e t0 env).addr = s.addr := rfl
@[simp] theorem State.endSlot_busy (e : BusEvent) (t0 : Nat) (env : Env) (s : State) : (s.endSlot e t0 env).busy = s.busy := rfl
@[simp] theorem State.endSlot_tr (e : BusEvent) (t0 : Nat) (env : Env) (s : State) : (s.endSlot e t0 env).tr = s.tr := rfl
@[simp] theorem State.endSlot_owDriveLow (e : BusEvent) (t0 : Nat) (env : Env) (s : State) : (s.endSlot e t0 env).owDriveLow = s.owDriveLow := rfl
@[simp] theorem State.endSlot_crit (e : BusEvent) (t0 : Nat) (env : Env) (s : State) : (s.endSlot e t0 env).crit = s.crit := rfl
@[simp] theorem State.endSlot_now (e : BusEvent) (t0 : Nat) (env : Env) (s : State) : (s.endSlot e t0 env).now = s.now := rfl
@[simp] theorem State.endSlot_inOp (e : BusEvent) (t0 : Nat) (env : Env) (s : State) : (s.endSlot e t0 env).inOp = s.inOp := rfl
@[simp] theorem State.endSlot_timing (e : BusEvent) (t0 : Nat) (env : Env) (s : State) : (s.endSlot e t0 env).timing = s.timing := rfl
@[simp] theorem State.endSlot_env (e : BusEvent) (t0 : Nat) (env : Env) (s : State) : (s.endSlot e t0 env).env = env := rfl
@[simp] theorem State.endSlot_rstEdges (e : BusEvent) (t0 : Nat) (env : Env) (s : State) : (s.endSlot e t0 env).rstEdges = s.rstEdges := rfl
@[simp] theorem State.endSlot_offers (e : BusEvent) (t0 : Nat) (env : Env) (s : State) : (s.endSlot e t0 env).offers = s.offers := rfl
@[simp] theorem State.endSlot_rsp (e : BusEvent) (t0 : Nat) (env : Env) (s : State) : (s.endSlot e t0 env).rsp = s.rsp := rfl
@[simp] theorem State.endSlot_diags (e : BusEvent) (t0 : Nat) (env : Env) (s : State) : (s.endSlot e t0 env).diags = s.diags := rfl
@[simp] theorem State.endSlot_bus (e : BusEvent) (t0 : Nat) (env : Env) (s : State) : (s.endSlot e t0 env).bus = s.bus ++ [⟨e, t0, s.now⟩] := rfl
@[simp] theorem State.endSlot_trace (e : BusEvent) (t0 : Nat) (env : Env) (s : State) : (s.endSlot e t0 env).trace = s.trace := rfl
@[simp] theorem State.endSlot_looks (e : BusEvent) (t0 : Nat) (env : Env) (s : State) : (s.endSlot e t0 env).looks = s.looks := rfl
@[simp] theorem State.endSlot_draws (e : BusEvent) (t0 : Nat) (env : Env) (s : State) : (s.endSlot e t0 env).draws = s.draws := rfl

@[simp] theorem State.loadSh_ld (v : Word) (s : State) : (s.loadSh v).ld = s.ld := rfl
@[simp] theorem State.loadSh_ldf (v : Word) (s : State) : (s.loadSh v).ldf = s.ldf := rfl
@[simp] theorem State.loadSh_addr (v : Word) (s : State) : (s.loadSh v).addr = s.addr := rfl
@[simp] theorem State.loadSh_busy (v : Word) (s : State) : (s.loadSh v).busy = s.busy := rfl
@[simp] theorem State.loadSh_tr (v : Word) (s : State) : (s.loadSh v).tr = { s.tr with sh := v, j := 0#3, k := 0#3 } := rfl
@[simp] theorem State.loadSh_owDriveLow (v : Word) (s : State) : (s.loadSh v).owDriveLow = s.owDriveLow := rfl
@[simp] theorem State.loadSh_crit (v : Word) (s : State) : (s.loadSh v).crit = s.crit := rfl
@[simp] theorem State.loadSh_now (v : Word) (s : State) : (s.loadSh v).now = s.now := rfl
@[simp] theorem State.loadSh_inOp (v : Word) (s : State) : (s.loadSh v).inOp = s.inOp := rfl
@[simp] theorem State.loadSh_timing (v : Word) (s : State) : (s.loadSh v).timing = s.timing := rfl
@[simp] theorem State.loadSh_env (v : Word) (s : State) : (s.loadSh v).env = s.env := rfl
@[simp] theorem State.loadSh_rstEdges (v : Word) (s : State) : (s.loadSh v).rstEdges = s.rstEdges := rfl
@[simp] theorem State.loadSh_offers (v : Word) (s : State) : (s.loadSh v).offers = s.offers := rfl
@[simp] theorem State.loadSh_rsp (v : Word) (s : State) : (s.loadSh v).rsp = s.rsp := rfl
@[simp] theorem State.loadSh_diags (v : Word) (s : State) : (s.loadSh v).diags = s.diags := rfl
@[simp] theorem State.loadSh_bus (v : Word) (s : State) : (s.loadSh v).bus = s.bus := rfl
@[simp] theorem State.loadSh_trace (v : Word) (s : State) : (s.loadSh v).trace = s.trace := rfl
@[simp] theorem State.loadSh_looks (v : Word) (s : State) : (s.loadSh v).looks = s.looks := rfl
@[simp] theorem State.loadSh_draws (v : Word) (s : State) : (s.loadSh v).draws = s.draws := rfl

@[simp] theorem State.setK_ld (v : BitVec 3) (s : State) : (s.setK v).ld = s.ld := rfl
@[simp] theorem State.setK_ldf (v : BitVec 3) (s : State) : (s.setK v).ldf = s.ldf := rfl
@[simp] theorem State.setK_addr (v : BitVec 3) (s : State) : (s.setK v).addr = s.addr := rfl
@[simp] theorem State.setK_busy (v : BitVec 3) (s : State) : (s.setK v).busy = s.busy := rfl
@[simp] theorem State.setK_tr (v : BitVec 3) (s : State) : (s.setK v).tr = { s.tr with k := v } := rfl
@[simp] theorem State.setK_owDriveLow (v : BitVec 3) (s : State) : (s.setK v).owDriveLow = s.owDriveLow := rfl
@[simp] theorem State.setK_crit (v : BitVec 3) (s : State) : (s.setK v).crit = s.crit := rfl
@[simp] theorem State.setK_now (v : BitVec 3) (s : State) : (s.setK v).now = s.now := rfl
@[simp] theorem State.setK_inOp (v : BitVec 3) (s : State) : (s.setK v).inOp = s.inOp := rfl
@[simp] theorem State.setK_timing (v : BitVec 3) (s : State) : (s.setK v).timing = s.timing := rfl
@[simp] theorem State.setK_env (v : BitVec 3) (s : State) : (s.setK v).env = s.env := rfl
@[simp] theorem State.setK_rstEdges (v : BitVec 3) (s : State) : (s.setK v).rstEdges = s.rstEdges := rfl
@[simp] theorem State.setK_offers (v : BitVec 3) (s : State) : (s.setK v).offers = s.offers := rfl
@[simp] theorem State.setK_rsp (v : BitVec 3) (s : State) : (s.setK v).rsp = s.rsp := rfl
@[simp] theorem State.setK_diags (v : BitVec 3) (s : State) : (s.setK v).diags = s.diags := rfl
@[simp] theorem State.setK_bus (v : BitVec 3) (s : State) : (s.setK v).bus = s.bus := rfl
@[simp] theorem State.setK_trace (v : BitVec 3) (s : State) : (s.setK v).trace = s.trace := rfl
@[simp] theorem State.setK_looks (v : BitVec 3) (s : State) : (s.setK v).looks = s.looks := rfl
@[simp] theorem State.setK_draws (v : BitVec 3) (s : State) : (s.setK v).draws = s.draws := rfl

@[simp] theorem State.setJ_ld (v : BitVec 3) (s : State) : (s.setJ v).ld = s.ld := rfl
@[simp] theorem State.setJ_ldf (v : BitVec 3) (s : State) : (s.setJ v).ldf = s.ldf := rfl
@[simp] theorem State.setJ_addr (v : BitVec 3) (s : State) : (s.setJ v).addr = s.addr := rfl
@[simp] theorem State.setJ_busy (v : BitVec 3) (s : State) : (s.setJ v).busy = s.busy := rfl
@[simp] theorem State.setJ_tr (v : BitVec 3) (s : State) : (s.setJ v).tr = { s.tr with j := v } := rfl
@[simp] theorem State.setJ_owDriveLow (v : BitVec 3) (s : State) : (s.setJ v).owDriveLow = s.owDriveLow := rfl
@[simp] theorem State.setJ_crit (v : BitVec 3) (s : State) : (s.setJ v).crit = s.crit := rfl
@[simp] theorem State.setJ_now (v : BitVec 3) (s : State) : (s.setJ v).now = s.now := rfl
@[simp] theorem State.setJ_inOp (v : BitVec 3) (s : State) : (s.setJ v).inOp = s.inOp := rfl
@[simp] theorem State.setJ_timing (v : BitVec 3) (s : State) : (s.setJ v).timing = s.timing := rfl
@[simp] theorem State.setJ_env (v : BitVec 3) (s : State) : (s.setJ v).env = s.env := rfl
@[simp] theorem State.setJ_rstEdges (v : BitVec 3) (s : State) : (s.setJ v).rstEdges = s.rstEdges := rfl
@[simp] theorem State.setJ_offers (v : BitVec 3) (s : State) : (s.setJ v).offers = s.offers := rfl
@[simp] theorem State.setJ_rsp (v : BitVec 3) (s : State) : (s.setJ v).rsp = s.rsp := rfl
@[simp] theorem State.setJ_diags (v : BitVec 3) (s : State) : (s.setJ v).diags = s.diags := rfl
@[simp] theorem State.setJ_bus (v : BitVec 3) (s : State) : (s.setJ v).bus = s.bus := rfl
@[simp] theorem State.setJ_trace (v : BitVec 3) (s : State) : (s.setJ v).trace = s.trace := rfl
@[simp] theorem State.setJ_looks (v : BitVec 3) (s : State) : (s.setJ v).looks = s.looks := rfl
@[simp] theorem State.setJ_draws (v : BitVec 3) (s : State) : (s.setJ v).draws = s.draws := rfl

@[simp] theorem State.setP_ld (v : BitVec 7) (s : State) : (s.setP v).ld = s.ld := rfl
@[simp] theorem State.setP_ldf (v : BitVec 7) (s : State) : (s.setP v).ldf = s.ldf := rfl
@[simp] theorem State.setP_addr (v : BitVec 7) (s : State) : (s.setP v).addr = s.addr := rfl
@[simp] theorem State.setP_busy (v : BitVec 7) (s : State) : (s.setP v).busy = s.busy := rfl
@[simp] theorem State.setP_tr (v : BitVec 7) (s : State) : (s.setP v).tr = { s.tr with p := v } := rfl
@[simp] theorem State.setP_owDriveLow (v : BitVec 7) (s : State) : (s.setP v).owDriveLow = s.owDriveLow := rfl
@[simp] theorem State.setP_crit (v : BitVec 7) (s : State) : (s.setP v).crit = s.crit := rfl
@[simp] theorem State.setP_now (v : BitVec 7) (s : State) : (s.setP v).now = s.now := rfl
@[simp] theorem State.setP_inOp (v : BitVec 7) (s : State) : (s.setP v).inOp = s.inOp := rfl
@[simp] theorem State.setP_timing (v : BitVec 7) (s : State) : (s.setP v).timing = s.timing := rfl
@[simp] theorem State.setP_env (v : BitVec 7) (s : State) : (s.setP v).env = s.env := rfl
@[simp] theorem State.setP_rstEdges (v : BitVec 7) (s : State) : (s.setP v).rstEdges = s.rstEdges := rfl
@[simp] theorem State.setP_offers (v : BitVec 7) (s : State) : (s.setP v).offers = s.offers := rfl
@[simp] theorem State.setP_rsp (v : BitVec 7) (s : State) : (s.setP v).rsp = s.rsp := rfl
@[simp] theorem State.setP_diags (v : BitVec 7) (s : State) : (s.setP v).diags = s.diags := rfl
@[simp] theorem State.setP_bus (v : BitVec 7) (s : State) : (s.setP v).bus = s.bus := rfl
@[simp] theorem State.setP_trace (v : BitVec 7) (s : State) : (s.setP v).trace = s.trace := rfl
@[simp] theorem State.setP_looks (v : BitVec 7) (s : State) : (s.setP v).looks = s.looks := rfl
@[simp] theorem State.setP_draws (v : BitVec 7) (s : State) : (s.setP v).draws = s.draws := rfl

@[simp] theorem State.setLastZero_ld (v : BitVec 7) (s : State) : (s.setLastZero v).ld = s.ld := rfl
@[simp] theorem State.setLastZero_ldf (v : BitVec 7) (s : State) : (s.setLastZero v).ldf = s.ldf := rfl
@[simp] theorem State.setLastZero_addr (v : BitVec 7) (s : State) : (s.setLastZero v).addr = s.addr := rfl
@[simp] theorem State.setLastZero_busy (v : BitVec 7) (s : State) : (s.setLastZero v).busy = s.busy := rfl
@[simp] theorem State.setLastZero_tr (v : BitVec 7) (s : State) : (s.setLastZero v).tr = { s.tr with lastZero := v } := rfl
@[simp] theorem State.setLastZero_owDriveLow (v : BitVec 7) (s : State) : (s.setLastZero v).owDriveLow = s.owDriveLow := rfl
@[simp] theorem State.setLastZero_crit (v : BitVec 7) (s : State) : (s.setLastZero v).crit = s.crit := rfl
@[simp] theorem State.setLastZero_now (v : BitVec 7) (s : State) : (s.setLastZero v).now = s.now := rfl
@[simp] theorem State.setLastZero_inOp (v : BitVec 7) (s : State) : (s.setLastZero v).inOp = s.inOp := rfl
@[simp] theorem State.setLastZero_timing (v : BitVec 7) (s : State) : (s.setLastZero v).timing = s.timing := rfl
@[simp] theorem State.setLastZero_env (v : BitVec 7) (s : State) : (s.setLastZero v).env = s.env := rfl
@[simp] theorem State.setLastZero_rstEdges (v : BitVec 7) (s : State) : (s.setLastZero v).rstEdges = s.rstEdges := rfl
@[simp] theorem State.setLastZero_offers (v : BitVec 7) (s : State) : (s.setLastZero v).offers = s.offers := rfl
@[simp] theorem State.setLastZero_rsp (v : BitVec 7) (s : State) : (s.setLastZero v).rsp = s.rsp := rfl
@[simp] theorem State.setLastZero_diags (v : BitVec 7) (s : State) : (s.setLastZero v).diags = s.diags := rfl
@[simp] theorem State.setLastZero_bus (v : BitVec 7) (s : State) : (s.setLastZero v).bus = s.bus := rfl
@[simp] theorem State.setLastZero_trace (v : BitVec 7) (s : State) : (s.setLastZero v).trace = s.trace := rfl
@[simp] theorem State.setLastZero_looks (v : BitVec 7) (s : State) : (s.setLastZero v).looks = s.looks := rfl
@[simp] theorem State.setLastZero_draws (v : BitVec 7) (s : State) : (s.setLastZero v).draws = s.draws := rfl

@[simp] theorem State.putShBit_ld (b : Bool) (s : State) : (s.putShBit b).ld = s.ld := rfl
@[simp] theorem State.putShBit_ldf (b : Bool) (s : State) : (s.putShBit b).ldf = s.ldf := rfl
@[simp] theorem State.putShBit_addr (b : Bool) (s : State) : (s.putShBit b).addr = s.addr := rfl
@[simp] theorem State.putShBit_busy (b : Bool) (s : State) : (s.putShBit b).busy = s.busy := rfl
@[simp] theorem State.putShBit_tr (b : Bool) (s : State) : (s.putShBit b).tr = { s.tr with sh := setBit s.tr.sh s.tr.shIndex b } := rfl
@[simp] theorem State.putShBit_owDriveLow (b : Bool) (s : State) : (s.putShBit b).owDriveLow = s.owDriveLow := rfl
@[simp] theorem State.putShBit_crit (b : Bool) (s : State) : (s.putShBit b).crit = s.crit := rfl
@[simp] theorem State.putShBit_now (b : Bool) (s : State) : (s.putShBit b).now = s.now := rfl
@[simp] theorem State.putShBit_inOp (b : Bool) (s : State) : (s.putShBit b).inOp = s.inOp := rfl
@[simp] theorem State.putShBit_timing (b : Bool) (s : State) : (s.putShBit b).timing = s.timing := rfl
@[simp] theorem State.putShBit_env (b : Bool) (s : State) : (s.putShBit b).env = s.env := rfl
@[simp] theorem State.putShBit_rstEdges (b : Bool) (s : State) : (s.putShBit b).rstEdges = s.rstEdges := rfl
@[simp] theorem State.putShBit_offers (b : Bool) (s : State) : (s.putShBit b).offers = s.offers := rfl
@[simp] theorem State.putShBit_rsp (b : Bool) (s : State) : (s.putShBit b).rsp = s.rsp := rfl
@[simp] theorem State.putShBit_diags (b : Bool) (s : State) : (s.putShBit b).diags = s.diags := rfl
@[simp] theorem State.putShBit_bus (b : Bool) (s : State) : (s.putShBit b).bus = s.bus := rfl
@[simp] theorem State.putShBit_trace (b : Bool) (s : State) : (s.putShBit b).trace = s.trace := rfl
@[simp] theorem State.putShBit_looks (b : Bool) (s : State) : (s.putShBit b).looks = s.looks := rfl
@[simp] theorem State.putShBit_draws (b : Bool) (s : State) : (s.putShBit b).draws = s.draws := rfl

@[simp] theorem State.setAddrBit_ld (d : Bool) (s : State) : (s.setAddrBit d).ld = s.ld := rfl
@[simp] theorem State.setAddrBit_ldf (d : Bool) (s : State) : (s.setAddrBit d).ldf = s.ldf := rfl
@[simp] theorem State.setAddrBit_addr (d : Bool) (s : State) : (s.setAddrBit d).addr = setBit s.addr s.addrIndex d := rfl
@[simp] theorem State.setAddrBit_busy (d : Bool) (s : State) : (s.setAddrBit d).busy = s.busy := rfl
@[simp] theorem State.setAddrBit_tr (d : Bool) (s : State) : (s.setAddrBit d).tr = s.tr := rfl
@[simp] theorem State.setAddrBit_owDriveLow (d : Bool) (s : State) : (s.setAddrBit d).owDriveLow = s.owDriveLow := rfl
@[simp] theorem State.setAddrBit_crit (d : Bool) (s : State) : (s.setAddrBit d).crit = s.crit := rfl
@[simp] theorem State.setAddrBit_now (d : Bool) (s : State) : (s.setAddrBit d).now = s.now := rfl
@[simp] theorem State.setAddrBit_inOp (d : Bool) (s : State) : (s.setAddrBit d).inOp = s.inOp := rfl
@[simp] theorem State.setAddrBit_timing (d : Bool) (s : State) : (s.setAddrBit d).timing = s.timing := rfl
@[simp] theorem State.setAddrBit_env (d : Bool) (s : State) : (s.setAddrBit d).env = s.env := rfl
@[simp] theorem State.setAddrBit_rstEdges (d : Bool) (s : State) : (s.setAddrBit d).rstEdges = s.rstEdges := rfl
@[simp] theorem State.setAddrBit_offers (d : Bool) (s : State) : (s.setAddrBit d).offers = s.offers := rfl
@[simp] theorem State.setAddrBit_rsp (d : Bool) (s : State) : (s.setAddrBit d).rsp = s.rsp := rfl
@[simp] theorem State.setAddrBit_diags (d : Bool) (s : State) : (s.setAddrBit d).diags = s.diags := rfl
@[simp] theorem State.setAddrBit_bus (d : Bool) (s : State) : (s.setAddrBit d).bus = s.bus := rfl
@[simp] theorem State.setAddrBit_trace (d : Bool) (s : State) : (s.setAddrBit d).trace = s.trace := rfl
@[simp] theorem State.setAddrBit_looks (d : Bool) (s : State) : (s.setAddrBit d).looks = s.looks := rfl
@[simp] theorem State.setAddrBit_draws (d : Bool) (s : State) : (s.setAddrBit d).draws = s.draws := rfl

@[simp] theorem State.resetSearchState_ld (s : State) : s.resetSearchState.ld = 0#7 := rfl
@[simp] theorem State.resetSearchState_ldf (s : State) : s.resetSearchState.ldf = false := rfl
@[simp] theorem State.resetSearchState_addr (s : State) : s.resetSearchState.addr = 0#64 := rfl
@[simp] theorem State.resetSearchState_busy (s : State) : s.resetSearchState.busy = s.busy := rfl
@[simp] theorem State.resetSearchState_tr (s : State) : s.resetSearchState.tr = s.tr := rfl
@[simp] theorem State.resetSearchState_owDriveLow (s : State) : s.resetSearchState.owDriveLow = s.owDriveLow := rfl
@[simp] theorem State.resetSearchState_crit (s : State) : s.resetSearchState.crit = s.crit := rfl
@[simp] theorem State.resetSearchState_now (s : State) : s.resetSearchState.now = s.now := rfl
@[simp] theorem State.resetSearchState_inOp (s : State) : s.resetSearchState.inOp = s.inOp := rfl
@[simp] theorem State.resetSearchState_timing (s : State) : s.resetSearchState.timing = s.timing := rfl
@[simp] theorem State.resetSearchState_env (s : State) : s.resetSearchState.env = s.env := rfl
@[simp] theorem State.resetSearchState_rstEdges (s : State) : s.resetSearchState.rstEdges = s.rstEdges := rfl
@[simp] theorem State.resetSearchState_offers (s : State) : s.resetSearchState.offers = s.offers := rfl
@[simp] theorem State.resetSearchState_rsp (s : State) : s.resetSearchState.rsp = s.rsp := rfl
@[simp] theorem State.resetSearchState_diags (s : State) : s.resetSearchState.diags = s.diags := rfl
@[simp] theorem State.resetSearchState_bus (s : State) : s.resetSearchState.bus = s.bus := rfl
@[simp] theorem State.resetSearchState_trace (s : State) : s.resetSearchState.trace = s.trace := rfl
@[simp] theorem State.resetSearchState_looks (s : State) : s.resetSearchState.looks = s.looks := rfl
@[simp] theorem State.resetSearchState_draws (s : State) : s.resetSearchState.draws = s.draws := rfl

@[simp] theorem State.commitPass_ld (s : State) : s.commitPass.ld = s.tr.lastZero := rfl
@[simp] theorem State.commitPass_ldf (s : State) : s.commitPass.ldf = (s.ldf || s.tr.lastZero == 0#7) := rfl
@[simp] theorem State.commitPass_addr (s : State) : s.commitPass.addr = s.addr := rfl
@[simp] theorem State.commitPass_busy (s : State) : s.commitPass.busy = s.busy := rfl
@[simp] theorem State.commitPass_tr (s : State) : s.commitPass.tr = s.tr := rfl
@[simp] theorem State.commitPass_owDriveLow (s : State) : s.commitPass.owDriveLow = s.owDriveLow := rfl
@[simp] theorem State.commitPass_crit (s : State) : s.commitPass.crit = s.crit := rfl
@[simp] theorem State.commitPass_now (s : State) : s.commitPass.now = s.now := rfl
@[simp] theorem State.commitPass_inOp (s : State) : s.commitPass.inOp = s.inOp := rfl
@[simp] theorem State.commitPass_timing (s : State) : s.commitPass.timing = s.timing := rfl
@[simp] theorem State.commitPass_env (s : State) : s.commitPass.env = s.env := rfl
@[simp] theorem State.commitPass_rstEdges (s : State) : s.commitPass.rstEdges = s.rstEdges := rfl
@[simp] theorem State.commitPass_offers (s : State) : s.commitPass.offers = s.offers := rfl
@[simp] theorem State.commitPass_rsp (s : State) : s.commitPass.rsp = s.rsp := rfl
@[simp] theorem State.commitPass_diags (s : State) : s.commitPass.diags = s.diags := rfl
@[simp] theorem State.commitPass_bus (s : State) : s.commitPass.bus = s.bus := rfl
@[simp] theorem State.commitPass_trace (s : State) : s.commitPass.trace = s.trace := rfl
@[simp] theorem State.commitPass_looks (s : State) : s.commitPass.looks = s.looks := rfl
@[simp] theorem State.commitPass_draws (s : State) : s.commitPass.draws = s.draws := rfl

@[simp] theorem State.take_ld (r : List Offer) (s : State) : (s.take r).ld = s.ld := rfl
@[simp] theorem State.take_ldf (r : List Offer) (s : State) : (s.take r).ldf = s.ldf := rfl
@[simp] theorem State.take_addr (r : List Offer) (s : State) : (s.take r).addr = s.addr := rfl
@[simp] theorem State.take_busy (r : List Offer) (s : State) : (s.take r).busy = s.busy := rfl
@[simp] theorem State.take_tr (r : List Offer) (s : State) : (s.take r).tr = s.tr := rfl
@[simp] theorem State.take_owDriveLow (r : List Offer) (s : State) : (s.take r).owDriveLow = s.owDriveLow := rfl
@[simp] theorem State.take_crit (r : List Offer) (s : State) : (s.take r).crit = s.crit := rfl
@[simp] theorem State.take_now (r : List Offer) (s : State) : (s.take r).now = s.now := rfl
@[simp] theorem State.take_inOp (r : List Offer) (s : State) : (s.take r).inOp = s.inOp := rfl
@[simp] theorem State.take_timing (r : List Offer) (s : State) : (s.take r).timing = s.timing := rfl
@[simp] theorem State.take_env (r : List Offer) (s : State) : (s.take r).env = s.env := rfl
@[simp] theorem State.take_rstEdges (r : List Offer) (s : State) : (s.take r).rstEdges = s.rstEdges := rfl
@[simp] theorem State.take_offers (r : List Offer) (s : State) : (s.take r).offers = r := rfl
@[simp] theorem State.take_rsp (r : List Offer) (s : State) : (s.take r).rsp = s.rsp := rfl
@[simp] theorem State.take_diags (r : List Offer) (s : State) : (s.take r).diags = s.diags := rfl
@[simp] theorem State.take_bus (r : List Offer) (s : State) : (s.take r).bus = s.bus := rfl
@[simp] theorem State.take_trace (r : List Offer) (s : State) : (s.take r).trace = s.trace := rfl
@[simp] theorem State.take_looks (r : List Offer) (s : State) : (s.take r).looks = s.looks := rfl
@[simp] theorem State.take_draws (r : List Offer) (s : State) : (s.take r).draws = s.draws := rfl

end Sys2Proof.Machine
end

