-- ==== Sys2Proof/Laws/Slots.lean ====
section
/-!
SUPPORT. What the three slots do, said once for each: the whole next state for legal timing, and field by field what does not
depend on the timing.
-/

namespace Sys2Proof.Machine

/-! ### Legal timing -/

theorem legal_iff (t : Config.Timing) : t.legal = true ↔
    1 ≤ t.tW1L ∧ t.tW1L ≤ 15 ∧ 60 ≤ t.tW0L ∧ t.tW0L ≤ 120 ∧ 60 ≤ t.tWSlot ∧ t.tWSlot ≤ 120 ∧ t.tW1L < t.tW0L ∧
    t.tW0L ≤ t.tWSlot ∧ 2 ≤ t.tRInit ∧ 12 ≤ t.tRWait ∧ t.tRWait ≤ 14 ∧ t.tRInit + t.tRWait < 60 := by
  simp only [Config.Timing.legal, Bool.and_eq_true, decide_eq_true_eq, and_assoc]
  exact Iff.rfl

theorem lowPhase_le_slot {t : Config.Timing} (h : t.legal = true) (b : Bool) : lowPhase t b ≤ t.tWSlot := by
  obtain ⟨-, -, -, -, -, -, h7, h8, -⟩ := (legal_iff t).1 h
  cases b <;> simp [lowPhase] <;> omega

/-! ### Time -/

theorem advance_quiet (d : Nat) {s : State} (h1 : s.owDriveLow = false) (h2 : s.crit = false) :
    s.advance d = { s with now := s.now + d } := by
  simp [State.advance, h1, h2]

theorem advance_active (d : Nat) {s : State} (h : s.owDriveLow = true ∨ s.crit = true) :
    s.advance d =
      { s with now := s.now + d, trace := s.trace ++ [⟨s.now, s.now + d, s.owDriveLow, s.crit⟩] } := by
  rcases h with h | h <;> simp [State.advance, h]

/-- What a slot begins with: time has reached the slot's start, which `t_ref` holds, and nothing was driven. -/
theorem beginSlot_eq (s : State) : s.beginSlot =
    { s with owDriveLow := false, crit := false, now := s.slotStart, inOp := true,
             tr := { s.tr with tRef := s.slotStart } } := by
  unfold State.beginSlot State.slotStart
  cases h : s.inOp <;> simp [State.setDrive, State.setCrit, State.markRef, State.advance, h]

/-! ### The write slot -/

/-- A write slot, for legal timing (40_signal_primitives.md R121). -/
theorem slotWrite_eq {s : State} (h : s.timing.legal = true) (b : Bool) : s.slotWrite b =
    { s with
      owDriveLow := false
      crit := false
      inOp := true
      now := s.slotStart + s.timing.tWSlot
      tr := { s.tr with tRef := s.slotStart }
      env := s.env.afterWrite b
      bus := s.bus ++ [⟨.w b, s.slotStart, s.slotStart + s.timing.tWSlot⟩]
      trace := s.trace ++ [⟨s.slotStart, s.slotStart + lowPhase s.timing b, true, true⟩,
        ⟨s.slotStart + lowPhase s.timing b, s.slotStart + s.timing.tWSlot, false, true⟩] } := by
  have hl := lowPhase_le_slot h b
  have e : s.slotStart + lowPhase s.timing b + (s.timing.tWSlot - lowPhase s.timing b) =
      s.slotStart + s.timing.tWSlot := by omega
  simp [State.slotWrite, beginSlot_eq, State.setDrive, State.setCrit, State.advanceTo, State.advance,
    State.endSlot, Nat.add_sub_add_left, e]

/-! ### The read slot -/

/-- A read slot, for legal timing (40_signal_primitives.md R129 to R132). -/
theorem slotRead_eq {s : State} (h : s.timing.legal = true) : s.slotRead =
    (!s.env.lowInRead (s.slotStart + s.timing.tRInit + s.timing.tRWait),
      { s with
        owDriveLow := false
        crit := false
        inOp := true
        now := s.slotStart + Config.tRSlot
        tr := { s.tr with tRef := s.slotStart }
        env := s.env.afterRead
        bus := s.bus ++ [⟨.r (!s.env.lowInRead (s.slotStart + s.timing.tRInit + s.timing.tRWait)), s.slotStart,
          s.slotStart + Config.tRSlot⟩]
        trace := s.trace ++ [⟨s.slotStart, s.slotStart + s.timing.tRInit, true, true⟩,
          ⟨s.slotStart + s.timing.tRInit, s.slotStart + s.timing.tRInit + s.timing.tRWait, false, true⟩,
          ⟨s.slotStart + s.timing.tRInit + s.timing.tRWait, s.slotStart + Config.tRSlot, false, true⟩]
        looks := s.looks ++ [⟨s.slotStart + s.timing.tRInit + s.timing.tRWait,
          s.slotStart + s.timing.tRInit + s.timing.tRWait + 1⟩] }) := by
  obtain ⟨-, -, -, -, -, -, -, -, -, -, -, hb⟩ := (legal_iff s.timing).1 h
  have e : s.slotStart + s.timing.tRInit + s.timing.tRWait +
      (Config.tRSlot - (s.timing.tRInit + s.timing.tRWait)) = s.slotStart + Config.tRSlot := by
    simp only [Config.tRSlot]; omega
  simp [State.slotRead, beginSlot_eq, State.setDrive, State.setCrit, State.advanceTo, State.advance,
    State.endSlot, State.look, lineLevel, Nat.add_sub_add_left, Nat.add_assoc] at e ⊢
  simp [e]

/-! ### The reset slot -/

/-- The search of a wait: the first instant found is the first at which the line has the level. -/
theorem waitLevel_some {line : Nat → Bool} {lv : Bool} :
    ∀ {n t r : Nat}, waitLevel line lv n t = some r → t ≤ r ∧ r < t + n ∧ line r = lv ∧ ∀ x, t ≤ x → x < r → line x ≠ lv
  | 0, t, r, h => by simp [waitLevel] at h
  | n + 1, t, r, h => by
    unfold waitLevel at h
    split at h
    · next hl =>
      obtain rfl := Option.some.inj h
      exact ⟨Nat.le_refl _, by omega, hl, fun x h1 h2 => by omega⟩
    · next hl =>
      obtain ⟨h1, h2, h3, h4⟩ := waitLevel_some h
      refine ⟨by omega, by omega, h3, fun x hx1 hx2 => ?_⟩
      rcases Nat.eq_or_lt_of_le hx1 with rfl | hlt
      · exact hl
      · exact h4 x hlt hx2

/-- The search of a wait: nothing is found where the line never has the level. -/
theorem waitLevel_none {line : Nat → Bool} {lv : Bool} :
    ∀ {n t : Nat}, waitLevel line lv n t = none ↔ ∀ x, t ≤ x → x < t + n → line x ≠ lv
  | 0, t => by simp [waitLevel]; omega
  | n + 1, t => by
    unfold waitLevel
    split
    · next hl => simp; exact ⟨t, Nat.le_refl _, by omega, hl⟩
    · next hl =>
      rw [waitLevel_none]
      constructor
      · intro h x h1 h2
        rcases Nat.eq_or_lt_of_le h1 with rfl | hlt
        · exact hl
        · exact h x hlt (by omega)
      · intro h x h1 h2
        exact h x (by omega) (by omega)

/-- The waits of a reset slot end between the release and 480 microseconds after it, so the slot lasts 960
(40_signal_primitives.md R118). -/
theorem resetScan_tc (incl : Bool) (line : Nat → Bool) (tRel : Nat) :
    tRel ≤ (resetScan incl line tRel).tc ∧ (resetScan incl line tRel).tc ≤ tRel + 480 := by
  unfold resetScan
  split
  · simp [Config.tFloat]
  · next tH hH =>
    split
    · simp [Config.tPres]
    · next tP hP =>
      split
      · next tR hR =>
        obtain ⟨a1, a2, -⟩ := waitLevel_some hH
        obtain ⟨b1, b2, -⟩ := waitLevel_some hP
        obtain ⟨c1, c2, -⟩ := waitLevel_some hR
        simp only [budgetEnd, Config.tPrel] at c2
        refine ⟨?_, ?_⟩
        · show tRel ≤ tR
          omega
        · show tR ≤ tRel + 480
          cases incl <;> simp at c2 <;> omega
      · simp [Config.tPrel]

/-- The waits look from the release on, at the latest at the instant 480 microseconds after it. -/
theorem resetScan_lookStop (incl : Bool) (line : Nat → Bool) (tRel : Nat) : (resetScan incl line tRel).lookStop ≤ tRel + 481 := by
  have hb : ∀ b, budgetEnd incl tRel b ≤ tRel + b + 1 := by intro b; unfold budgetEnd; split <;> omega
  unfold resetScan
  split
  · exact (hb _).trans (by simp [Config.tFloat])
  · next tH hH =>
    split
    · exact (hb _).trans (by simp [Config.tPres])
    · next tP hP =>
      split
      · next tR hR =>
        obtain ⟨-, c2, -⟩ := waitLevel_some hR
        obtain ⟨b1, b2, -⟩ := waitLevel_some hP
        have h1 := hb Config.tPres
        have h2 := hb Config.tPrel
        show tR + 1 ≤ _
        simp only [Config.tPrel, Config.tPres] at *
        omega
      · exact (hb _).trans (by simp [Config.tPrel])

/-- What the three waits find in the reset slot that starts now. -/
def State.scan (s : State) : ResetScan :=
  resetScan s.timing.boundaryInclusive
    (fun t => !s.env.lowInReset (s.slotStart + Config.tRstL) t) (s.slotStart + Config.tRstL)

/-- A reset slot (40_signal_primitives.md R117). -/
theorem slotReset_eq (s : State) : s.slotReset =
    (s.scan.outcome,
      { s with
        owDriveLow := false
        crit := false
        inOp := true
        now := s.slotStart + 960
        tr := { s.tr with tRef := s.slotStart + 480 }
        env := s.env.afterReset
        bus := s.bus ++ [⟨.rst s.scan.outcome, s.slotStart, s.slotStart + 960⟩]
        trace := s.trace ++ [⟨s.slotStart, s.slotStart + 480, true, false⟩,
          ⟨s.slotStart + 480, s.scan.tc, false, true⟩]
        looks := s.looks ++ [⟨s.slotStart + 480, s.scan.lookStop⟩] }) := by
  have hs := resetScan_tc s.timing.boundaryInclusive
    (fun t => !s.env.lowInReset (s.slotStart + Config.tRstL) t) (s.slotStart + Config.tRstL)
  rw [← State.scan] at hs
  simp only [State.slotReset, beginSlot_eq, State.setDrive, State.setCrit, State.advanceTo, State.advance,
    State.endSlot, State.look, State.markRef, lineLevel, Nat.add_sub_cancel_left, Bool.not_false, Bool.true_and,
    Bool.or_true, Bool.or_false, if_true, Bool.or_self, Bool.false_eq_true, if_false]
  rw [show (resetScan s.timing.boundaryInclusive (fun t => !s.env.lowInReset (s.slotStart + Config.tRstL) t)
    (s.slotStart + Config.tRstL)) = s.scan from rfl]
  have e1 : s.slotStart + Config.tRstL + (s.scan.tc - (s.slotStart + Config.tRstL)) = s.scan.tc := by omega
  have e2 : s.scan.tc + (max s.scan.tc (s.slotStart + Config.tRstL + Config.tRstH) - s.scan.tc) = s.slotStart + 960 := by
    simp only [Config.tRstL, Config.tRstH] at hs ⊢
    omega
  simp only [e1, e2, List.append_assoc, List.cons_append, List.nil_append]
  rfl

/-- The outcome of a reset slot is what its waits find. -/
theorem slotReset_outcome (s : State) : s.slotReset.1 = s.scan.outcome := by rw [slotReset_eq]

end Sys2Proof.Machine
end

