-- ==== Sys2Proof/Laws/SlotView.lean ====
section
/-!
SUPPORT. The slot primitives seen at the slot level (00_scope.md R10), and what they leave alone, for every timing.
-/

namespace Sys2Proof.Machine

/-! ### What a slot leaves alone -/

/-- Everything a slot of the line leaves alone: the search state, `busy`, the parameters, the inputs, the responses, and the
transient registers but `t_ref`. -/
structure SlotFrame (s t : State) : Prop where
  ld : t.ld = s.ld
  ldf : t.ldf = s.ldf
  addr : t.addr = s.addr
  busy : t.busy = s.busy
  timing : t.timing = s.timing
  rstEdges : t.rstEdges = s.rstEdges
  offers : t.offers = s.offers
  rsp : t.rsp = s.rsp
  draws : t.draws = s.draws
  p : t.tr.p = s.tr.p
  lastZero : t.tr.lastZero = s.tr.lastZero
  sh : t.tr.sh = s.tr.sh
  k : t.tr.k = s.tr.k
  j : t.tr.j = s.tr.j
  owDriveLow : t.owDriveLow = false
  crit : t.crit = false
  inOp : t.inOp = true

theorem slotWrite_frame (s : State) (b : Bool) : SlotFrame s (s.slotWrite b) := by
  constructor <;> simp [State.slotWrite, beginSlot_eq, State.advanceTo]

theorem slotRead_frame (s : State) : SlotFrame s s.slotRead.2 := by
  constructor <;> simp [State.slotRead, beginSlot_eq, State.advanceTo]

theorem slotReset_frame (s : State) : SlotFrame s s.slotReset.2 := by
  constructor <;> simp [slotReset_eq]

/-- Two frames in a row make one. -/
theorem SlotFrame.trans {s t u : State} (f : SlotFrame s t) (g : SlotFrame t u) : SlotFrame s u :=
  ⟨g.ld.trans f.ld, g.ldf.trans f.ldf, g.addr.trans f.addr, g.busy.trans f.busy, g.timing.trans f.timing,
    g.rstEdges.trans f.rstEdges, g.offers.trans f.offers, g.rsp.trans f.rsp, g.draws.trans f.draws, g.p.trans f.p,
    g.lastZero.trans f.lastZero, g.sh.trans f.sh, g.k.trans f.k, g.j.trans f.j, g.owDriveLow, g.crit, g.inOp⟩

theorem slotWrite_diags (s : State) (b : Bool) : (s.slotWrite b).diags = s.diags := by
  simp [State.slotWrite, beginSlot_eq, State.advanceTo]

theorem slotRead_diags (s : State) : s.slotRead.2.diags = s.diags := by
  simp [State.slotRead, beginSlot_eq, State.advanceTo]

theorem slotReset_diags (s : State) : s.slotReset.2.diags = s.diags := by
  simp [slotReset_eq]

/-! ### The environment and the bus events -/

theorem slotWrite_env (s : State) (b : Bool) : (s.slotWrite b).env = s.env.afterWrite b := by
  simp [State.slotWrite, beginSlot_eq, State.advanceTo]

theorem slotWrite_events (s : State) (b : Bool) : (s.slotWrite b).events = s.events ++ [.w b] := by
  simp [State.slotWrite, beginSlot_eq, State.advanceTo, State.events]

theorem slotRead_env (s : State) : s.slotRead.2.env = s.env.afterRead := by
  simp [State.slotRead, beginSlot_eq, State.advanceTo]

theorem slotRead_events (s : State) : s.slotRead.2.events = s.events ++ [.r s.slotRead.1] := by
  simp [State.slotRead, beginSlot_eq, State.advanceTo, State.events]

theorem slotReset_env (s : State) : s.slotReset.2.env = s.env.afterReset := by
  simp [slotReset_eq]

theorem slotReset_events (s : State) : s.slotReset.2.events = s.events ++ [.rst s.slotReset.1] := by
  simp [slotReset_eq, State.events]

/-! ### The answers of a slot-level environment -/

/-- A read slot samples the answer of a slot-level environment (20_memory.md R72). -/
theorem slotRead_answer {s : State} (h : s.env.slotLevel = true) : s.slotRead.1 = s.env.readAnswer := by
  have he : ∀ t, s.env.lowInRead t = !s.env.readAnswer := by
    intro t
    cases hv : s.env <;> simp [hv, Env.slotLevel, Env.lowInRead] at h ⊢
  simp [State.slotRead, beginSlot_eq, State.advanceTo, lineLevel, he]

theorem waitLevel_hit {line : Nat → Bool} {lv : Bool} {n t : Nat} (r : Nat) (h1 : t ≤ r) (h2 : r < t + n) (h3 : line r = lv)
    (h4 : ∀ x, t ≤ x → x < r → line x ≠ lv) : waitLevel line lv n t = some r := by
  cases h : waitLevel line lv n t with
  | none => exact absurd h3 (waitLevel_none.1 h r h1 h2)
  | some r' =>
    obtain ⟨g1, g2, g3, g4⟩ := waitLevel_some h
    rcases Nat.lt_trichotomy r r' with hl | rfl | hl
    · exact absurd h3 (g4 r h1 hl)
    · rfl
    · exact absurd g3 (h4 r' g1 hl)

/-- The waits of a reset slot find, on the waveform that stands for an answer, that answer (20_memory.md R72). -/
theorem resetScan_answerWave (incl : Bool) (tRel : Nat) (o : ResetOutcome) :
    (resetScan incl (fun t => !answerWave o (t - tRel)) tRel).outcome = o := by
  have h0 : 0 < budgetEnd incl tRel Config.tFloat - tRel := by simp [budgetEnd, Config.tFloat]; omega
  cases o with
  | noFloat =>
    have : waitWithin incl (fun t => !answerWave .noFloat (t - tRel)) true tRel tRel Config.tFloat = none :=
      waitLevel_none.2 fun x _ _ => by simp [answerWave]
    simp [resetScan, this]
  | noPres =>
    have h1 : waitWithin incl (fun t => !answerWave .noPres (t - tRel)) true tRel tRel Config.tFloat = some tRel :=
      waitLevel_hit tRel (Nat.le_refl _) (by omega) (by simp [answerWave]) (fun x h1 h2 => by omega)
    have h2 : waitWithin incl (fun t => !answerWave .noPres (t - tRel)) false tRel tRel Config.tPres = none :=
      waitLevel_none.2 fun x _ _ => by simp [answerWave]
    simp [resetScan, h1, h2]
  | pres =>
    have h1 : waitWithin incl (fun t => !answerWave .pres (t - tRel)) true tRel tRel Config.tFloat = some tRel :=
      waitLevel_hit tRel (Nat.le_refl _) (by omega) (by simp [answerWave]) (fun x h1 h2 => by omega)
    have h2 : waitWithin incl (fun t => !answerWave .pres (t - tRel)) false tRel tRel Config.tPres = some (tRel + 30) :=
      waitLevel_hit (tRel + 30) (by omega) (by simp [budgetEnd, Config.tPres]; omega) (by simp [answerWave])
        (fun x h1 h2 => by simp [answerWave]; omega)
    have h3 : waitWithin incl (fun t => !answerWave .pres (t - tRel)) true (tRel + 30) tRel Config.tPrel = some (tRel + 150) :=
      waitLevel_hit (tRel + 150) (by omega) (by simp [budgetEnd, Config.tPrel]; omega) (by simp [answerWave])
        (fun x h1 h2 => by simp [answerWave]; omega)
    simp [resetScan, h1, h2, h3]
  | presNoRel =>
    have h1 : waitWithin incl (fun t => !answerWave .presNoRel (t - tRel)) true tRel tRel Config.tFloat = some tRel :=
      waitLevel_hit tRel (Nat.le_refl _) (by omega) (by simp [answerWave]) (fun x h1 h2 => by omega)
    have h2 : waitWithin incl (fun t => !answerWave .presNoRel (t - tRel)) false tRel tRel Config.tPres = some (tRel + 30) :=
      waitLevel_hit (tRel + 30) (by omega) (by simp [budgetEnd, Config.tPres]; omega) (by simp [answerWave])
        (fun x h1 h2 => by simp [answerWave]; omega)
    have h3 : waitWithin incl (fun t => !answerWave .presNoRel (t - tRel)) true (tRel + 30) tRel Config.tPrel = none :=
      waitLevel_none.2 fun x h1 _ => by simp [answerWave]; omega
    simp [resetScan, h1, h2, h3]

/-- A reset slot has the answer of a slot-level environment as its outcome (00_scope.md R10). -/
theorem slotReset_answer {s : State} (h : s.env.slotLevel = true) : s.slotReset.1 = s.env.resetAnswer := by
  have he : ∀ tRel t, s.env.lowInReset tRel t = answerWave s.env.resetAnswer (t - tRel) := by
    intro tRel t
    cases hv : s.env <;> simp [hv, Env.slotLevel, Env.lowInReset] at h ⊢
  simp only [slotReset_eq, State.scan, he]
  exact resetScan_answerWave _ _ _

theorem slotLevel_afterWrite (e : Env) (b : Bool) : (e.afterWrite b).slotLevel = e.slotLevel := by
  cases e <;> rfl

theorem slotLevel_afterRead (e : Env) : e.afterRead.slotLevel = e.slotLevel := by
  cases e <;> rfl

theorem slotLevel_afterReset (e : Env) : e.afterReset.slotLevel = e.slotLevel := by
  cases e <;> rfl

/-! ### The primitives at the slot level -/

open SlotLevel (View)

/-- Two views are equal when their parts are. -/
theorem view_ext {v w : View} (h1 : v.ld = w.ld) (h2 : v.ldf = w.ldf) (h3 : v.addr = w.addr) (h4 : v.env = w.env)
    (h5 : v.events = w.events) (h6 : v.diags = w.diags) (h7 : v.rsp = w.rsp) : v = w := by
  cases v; cases w; simp_all

theorem slotWrite_view (s : State) (b : Bool) : (s.slotWrite b).view = s.view.write b := by
  have f := slotWrite_frame s b
  apply view_ext <;> simp [State.view, View.write, f.ld, f.ldf, f.addr, f.rsp, slotWrite_diags, slotWrite_env,
    slotWrite_events]

theorem slotRead_view {s : State} (h : s.env.slotLevel = true) :
    (s.slotRead.1, s.slotRead.2.view) = s.view.read := by
  have f := slotRead_frame s
  have a := slotRead_answer h
  simp only [View.read, Prod.mk.injEq]
  refine ⟨a, ?_⟩
  apply view_ext <;> simp [State.view, f.ld, f.ldf, f.addr, f.rsp, slotRead_diags, slotRead_env,
    slotRead_events, a]

theorem slotReset_view {s : State} (h : s.env.slotLevel = true) :
    (s.slotReset.1, s.slotReset.2.view) = s.view.resetSlot := by
  have f := slotReset_frame s
  have a := slotReset_answer h
  simp only [View.resetSlot, Prod.mk.injEq]
  refine ⟨a, ?_⟩
  apply view_ext <;> simp [State.view, f.ld, f.ldf, f.addr, f.rsp, slotReset_diags, slotReset_env,
    slotReset_events, a]

@[simp] theorem diag_view (c : DiagCode) (s : State) : (s.diag c).view = s.view.diag c := by
  simp [State.view, View.diag, State.events]

@[simp] theorem respond_view (v : Word) (l : Bool) (s : State) : (s.respond v l).view = s.view.respond v l := by
  simp [State.view, View.respond, State.events]

@[simp] theorem complete_view (v : Word) (s : State) : (s.complete v).view = s.view.respond v true := by
  simp [State.view, View.respond, State.events]

@[simp] theorem start_view (s : State) : s.start.view = s.view := by simp [State.view, State.events]

@[simp] theorem loadSh_view (v : Word) (s : State) : (s.loadSh v).view = s.view := by simp [State.view, State.events]

@[simp] theorem setK_view (v : BitVec 3) (s : State) : (s.setK v).view = s.view := by simp [State.view, State.events]

@[simp] theorem setJ_view (v : BitVec 3) (s : State) : (s.setJ v).view = s.view := by simp [State.view, State.events]

@[simp] theorem setP_view (v : BitVec 7) (s : State) : (s.setP v).view = s.view := by simp [State.view, State.events]

@[simp] theorem setLastZero_view (v : BitVec 7) (s : State) : (s.setLastZero v).view = s.view := by
  simp [State.view, State.events]

@[simp] theorem putShBit_view (b : Bool) (s : State) : (s.putShBit b).view = s.view := by
  simp [State.view, State.events]

@[simp] theorem resetSearchState_view (s : State) : s.resetSearchState.view = s.view.resetSearchState := by
  simp [State.view, View.resetSearchState, State.events]

/-- `ResetPulse()` at the slot level (40_signal_primitives.md R110). -/
theorem resetPulse_view {s : State} (h : s.env.slotLevel = true) :
    (s.resetPulse.1, s.resetPulse.2.view) = s.view.resetPulse := by
  have hv := slotReset_view h
  unfold State.resetPulse View.resetPulse
  rw [← hv]
  generalize s.slotReset = r
  obtain ⟨o, q⟩ := r
  cases o <;> simp

/-- A diagnostic adds nothing to what a slot leaves alone. -/
theorem SlotFrame.diag {s t : State} (f : SlotFrame s t) (c : DiagCode) : SlotFrame s (t.diag c) :=
  ⟨f.ld, f.ldf, f.addr, f.busy, f.timing, f.rstEdges, f.offers, f.rsp, f.draws, f.p, f.lastZero, f.sh, f.k, f.j,
    f.owDriveLow, f.crit, f.inOp⟩

theorem resetPulse_frame (s : State) : SlotFrame s s.resetPulse.2 := by
  have f := slotReset_frame s
  unfold State.resetPulse
  generalize s.slotReset = r at f
  obtain ⟨o, q⟩ := r
  cases o
  · exact f.diag _
  · exact f.diag _
  · exact f
  · exact f.diag _

theorem resetPulse_env (s : State) : s.resetPulse.2.env = s.env.afterReset := by
  have f := slotReset_env s
  unfold State.resetPulse
  generalize s.slotReset = r at f
  obtain ⟨o, q⟩ := r
  cases o <;> simpa using f

end Sys2Proof.Machine
end

