-- ==== Sys2Proof/Laws/Loops.lean ====
section
/-!
SUPPORT. What the byte and word loops do: one relation for a stretch of write slots, one for a stretch of read slots, each said
once and closed under composition, and a lemma for every loop.
-/

namespace Sys2Proof.Machine

open SlotLevel (View bitsOf numberOf)

/-! ### The slot level -/

theorem writeBits_nil (v : View) : v.writeBits [] = v := rfl

theorem writeBits_append (v : View) (a b : List Bool) : v.writeBits (a ++ b) = (v.writeBits a).writeBits b := by
  simp [View.writeBits]

theorem writeBits_events (bits : List Bool) : ∀ v : View, (v.writeBits bits).events = v.events ++ bits.map .w := by
  induction bits with
  | nil => intro v; simp [View.writeBits]
  | cons b bs ih =>
    intro v
    have h : (v.writeBits (b :: bs)).events = (v.write b).events ++ bs.map .w := ih (v.write b)
    rw [h]
    simp [View.write]

theorem writeBits_kept (bits : List Bool) : ∀ v : View, (v.writeBits bits).ld = v.ld ∧ (v.writeBits bits).ldf = v.ldf ∧
    (v.writeBits bits).addr = v.addr ∧ (v.writeBits bits).diags = v.diags ∧ (v.writeBits bits).rsp = v.rsp := by
  induction bits with
  | nil => intro v; simp [View.writeBits]
  | cons b bs ih => intro v; have := ih (v.write b); simpa [View.writeBits, View.write] using this

theorem writeBits_env (bits : List Bool) : ∀ v : View,
    (v.writeBits bits).env = bits.foldl (fun e b => e.afterWrite b) v.env := by
  induction bits with
  | nil => intro v; simp [View.writeBits]
  | cons b bs ih => intro v; have := ih (v.write b); simpa [View.writeBits, View.write] using this

theorem readBits_append : ∀ (m n : Nat) (v : View), v.readBits (m + n) =
    ((v.readBits m).1 ++ ((v.readBits m).2.readBits n).1, ((v.readBits m).2.readBits n).2)
  | 0, n, v => by simp [View.readBits]
  | m + 1, n, v => by
    rw [Nat.add_right_comm]
    simp [View.readBits, readBits_append m n]

theorem readBits_length : ∀ (n : Nat) (v : View), (v.readBits n).1.length = n
  | 0, v => rfl
  | n + 1, v => by simp [View.readBits, readBits_length n]

/-! ### Lists of bits and numbers -/

theorem numberOf_append_single (bs : List Bool) (b : Bool) :
    numberOf (bs ++ [b]) = numberOf bs + 2 ^ bs.length * b.toNat := by
  induction bs with
  | nil => simp [numberOf]
  | cons x xs ih => simp [numberOf, ih, Nat.pow_succ]; ring

theorem numberOf_testBit : ∀ (bs : List Bool) (i : Nat), (numberOf bs).testBit i = bs.getD i false
  | [], i => by simp [numberOf]
  | b :: bs, 0 => by
    simp [numberOf, Nat.testBit_zero, Nat.add_mod]
    cases b <;> simp
  | b :: bs, i + 1 => by
    rw [Nat.testBit_succ]
    have : (b.toNat + 2 * numberOf bs) / 2 = numberOf bs := by cases b <;> simp; omega
    simp [numberOf, this, numberOf_testBit bs i]

/-- The accumulator that holds the bits read so far. -/
theorem accumulated_getLsbD (bs : List Bool) {i : Nat} (h : i < 64) :
    (BitVec.ofNat 64 (numberOf bs)).getLsbD i = bs.getD i false := by
  rw [BitVec.getLsbD_ofNat, numberOf_testBit]
  simp [h]

theorem setBit_getLsbD (v : Word) (n i : Nat) (b : Bool) (hn : n < 64) (hi : i < 64) :
    (setBit v n b).getLsbD i = if i = n then b else v.getLsbD i := by
  unfold setBit
  rcases Nat.lt_trichotomy i n with h | h | h
  · have h1 : ¬ n ≤ i := by omega
    simp [hi, h, Nat.ne_of_lt h]
  · subst h
    cases b <;> simp [hi]
  · have h1 : ¬ i < n := by omega
    have h2 : i - n ≠ 0 := by omega
    have h3 : i ≠ n := by omega
    simp only [BitVec.getLsbD_or, BitVec.getLsbD_and, BitVec.getLsbD_not, BitVec.getLsbD_shiftLeft, hi, h1, h3,
      decide_true, decide_false, Bool.not_false, Bool.true_and, if_false]
    have h4 : (BitVec.setWidth 64 (BitVec.ofBool b)).getLsbD (i - n) = false := by
      simp [BitVec.getLsbD_setWidth]
      intro _
      omega
    simp [h4, BitVec.getLsbD_one, h2]

/-- Reading one bit more into the accumulator (41_framing.md R145). -/
theorem setBit_accumulated (bs : List Bool) (b : Bool) (h : bs.length < 64) :
    setBit (BitVec.ofNat 64 (numberOf bs)) bs.length b = BitVec.ofNat 64 (numberOf (bs ++ [b])) := by
  apply BitVec.eq_of_getLsbD_eq
  intro i hi
  rw [setBit_getLsbD _ _ _ _ h hi, accumulated_getLsbD _ hi, accumulated_getLsbD _ hi]
  split
  · next h' => subst h'; simp
  · next h' =>
    rcases Nat.lt_or_gt_of_ne h' with hl | hg
    · simp [List.getD_eq_getElem?_getD, List.getElem?_append_left hl]
    · have hg' : bs.length ≤ i := Nat.le_of_lt hg
      have h1 : i - bs.length ≠ 0 := by omega
      simp [List.getD_eq_getElem?_getD, List.getElem?_append_right hg', List.getElem?_eq_none hg']
      rw [List.getElem?_eq_none (by simp; omega)]
      rfl

/-! ### Stretches of slots -/

/-- What every stretch of slots leaves alone. -/
structure LineFrame (s t : State) : Prop where
  ld : t.ld = s.ld
  ldf : t.ldf = s.ldf
  addr : t.addr = s.addr
  busy : t.busy = s.busy
  timing : t.timing = s.timing
  rstEdges : t.rstEdges = s.rstEdges
  offers : t.offers = s.offers
  rsp : t.rsp = s.rsp
  draws : t.draws = s.draws

theorem LineFrame.refl (s : State) : LineFrame s s := ⟨rfl, rfl, rfl, rfl, rfl, rfl, rfl, rfl, rfl⟩

theorem LineFrame.trans {s t u : State} (f : LineFrame s t) (g : LineFrame t u) : LineFrame s u :=
  ⟨g.ld.trans f.ld, g.ldf.trans f.ldf, g.addr.trans f.addr, g.busy.trans f.busy, g.timing.trans f.timing,
    g.rstEdges.trans f.rstEdges, g.offers.trans f.offers, g.rsp.trans f.rsp, g.draws.trans f.draws⟩

theorem SlotFrame.line {s t : State} (f : SlotFrame s t) : LineFrame s t :=
  ⟨f.ld, f.ldf, f.addr, f.busy, f.timing, f.rstEdges, f.offers, f.rsp, f.draws⟩

/-- What holds of the outputs and of `inOp` once a slot has been performed. -/
def SlotDone (t : State) : Prop := t.owDriveLow = false ∧ t.crit = false ∧ t.inOp = true

theorem SlotFrame.done {s t : State} (f : SlotFrame s t) : SlotDone t := ⟨f.owDriveLow, f.crit, f.inOp⟩

/-- `t` is `s` after write slots that carried these bits. -/
structure Wrote (bits : List Bool) (s t : State) : Prop where
  frame : LineFrame s t
  diags : t.diags = s.diags
  view : t.view = s.view.writeBits bits
  looks : t.looks = s.looks
  start : s.timing.legal = true → t.slotStart = s.slotStart + bits.length * (s.timing.tWSlot + s.timing.tGap)
  done : bits ≠ [] → SlotDone t
  keeps : SlotDone s → SlotDone t

theorem Wrote.trans {a b : List Bool} {s t u : State} (f : Wrote a s t) (g : Wrote b t u) : Wrote (a ++ b) s u where
  frame := f.frame.trans g.frame
  diags := g.diags.trans f.diags
  view := by rw [writeBits_append, ← f.view, g.view]
  looks := g.looks.trans f.looks
  start h := by
    have h' := h
    rw [← f.frame.timing] at h'
    rw [g.start h', f.start h, f.frame.timing, List.length_append]
    ring
  done h := by
    cases b with
    | nil => exact g.keeps (f.done (by simpa using h))
    | cons x xs => exact g.done (by simp)
  keeps h := g.keeps (f.keeps h)

/-- `t` is `s` after read slots that sampled these bits. -/
structure ReadIn (bits : List Bool) (s t : State) : Prop where
  frame : LineFrame s t
  diags : t.diags = s.diags
  events : t.events = s.events ++ bits.map .r
  view : s.env.slotLevel = true → t.env.slotLevel = true ∧ (bits, t.view) = s.view.readBits bits.length
  start : s.timing.legal = true → t.slotStart = s.slotStart + bits.length * (Config.tRSlot + s.timing.tGap)
  done : bits ≠ [] → SlotDone t
  keeps : SlotDone s → SlotDone t

theorem ReadIn.trans {a b : List Bool} {s t u : State} (f : ReadIn a s t) (g : ReadIn b t u) : ReadIn (a ++ b) s u where
  frame := f.frame.trans g.frame
  diags := g.diags.trans f.diags
  events := by rw [g.events, f.events, List.map_append, List.append_assoc]
  view h := by
    obtain ⟨h1, h2⟩ := f.view h
    obtain ⟨h3, h4⟩ := g.view h1
    refine ⟨h3, ?_⟩
    rw [List.length_append, readBits_append, ← h2, ← h4]
  start h := by
    have h' := h
    rw [← f.frame.timing] at h'
    rw [g.start h', f.start h, f.frame.timing, List.length_append]
    ring
  done h := by
    cases b with
    | nil => exact g.keeps (f.done (by simpa using h))
    | cons x xs => exact g.done (by simp)
  keeps h := g.keeps (f.keeps h)

/-- One write slot. -/
theorem slotWrite_wrote (s : State) (b : Bool) : Wrote [b] s (s.slotWrite b) where
  frame := (slotWrite_frame s b).line
  diags := slotWrite_diags s b
  view := slotWrite_view s b
  looks := by simp [State.slotWrite, beginSlot_eq, State.advanceTo]
  start h := by rw [slotWrite_eq h]; simp [State.slotStart]; omega
  done _ := (slotWrite_frame s b).done
  keeps _ := (slotWrite_frame s b).done

/-- One read slot. -/
theorem slotRead_readIn (s : State) : ReadIn [s.slotRead.1] s s.slotRead.2 where
  frame := (slotRead_frame s).line
  diags := slotRead_diags s
  events := slotRead_events s
  view h := by
    refine ⟨by rw [slotRead_env, slotLevel_afterRead, h], ?_⟩
    have hv := slotRead_view h
    simp [View.readBits, ← hv]
  start h := by rw [slotRead_eq h]; simp [State.slotStart]; omega
  done _ := (slotRead_frame s).done
  keeps _ := (slotRead_frame s).done

/-! ### Registers between slots -/

/-- `t` is `s` but for transient registers. -/
def OnlyTransient (s t : State) : Prop := t = { s with tr := t.tr }

theorem OnlyTransient.wrote {s t : State} (h : OnlyTransient s t) : Wrote [] s t := by
  rw [h]
  exact ⟨⟨rfl, rfl, rfl, rfl, rfl, rfl, rfl, rfl, rfl⟩, rfl, rfl, rfl, fun _ => by simp [State.slotStart],
    fun h => absurd rfl h, id⟩

theorem OnlyTransient.readIn {s t : State} (h : OnlyTransient s t) : ReadIn [] s t := by
  rw [h]
  refine ⟨⟨rfl, rfl, rfl, rfl, rfl, rfl, rfl, rfl, rfl⟩, rfl, ?_, fun h => ⟨h, rfl⟩, fun _ => by simp [State.slotStart],
    fun h => absurd rfl h, id⟩
  simp [State.events]

/-! ### Writing bytes and words -/

/-- The bits that the counters pick out of `sh`, for a byte counter and a list of bit counters. -/
def pick (sh : Word) (j : BitVec 3) (ks : List (BitVec 3)) : List Bool :=
  ks.map fun k => sh.getLsbD (8 * j.toNat + k.toNat)

theorem foldl_shiftOutBit (ks : List (BitVec 3)) : ∀ s : State,
    Wrote (pick s.tr.sh s.tr.j ks) s (ks.foldl State.shiftOutBit s) ∧
    (ks.foldl State.shiftOutBit s).tr.sh = s.tr.sh ∧ (ks.foldl State.shiftOutBit s).tr.j = s.tr.j := by
  induction ks with
  | nil => intro s; exact ⟨OnlyTransient.wrote rfl, rfl, rfl⟩
  | cons k ks ih =>
    intro s
    have f := slotWrite_frame (s.setK k) (s.setK k).shBit
    have h1 : Wrote [(s.setK k).shBit] s (s.shiftOutBit k) :=
      (OnlyTransient.wrote (s := s) (t := s.setK k) rfl).trans (slotWrite_wrote _ _)
    obtain ⟨h2, h3, h4⟩ := ih (s.shiftOutBit k)
    have e1 : (s.shiftOutBit k).tr.sh = s.tr.sh := f.sh
    have e2 : (s.shiftOutBit k).tr.j = s.tr.j := f.j
    rw [e1, e2] at h2
    exact ⟨h1.trans h2, h3.trans e1, h4.trans e2⟩

theorem shiftOutByte_wrote (s : State) : Wrote (pick s.tr.sh s.tr.j counter) s s.shiftOutByte ∧
    s.shiftOutByte.tr.sh = s.tr.sh ∧ s.shiftOutByte.tr.j = s.tr.j :=
  foldl_shiftOutBit counter s

theorem foldl_shiftOutByteAt (js : List (BitVec 3)) : ∀ s : State,
    Wrote (js.flatMap fun j => pick s.tr.sh j counter) s (js.foldl State.shiftOutByteAt s) := by
  induction js with
  | nil => intro s; exact OnlyTransient.wrote rfl
  | cons j js ih =>
    intro s
    obtain ⟨h1, h2, -⟩ := shiftOutByte_wrote (s.setJ j)
    have h3 := ih (s.shiftOutByteAt j)
    have e : (s.shiftOutByteAt j).tr.sh = s.tr.sh := h2
    rw [e] at h3
    exact ((OnlyTransient.wrote (s := s) (t := s.setJ j) rfl).trans h1).trans h3

theorem pick_byte (v : Byte) : pick (ofByte v) 0#3 counter = bitsOf v := by
  simp [pick, counter, bitsOf, ofByte, List.range_succ]

theorem pick_word (v : Word) : (counter.flatMap fun j => pick v j counter) = bitsOf v := by
  simp [pick, counter, bitsOf, List.range_succ]

/-- `WriteByte(v)`: eight write slots, bit 0 first (41_framing.md R140). -/
theorem writeByte_wrote (v : Byte) (s : State) : Wrote (bitsOf v) s (s.writeByte v) := by
  have h := (shiftOutByte_wrote (s.loadSh (ofByte v))).1
  have e : pick (s.loadSh (ofByte v)).tr.sh (s.loadSh (ofByte v)).tr.j counter = bitsOf v := pick_byte v
  rw [e] at h
  exact (OnlyTransient.wrote (s := s) (t := s.loadSh (ofByte v)) rfl).trans h

/-- `WriteWord(v)`: sixty-four write slots, bit 0 of byte 0 first (41_framing.md R141). -/
theorem writeWord_wrote (v : Word) (s : State) : Wrote (bitsOf v) s (s.writeWord v) := by
  have h := foldl_shiftOutByteAt counter (s.loadSh v)
  have e : (counter.flatMap fun j => pick (s.loadSh v).tr.sh j counter) = bitsOf v := pick_word v
  rw [e] at h
  exact (OnlyTransient.wrote (s := s) (t := s.loadSh v) rfl).trans h

/-! ### Reading bytes and words -/

/-- The accumulator holds these bits. -/
def Holds (bits : List Bool) (s : State) : Prop := s.tr.sh = BitVec.ofNat 64 (numberOf bits)

theorem shiftInBit_readIn {bits : List Bool} {s : State} {k : BitVec 3} (h : Holds bits s)
    (hk : bits.length = 8 * s.tr.j.toNat + k.toNat) :
    ∃ b, ReadIn [b] s (s.shiftInBit k) ∧ Holds (bits ++ [b]) (s.shiftInBit k) ∧ (s.shiftInBit k).tr.j = s.tr.j := by
  have f := slotRead_frame (s.setK k)
  have hb : bits.length < 64 := by
    have h1 := s.tr.j.isLt
    have h2 := k.isLt
    omega
  refine ⟨(s.setK k).slotRead.1, ?_, ?_, ?_⟩
  · exact ((OnlyTransient.readIn (s := s) (t := s.setK k) rfl).trans (slotRead_readIn _)).trans
      (OnlyTransient.readIn (t := s.shiftInBit k) rfl)
  · have e1 : (s.setK k).slotRead.2.tr.sh = BitVec.ofNat 64 (numberOf bits) := f.sh.trans h
    have e2 : (s.setK k).slotRead.2.tr.shIndex = bits.length := by
      simp only [Transient.shIndex, f.k, f.j]
      exact hk.symm
    show setBit (s.setK k).slotRead.2.tr.sh (s.setK k).slotRead.2.tr.shIndex (s.setK k).slotRead.1 = _
    rw [e1, e2]
    exact setBit_accumulated bits _ hb
  · exact f.j

theorem foldl_shiftInBit : ∀ (ks : List (BitVec 3)) (bits : List Bool) (s : State), Holds bits s →
    (ks.map BitVec.toNat = List.range' (bits.length - 8 * s.tr.j.toNat) ks.length) → 8 * s.tr.j.toNat ≤ bits.length →
    ∃ more, more.length = ks.length ∧ ReadIn more s (ks.foldl State.shiftInBit s) ∧
      Holds (bits ++ more) (ks.foldl State.shiftInBit s) ∧ (ks.foldl State.shiftInBit s).tr.j = s.tr.j
  | [], bits, s, h, _, _ => ⟨[], rfl, OnlyTransient.readIn rfl, by simpa using h, rfl⟩
  | k :: ks, bits, s, h, hk, hj => by
    simp only [List.map_cons, List.length_cons, List.range'_succ, List.cons.injEq] at hk
    obtain ⟨b, h1, h2, h3⟩ := shiftInBit_readIn h (by omega : bits.length = 8 * s.tr.j.toNat + k.toNat)
    obtain ⟨more, g1, g2, g3, g4⟩ := foldl_shiftInBit ks (bits ++ [b]) (s.shiftInBit k) h2
      (by rw [h3, List.length_append, List.length_singleton, hk.2]; congr 1; omega)
      (by rw [h3, List.length_append]; omega)
    refine ⟨b :: more, by simp [g1], h1.trans g2, ?_, g4.trans h3⟩
    simpa using g3

theorem shiftInByte_readIn {bits : List Bool} {s : State} (h : Holds bits s) (hj : bits.length = 8 * s.tr.j.toNat) :
    ∃ more, more.length = 8 ∧ ReadIn more s s.shiftInByte ∧ Holds (bits ++ more) s.shiftInByte ∧
      s.shiftInByte.tr.j = s.tr.j :=
  foldl_shiftInBit counter bits s h (by rw [hj, Nat.sub_self]; rfl) (by omega)

theorem foldl_shiftInByteAt : ∀ (js : List (BitVec 3)) (bits : List Bool) (s : State), Holds bits s →
    (js.map fun j => 8 * j.toNat) = (List.range' 0 js.length).map (fun n => bits.length + 8 * n) →
    ∃ more, more.length = 8 * js.length ∧ ReadIn more s (js.foldl State.shiftInByteAt s) ∧
      Holds (bits ++ more) (js.foldl State.shiftInByteAt s)
  | [], bits, s, h, _ => ⟨[], rfl, OnlyTransient.readIn rfl, by simpa using h⟩
  | j :: js, bits, s, h, hj => by
    simp only [List.map_cons, List.length_cons, List.range'_succ, List.cons.injEq, Nat.mul_zero, Nat.add_zero] at hj
    have hj1 : bits.length = 8 * (s.setJ j).tr.j.toNat := hj.1.symm
    obtain ⟨b, h1, h2, h3, -⟩ := shiftInByte_readIn (s := s.setJ j) (bits := bits) h hj1
    obtain ⟨more, g1, g2, g3⟩ := foldl_shiftInByteAt js (bits ++ b) (s.shiftInByteAt j) h3 (by
      rw [hj.2, List.length_append, h1, show (0 + 1 : Nat) = 1 + 0 from rfl, ← List.map_add_range', List.map_map]
      apply List.map_congr_left
      intro a _
      show bits.length + 8 * (1 + a) = bits.length + 8 + 8 * a
      omega)
    exact ⟨b ++ more, by simp [h1, g1]; omega,
      ((OnlyTransient.readIn (s := s) (t := s.setJ j) rfl).trans h2).trans g2, by simpa using g3⟩

/-- `ReadByte()`: eight read slots, the first bit read is bit 0 (41_framing.md R142). -/
theorem readByte_readIn (s : State) : ∃ bits, bits.length = 8 ∧ ReadIn bits s s.readByte.2 ∧
    ofByte s.readByte.1 = BitVec.ofNat 64 (numberOf bits) := by
  obtain ⟨bits, h1, h2, h3, -⟩ := shiftInByte_readIn (bits := []) (s := s.loadSh 0#64) rfl rfl
  refine ⟨bits, h1, (OnlyTransient.readIn (s := s) (t := s.loadSh 0#64) rfl).trans h2, ?_⟩
  have h4 : (s.loadSh 0#64).shiftInByte.tr.sh = BitVec.ofNat 64 (numberOf bits) := by simpa [Holds] using h3
  show ofByte (lowByte (s.loadSh 0#64).shiftInByte.tr.sh) = _
  rw [h4]
  apply BitVec.eq_of_getLsbD_eq
  intro i hi
  rw [accumulated_getLsbD _ hi]
  rcases Nat.lt_or_ge i 8 with hl | hg
  · have h8 : (ofByte (lowByte (BitVec.ofNat 64 (numberOf bits)))).getLsbD i =
        (BitVec.ofNat 64 (numberOf bits)).getLsbD i := by
      simp only [ofByte, lowByte, BitVec.getLsbD_setWidth, BitVec.getLsbD_extractLsb']
      simp [hi, hl]
    rw [h8, accumulated_getLsbD _ hi]
  · have h8 : (ofByte (lowByte (BitVec.ofNat 64 (numberOf bits)))).getLsbD i = false := by
      simp only [ofByte, lowByte, BitVec.getLsbD_setWidth, BitVec.getLsbD_extractLsb']
      simp; omega
    rw [h8, List.getD_eq_getElem?_getD, List.getElem?_eq_none (by omega)]
    rfl

/-- `ReadWord()`: sixty-four read slots, the `n`-th of which becomes bit `n` (41_framing.md R143). -/
theorem readWord_readIn (s : State) : ∃ bits, bits.length = 64 ∧ ReadIn bits s s.readWord.2 ∧
    s.readWord.1 = BitVec.ofNat 64 (numberOf bits) := by
  obtain ⟨bits, h1, h2, h3⟩ := foldl_shiftInByteAt counter [] (s.loadSh 0#64) rfl (by decide)
  exact ⟨bits, h1, (OnlyTransient.readIn (s := s) (t := s.loadSh 0#64) rfl).trans h2, h3⟩

end Sys2Proof.Machine
end

