-- ==== Sys2Proof/Laws/Search.lean ====
section
/-!
SUPPORT. What the search does: one lemma for a position, one for the loop, one for a pass, for every environment, and the same at
the slot level.
-/

namespace Sys2Proof.Machine

open SlotLevel (View branch)

/-! ### One position -/

/-- What a pass leaves alone. -/
structure PassFrame (s t : State) : Prop where
  ld : t.ld = s.ld
  ldf : t.ldf = s.ldf
  busy : t.busy = s.busy
  timing : t.timing = s.timing
  rstEdges : t.rstEdges = s.rstEdges
  offers : t.offers = s.offers
  rsp : t.rsp = s.rsp
  diags : t.diags = s.diags
  draws : t.draws = s.draws

theorem PassFrame.refl (s : State) : PassFrame s s := ⟨rfl, rfl, rfl, rfl, rfl, rfl, rfl, rfl, rfl⟩

theorem PassFrame.trans {s t u : State} (f : PassFrame s t) (g : PassFrame t u) : PassFrame s u :=
  ⟨g.ld.trans f.ld, g.ldf.trans f.ldf, g.busy.trans f.busy, g.timing.trans f.timing, g.rstEdges.trans f.rstEdges,
    g.offers.trans f.offers, g.rsp.trans f.rsp, g.diags.trans f.diags, g.draws.trans f.draws⟩

/-- The branch the machine takes at a discrepancy is the slot level's (43_search.md R180). -/
theorem branch_discrepancy (s : State) : branch s.ld.toNat s.addr s.tr.p.toNat false false = some s.discrepancyBranch := by
  simp only [branch, State.discrepancyBranch, State.addrIndex, BitVec.lt_def, ← BitVec.toNat_inj]
  split_ifs <;> simp_all

/-- The two read slots of a position. -/
def State.pair (s : State) : Bool × Bool := (s.slotRead.1, s.slotRead.2.slotRead.1)

/-- The state after the two read slots of a position. -/
def State.afterPair (s : State) : State := s.slotRead.2.slotRead.2

theorem afterPair_frame (s : State) : SlotFrame s s.afterPair := (slotRead_frame s).trans (slotRead_frame _)

theorem afterPair_diags (s : State) : s.afterPair.diags = s.diags := (slotRead_diags _).trans (slotRead_diags s)

theorem afterPair_events (s : State) : s.afterPair.events = s.events ++ [.r s.pair.1, .r s.pair.2] := by
  simp [State.afterPair, State.pair, slotRead_events]

theorem afterPair_readIn (s : State) : ReadIn [s.pair.1, s.pair.2] s s.afterPair :=
  (slotRead_readIn s).trans (slotRead_readIn _)

/-- A position is left at once where the pair is `(1, 1)` (43_search.md R178). -/
theorem searchPosition_abort {s : State} (h : branch s.ld.toNat s.addr s.tr.p.toNat s.pair.1 s.pair.2 = none) :
    s.searchPosition = (false, s.afterPair) ∧ s.pair = (true, true) := by
  have hp : s.pair = (true, true) := by
    cases h1 : s.pair.1 <;> cases h2 : s.pair.2 <;> simp [branch, h1, h2] at h
    · split_ifs at h
    · exact Prod.ext h1 h2
  have h1 : s.slotRead.1 = true := congrArg Prod.fst hp
  have h2 : s.slotRead.2.slotRead.1 = true := congrArg Prod.snd hp
  refine ⟨?_, hp⟩
  simp only [State.searchPosition, h1, h2]
  rfl

/-- A position otherwise: the branch is put into `ADDR` and written back (43_search.md R179 to R183). -/
structure Taken (d : Bool) (s t : State) : Prop where
  frame : PassFrame s t
  addr : t.addr = setBit s.addr (s.tr.p.toNat - 1) d
  p : t.tr.p = s.tr.p + 1#7
  lastZero : t.tr.lastZero = if !s.pair.1 && !s.pair.2 && !d then s.tr.p else s.tr.lastZero
  events : t.events = s.events ++ [.r s.pair.1, .r s.pair.2, .w d]
  view : t.view = View.write { s.afterPair.view with addr := setBit s.addr (s.tr.p.toNat - 1) d } d
  done : SlotDone t
  start : s.timing.legal = true → t.slotStart =
    s.slotStart + 2 * (Config.tRSlot + s.timing.tGap) + (s.timing.tWSlot + s.timing.tGap)

theorem takeBranch_taken {s : State} (d : Bool) :
    Taken d s (s.afterPair.takeBranch (!s.pair.1 && !s.pair.2) d) := by
  have f := afterPair_frame s
  generalize hb : (!s.pair.1 && !s.pair.2) = disc
  generalize hq : (if disc && !d then s.afterPair.setLastZero s.afterPair.tr.p else s.afterPair) = q
  have hq0 : OnlyTransient s.afterPair q := by subst hq; split <;> rfl
  have hp : q.tr.p = s.tr.p := by subst hq; split <;> simp [f.p]
  have hz : q.tr.lastZero = if disc && !d then s.tr.p else s.tr.lastZero := by
    subst hq; split <;> simp [f.p, f.lastZero]
  have ht : s.afterPair.takeBranch disc d =
      ((q.setAddrBit d).slotWrite d).setP (((q.setAddrBit d).slotWrite d).tr.p + 1#7) := by
    subst hq; rfl
  rw [ht]
  have g := slotWrite_frame (q.setAddrBit d) d
  have hr : ReadIn [s.pair.1, s.pair.2] s q := (afterPair_readIn s).trans hq0.readIn
  have hw := slotWrite_wrote (q.setAddrBit d) d
  have hv : q.view = s.afterPair.view := by rw [hq0]; rfl
  have ha : q.addr = s.addr := hr.frame.addr
  constructor
  · exact ⟨g.ld.trans hr.frame.ld, g.ldf.trans hr.frame.ldf, g.busy.trans hr.frame.busy, g.timing.trans hr.frame.timing,
      g.rstEdges.trans hr.frame.rstEdges, g.offers.trans hr.frame.offers, g.rsp.trans hr.frame.rsp,
      (slotWrite_diags _ d).trans hr.diags, g.draws.trans hr.frame.draws⟩
  · simp [g.addr, State.addrIndex, hp, ha]
  · simp [g.p, hp]
  · rw [hb, ← hz]
    exact g.lastZero
  · have e : (q.setAddrBit d).events = q.events := rfl
    have : ((q.setAddrBit d).slotWrite d).events = s.events ++ [.r s.pair.1, .r s.pair.2, .w d] := by
      rw [slotWrite_events, e, hr.events]; simp
    simpa [State.events] using this
  · rw [setP_view, slotWrite_view]
    congr 1
    rw [← hv]
    simp [State.view, State.addrIndex, hp, ha, State.events]
  · exact ⟨g.owDriveLow, g.crit, g.inOp⟩
  · intro h
    have h1 := hr.start h
    have h' : (q.setAddrBit d).timing.legal = true := by
      show q.timing.legal = true
      rw [hr.frame.timing]; exact h
    have h2 := hw.start h'
    have e1 : ((q.setAddrBit d).slotWrite d).slotStart = q.slotStart + 1 * (q.timing.tWSlot + q.timing.tGap) := h2
    have e2 : (((q.setAddrBit d).slotWrite d).setP (((q.setAddrBit d).slotWrite d).tr.p + 1#7)).slotStart =
      ((q.setAddrBit d).slotWrite d).slotStart := rfl
    rw [e2, e1, h1, hr.frame.timing]
    simp

/-- A position whose pair is not `(1, 1)`. -/
theorem searchPosition_taken {s : State} {d : Bool}
    (h : branch s.ld.toNat s.addr s.tr.p.toNat s.pair.1 s.pair.2 = some d) :
    s.searchPosition.1 = true ∧ Taken d s s.searchPosition.2 := by
  have ht := takeBranch_taken (s := s) d
  have f := afterPair_frame s
  have hsp : s.searchPosition = match s.pair.1, s.pair.2 with
      | true, true => (false, s.afterPair)
      | true, false => (true, s.afterPair.takeBranch false true)
      | false, true => (true, s.afterPair.takeBranch false false)
      | false, false => (true, s.afterPair.takeBranch true s.afterPair.discrepancyBranch) := rfl
  cases h1 : s.pair.1 <;> cases h2 : s.pair.2 <;> rw [hsp] <;> simp only [h1, h2] at h ht ⊢
  · have hd : s.afterPair.discrepancyBranch = s.discrepancyBranch := by
      simp only [State.discrepancyBranch, State.addrIndex, f.p, f.ld, f.addr]
    rw [branch_discrepancy] at h
    obtain rfl := Option.some.inj h
    rw [hd]
    exact ⟨trivial, ht⟩
  · simp [branch] at h
    subst h
    exact ⟨trivial, ht⟩
  · simp [branch] at h
    subst h
    exact ⟨trivial, ht⟩
  · simp [branch] at h

/-! ### The loop -/

/-- What the loop of step 4 does from position `p`, `n` more positions, for every environment: it takes `taken` positions and
then either ends or leaves early (43_search.md R176 to R183, R189). -/
structure Looped (n : Nat) (s : State) (r : Bool × State) (taken : Nat) : Prop where
  frame : PassFrame s r.2
  count : if r.1 then taken = n else taken < n
  eventCount : r.2.events.length = s.events.length + 3 * taken + (if r.1 then 0 else 2)
  low : ∀ i, i < s.tr.p.toNat - 1 → r.2.addr.getLsbD i = s.addr.getLsbD i
  lastZero : r.2.tr.lastZero = s.tr.lastZero ∨
    (s.tr.p.toNat ≤ r.2.tr.lastZero.toNat ∧ r.2.tr.lastZero.toNat ≤ 64 ∧
      r.2.addr.getLsbD (r.2.tr.lastZero.toNat - 1) = false)
  start : s.timing.legal = true → r.2.slotStart = s.slotStart +
    taken * (2 * (Config.tRSlot + s.timing.tGap) + (s.timing.tWSlot + s.timing.tGap)) +
    (if r.1 then 0 else 2 * (Config.tRSlot + s.timing.tGap))
  done : SlotDone s → SlotDone r.2
  view : s.env.slotLevel = true → r.2.env.slotLevel = true ∧
    (if r.1 then some r.2.tr.lastZero.toNat else none, r.2.view) =
      View.positions n s.tr.p.toNat s.tr.lastZero.toNat s.view

theorem view_afterPair {s : State} (h : s.env.slotLevel = true) :
    s.pair.1 = s.view.read.1 ∧ s.pair.2 = s.view.read.2.read.1 ∧ s.afterPair.view = s.view.read.2.read.2 ∧
      s.slotRead.2.env.slotLevel = true := by
  have h1 := slotRead_view h
  have h2 : s.slotRead.2.env.slotLevel = true := by rw [slotRead_env, slotLevel_afterRead, h]
  have h3 := slotRead_view h2
  refine ⟨congrArg Prod.fst h1, ?_, ?_, h2⟩
  · rw [← congrArg Prod.snd h1]; exact congrArg Prod.fst h3
  · rw [← congrArg Prod.snd h1]; exact congrArg Prod.snd h3

theorem searchLoop_looped : ∀ (n : Nat) (s : State), s.tr.p.toNat + n = 65 → 1 ≤ s.tr.p.toNat →
    ∃ taken, Looped n s (State.searchLoop n s) taken
  | 0, s, _, _ => ⟨0, PassFrame.refl s, rfl, rfl, fun _ _ => rfl, .inl rfl, fun _ => by simp [State.searchLoop], id,
      fun h => ⟨h, rfl⟩⟩
  | n + 1, s, hp, h1 => by
    have hsl : State.searchLoop (n + 1) s =
        match s.searchPosition.1 with
        | false => (false, s.searchPosition.2)
        | true => State.searchLoop n s.searchPosition.2 := rfl
    cases hb : branch s.ld.toNat s.addr s.tr.p.toNat s.pair.1 s.pair.2 with
    | none =>
      obtain ⟨e, hpair⟩ := searchPosition_abort hb
      have hr : State.searchLoop (n + 1) s = (false, s.afterPair) := by rw [hsl, e]
      have f := afterPair_frame s
      refine ⟨0, ?_⟩
      rw [hr]
      refine ⟨⟨f.ld, f.ldf, f.busy, f.timing, f.rstEdges, f.offers, f.rsp, afterPair_diags s, f.draws⟩, Nat.succ_pos n, ?_,
        fun i _ => by simp [f.addr], .inl f.lastZero, ?_, fun _ => f.done, ?_⟩
      · simp [afterPair_events]
      · intro h
        have := (afterPair_readIn s).start h
        simpa using this
      · intro h
        obtain ⟨v1, v2, v3, v4⟩ := view_afterPair h
        have hb' : branch s.view.ld s.view.addr s.tr.p.toNat s.view.read.1 s.view.read.2.read.1 = none := by
          rw [← v1, ← v2]; exact hb
        refine ⟨(((afterPair_readIn s).view h).1), ?_⟩
        simp [View.positions, hb', v3]
    | some d =>
      obtain ⟨e, t⟩ := searchPosition_taken hb
      have hr : State.searchLoop (n + 1) s = State.searchLoop n s.searchPosition.2 := by rw [hsl, e]
      have hp' : s.searchPosition.2.tr.p.toNat = s.tr.p.toNat + 1 := by
        rw [t.p, BitVec.toNat_add]
        show (s.tr.p.toNat + 1) % 128 = _
        omega
      obtain ⟨k, L⟩ := searchLoop_looped n s.searchPosition.2 (by omega) (by omega)
      rw [hr]
      generalize State.searchLoop n s.searchPosition.2 = r at L
      have haddr : ∀ i, i < s.tr.p.toNat → r.2.addr.getLsbD i = (setBit s.addr (s.tr.p.toNat - 1) d).getLsbD i := by
        intro i hi
        rw [L.low i (by omega), t.addr]
      have hat : r.2.addr.getLsbD (s.tr.p.toNat - 1) = d := by
        rw [haddr _ (by omega), setBit_getLsbD _ _ _ _ (by omega) (by omega)]
        simp
      refine ⟨k + 1, t.frame.trans L.frame, ?_, ?_, ?_, ?_, ?_, fun _ => L.done t.done, ?_⟩
      · have := L.count
        cases hr1 : r.1 <;> simp [hr1] at this ⊢ <;> omega
      · rw [L.eventCount, t.events]
        simp
        omega
      · intro i hi
        rw [haddr i (by omega), setBit_getLsbD _ _ _ _ (by omega) (by omega)]
        simp; omega
      · rcases L.lastZero with hz | ⟨z1, z2, z3⟩
        · rw [t.lastZero] at hz
          split at hz
          · next hd =>
            refine .inr ?_
            rw [hz]
            refine ⟨Nat.le_refl _, by omega, ?_⟩
            rw [hat]
            simp at hd
            exact hd.2
          · exact .inl hz
        · exact .inr ⟨by omega, z2, z3⟩
      · intro h
        have h' := h
        rw [← t.frame.timing] at h'
        rw [L.start h', t.start h, t.frame.timing]
        split <;> ring
      · intro h
        obtain ⟨v1, v2, v3, v4⟩ := view_afterPair h
        have hview := t.view
        have hsl' : s.searchPosition.2.env.slotLevel = true := by
          have : s.searchPosition.2.view.env.slotLevel = true := by
            rw [hview]
            show (Env.afterWrite d s.afterPair.env).slotLevel = true
            rw [slotLevel_afterWrite]
            exact ((afterPair_readIn s).view h).1
          exact this
        obtain ⟨w1, w2⟩ := L.view hsl'
        refine ⟨w1, ?_⟩
        rw [w2, hp', hview, v3]
        have hb' : branch s.view.ld s.view.addr s.tr.p.toNat s.view.read.1 s.view.read.2.read.1 = some d := by
          rw [← v1, ← v2]; exact hb
        have hz : s.searchPosition.2.tr.lastZero.toNat =
            if !s.view.read.1 && !s.view.read.2.read.1 && !d then s.tr.p.toNat else s.tr.lastZero.toNat := by
          rw [t.lastZero, v1, v2]
          split <;> rfl
        conv_rhs => unfold View.positions
        simp only [hb', hz]
        rfl

/-! ### A pass -/

/-- The start of step 4: the command byte is out, `p` is 1, `last_zero` is 0 (43_search.md R175). -/
def State.passStart (s : State) : State := ((s.writeByte Config.romSearch).setLastZero 0#7).setP 1#7

theorem passStart_wrote (s : State) : Wrote (SlotLevel.bitsOf Config.romSearch) s s.passStart := by
  have h := (writeByte_wrote Config.romSearch s).trans
    (OnlyTransient.wrote (s := s.writeByte Config.romSearch) (t := s.passStart) rfl)
  simpa using h

/-- The loop of step 4 in a pass that starts from `s`, after the reset slot. -/
def State.passLoop (s : State) : Bool × State := State.searchLoop 64 s.passStart

theorem passLoop_looped (s : State) : ∃ taken, Looped 64 s.passStart s.passLoop taken :=
  searchLoop_looped 64 s.passStart rfl (Nat.le_refl 1)

/-- How SearchOne ends: the five ways of 43_search.md R172 to R187. -/
inductive SearchEnds (s : State) : Word × State → Prop
  /-- Step 1: the flag was set, nothing happens (R173). -/
  | done : s.ldf = true → SearchEnds s (0#64, s)
  /-- Step 2: the reset slot found no device (R174). -/
  | noDevice : s.ldf = false → s.resetPulse.1 = false → SearchEnds s (0#64, s.resetPulse.2.resetSearchState)
  /-- Step 4: nobody answered at a position (R178). -/
  | aborted : s.ldf = false → s.resetPulse.1 = true → s.resetPulse.2.passLoop.1 = false →
      SearchEnds s (0#64, s.resetPulse.2.passLoop.2.resetSearchState)
  /-- Step 6: byte 0 of the address is zero (R185). -/
  | invalid : s.ldf = false → s.resetPulse.1 = true → s.resetPulse.2.passLoop.1 = true →
      lowByte s.resetPulse.2.passLoop.2.addr = 0#8 → SearchEnds s (0#64, s.resetPulse.2.passLoop.2.resetSearchState)
  /-- Step 7: an address was found (R184, R187). -/
  | found : s.ldf = false → s.resetPulse.1 = true → s.resetPulse.2.passLoop.1 = true →
      lowByte s.resetPulse.2.passLoop.2.addr ≠ 0#8 →
      SearchEnds s (s.resetPulse.2.passLoop.2.addr, s.resetPulse.2.passLoop.2.commitPass)

theorem searchOne_ends (s : State) : SearchEnds s s.searchOne := by
  unfold State.searchOne
  cases h1 : s.ldf with
  | true => exact .done h1
  | false =>
    cases h2 : s.resetPulse.1 with
    | false => simp only [h2]; exact .noDevice h1 h2
    | true =>
      simp only [h2]
      have e : s.resetPulse.2.traverse = match s.resetPulse.2.passLoop.1 with
        | true => s.resetPulse.2.passLoop.2.finishPass
        | false => s.resetPulse.2.passLoop.2.failPass := rfl
      rw [e]
      cases h3 : s.resetPulse.2.passLoop.1 with
      | false => exact .aborted h1 h2 h3
      | true =>
        have hv : s.resetPulse.2.passLoop.2.commitPass.addressValid =
            (lowByte s.resetPulse.2.passLoop.2.addr != 0#8) := rfl
        simp only [State.finishPass]
        by_cases h4 : lowByte s.resetPulse.2.passLoop.2.addr = 0#8
        · have h5 : s.resetPulse.2.passLoop.2.commitPass.addressValid = false := by rw [hv, h4]; rfl
          simp only [h5, Bool.false_eq_true, if_false]
          exact .invalid h1 h2 h3 h4
        · have h5 : s.resetPulse.2.passLoop.2.commitPass.addressValid = true := by rw [hv]; simpa using h4
          simp only [h5, if_true]
          exact .found h1 h2 h3 h4

/-- The flag is still clear when the loop has ended. -/
theorem passLoop_ldf (s : State) : s.passLoop.2.ldf = s.ldf ∧ s.passLoop.2.ld = s.ld := by
  obtain ⟨k, L⟩ := passLoop_looped s
  have w := (passStart_wrote s).frame
  exact ⟨L.frame.ldf.trans w.ldf, L.frame.ld.trans w.ld⟩

/-- SearchOne at the slot level (43_search.md R171; 00_scope.md R10). -/
theorem searchOne_view {s : State} (h : s.env.slotLevel = true) :
    s.searchOne.2.env.slotLevel = true ∧ (s.searchOne.1, s.searchOne.2.view) = s.view.searchOne := by
  have he := searchOne_ends s
  have hr := resetPulse_view h
  have hr1 : s.view.resetPulse.1 = s.resetPulse.1 := (congrArg Prod.fst hr).symm
  have hr2 : s.view.resetPulse.2 = s.resetPulse.2.view := (congrArg Prod.snd hr).symm
  have hl : s.resetPulse.2.env.slotLevel = true := by rw [resetPulse_env, slotLevel_afterReset, h]
  have hw := (passStart_wrote s.resetPulse.2).view
  have hwl : s.resetPulse.2.passStart.env.slotLevel = true := by
    have h1 : s.resetPulse.2.passStart.env = (s.resetPulse.2.view.writeBits (SlotLevel.bitsOf Config.romSearch)).env :=
      congrArg View.env hw
    rw [h1, writeBits_env]
    have : ∀ (bits : List Bool) (e : Env), e.slotLevel = true →
        (bits.foldl (fun e b => e.afterWrite b) e).slotLevel = true := by
      intro bits
      induction bits with
      | nil => intro e he; exact he
      | cons b bs ih => intro e he; exact ih _ ((slotLevel_afterWrite e b).trans he)
    exact this _ _ hl
  obtain ⟨k, L⟩ := passLoop_looped s.resetPulse.2
  obtain ⟨w1, w2⟩ := L.view hwl
  have e1 : s.resetPulse.2.passStart.tr.p.toNat = 1 := rfl
  have e2 : s.resetPulse.2.passStart.tr.lastZero.toNat = 0 := rfl
  rw [e1, e2, hw] at w2
  have hv : s.view.searchOne = if s.ldf then (0#64, s.view) else if s.resetPulse.1 then
      match View.positions 64 1 0 (s.resetPulse.2.view.writeBits (SlotLevel.bitsOf Config.romSearch)) with
      | (none, v) => v.failPass
      | (some lastZero, v) =>
        if v.addr.extractLsb' 0 8 = 0#8 then v.failPass
        else (v.addr, { v with ld := lastZero, ldf := decide (lastZero = 0) })
    else s.resetPulse.2.view.failPass := by
    simp only [View.searchOne, hr1, hr2]
    rfl
  rw [hv, ← w2]
  generalize s.searchOne = r at he
  cases he with
  | done h1 => simp [h1, h]
  | noDevice h1 h2 => simp [h1, h2, View.failPass, hl]
  | aborted h1 h2 h3 => simp [h1, h2, h3, View.failPass, w1]
  | invalid h1 h2 h3 h4 =>
    have h5 : BitVec.extractLsb' 0 8 s.resetPulse.2.passLoop.2.addr = 0#8 := h4
    have h6 : BitVec.extractLsb' 0 8 s.resetPulse.2.passLoop.2.view.addr = 0#8 := h4
    simp [h1, h2, h3, h6, View.failPass, w1]
  | found h1 h2 h3 h4 =>
    have h6 : ¬ BitVec.extractLsb' 0 8 s.resetPulse.2.passLoop.2.view.addr = 0#8 := h4
    have h7 : s.resetPulse.2.passLoop.2.ldf = false := by
      rw [(passLoop_ldf _).1, (resetPulse_frame s).ldf, h1]
    simp only [h1, h2, h3, h6, w1, if_true, if_false, Bool.false_eq_true, State.commitPass_env, true_and]
    refine Prod.ext rfl ?_
    apply view_ext <;> simp [State.view, State.events, h7]
    by_cases hz : s.resetPulse.2.passLoop.2.tr.lastZero = 0#7
    · simp [hz]
    · have : s.resetPulse.2.passLoop.2.tr.lastZero.toNat ≠ 0 := fun hh => hz (BitVec.eq_of_toNat_eq hh)
      simp [hz, this]

end Sys2Proof.Machine
end

