-- ==== Sys2Proof/Laws/Acts.lean ====
section
/-!
SUPPORT. Every operation is made of slots, beats, diagnostics and register transfers. That is said once, as a relation with an
induction principle; what the histories keep is then proved for each kind of act, not for each operation.
-/

namespace Sys2Proof.Machine

/-- A register transfer: the line, the time, the inputs, the channels and the histories are untouched. -/
structure SameLine (s t : State) : Prop where
  owDriveLow : t.owDriveLow = s.owDriveLow
  crit : t.crit = s.crit
  now : t.now = s.now
  inOp : t.inOp = s.inOp
  timing : t.timing = s.timing
  env : t.env = s.env
  rstEdges : t.rstEdges = s.rstEdges
  offers : t.offers = s.offers
  rsp : t.rsp = s.rsp
  diags : t.diags = s.diags
  bus : t.bus = s.bus
  trace : t.trace = s.trace
  looks : t.looks = s.looks

/-- `t` is reached from `s` by slots, diagnostics, beats and register transfers. -/
inductive Acts : State → State → Prop
  | refl (s : State) : Acts s s
  | write {s t : State} (b : Bool) : Acts s t → Acts s (t.slotWrite b)
  | read {s t : State} : Acts s t → Acts s t.slotRead.2
  | reset {s t : State} : Acts s t → Acts s t.slotReset.2
  | diag {s t : State} (c : DiagCode) : Acts s t → Acts s (t.diag c)
  | respond {s t : State} (v : Word) (l : Bool) : Acts s t → Acts s (t.respond v l)
  | regs {s t u : State} : Acts s t → SameLine t u → Acts s u

theorem SameLine.transient (s : State) (x : Transient) : SameLine s { s with tr := x } :=
  ⟨rfl, rfl, rfl, rfl, rfl, rfl, rfl, rfl, rfl, rfl, rfl, rfl, rfl⟩

theorem SameLine.loadSh (s : State) (v : Word) : SameLine s (s.loadSh v) := SameLine.transient s _

theorem SameLine.setK (s : State) (v : BitVec 3) : SameLine s (s.setK v) := SameLine.transient s _

theorem SameLine.setJ (s : State) (v : BitVec 3) : SameLine s (s.setJ v) := SameLine.transient s _

theorem SameLine.setP (s : State) (v : BitVec 7) : SameLine s (s.setP v) := SameLine.transient s _

theorem SameLine.setLastZero (s : State) (v : BitVec 7) : SameLine s (s.setLastZero v) := SameLine.transient s _

theorem SameLine.putShBit (s : State) (b : Bool) : SameLine s (s.putShBit b) := SameLine.transient s _

/-! ### The operations as acts -/

variable {s t : State}

/-- A loop of acts is acts. -/
theorem Acts.foldl {α : Type} {f : State → α → State} (hf : ∀ q a, Acts s q → Acts s (f q a)) :
    ∀ (as : List α) {q : State}, Acts s q → Acts s (as.foldl f q)
  | [], _, h => h
  | a :: as, _, h => Acts.foldl hf as (hf _ a h)

theorem Acts.shiftOutByte (h : Acts s t) : Acts s t.shiftOutByte :=
  Acts.foldl (f := State.shiftOutBit) (fun q k hq => (hq.regs (SameLine.setK q k)).write (q.setK k).shBit) counter h

theorem Acts.shiftInByte (h : Acts s t) : Acts s t.shiftInByte :=
  Acts.foldl (f := State.shiftInBit)
    (fun q k hq => ((hq.regs (SameLine.setK q k)).read).regs (SameLine.putShBit _ (q.setK k).slotRead.1)) counter h

theorem Acts.writeByte (h : Acts s t) (v : Byte) : Acts s (t.writeByte v) :=
  (h.regs (SameLine.loadSh t (ofByte v))).shiftOutByte

theorem Acts.writeWord (h : Acts s t) (v : Word) : Acts s (t.writeWord v) :=
  Acts.foldl (f := State.shiftOutByteAt) (fun q j hq => (hq.regs (SameLine.setJ q j)).shiftOutByte) counter
    (h.regs (SameLine.loadSh t v))

theorem Acts.readByte (h : Acts s t) : Acts s t.readByte.2 := (h.regs (SameLine.loadSh t 0#64)).shiftInByte

theorem Acts.readWord (h : Acts s t) : Acts s t.readWord.2 :=
  Acts.foldl (f := State.shiftInByteAt) (fun q j hq => (hq.regs (SameLine.setJ q j)).shiftInByte) counter
    (h.regs (SameLine.loadSh t 0#64))

theorem Acts.resetPulse (h : Acts s t) : Acts s t.resetPulse.2 := by
  have hr := h.reset
  unfold State.resetPulse
  generalize t.slotReset = r at hr
  obtain ⟨o, q⟩ := r
  cases o
  · exact hr.diag _
  · exact hr.diag _
  · exact hr
  · exact hr.diag _

theorem SameLine.resetSearchState (s : State) : SameLine s s.resetSearchState :=
  ⟨rfl, rfl, rfl, rfl, rfl, rfl, rfl, rfl, rfl, rfl, rfl, rfl, rfl⟩

theorem SameLine.commitPass (s : State) : SameLine s s.commitPass :=
  ⟨rfl, rfl, rfl, rfl, rfl, rfl, rfl, rfl, rfl, rfl, rfl, rfl, rfl⟩

theorem SameLine.setAddrBit (s : State) (d : Bool) : SameLine s (s.setAddrBit d) :=
  ⟨rfl, rfl, rfl, rfl, rfl, rfl, rfl, rfl, rfl, rfl, rfl, rfl, rfl⟩

theorem Acts.takeBranch (h : Acts s t) (x d : Bool) : Acts s (t.takeBranch x d) := by
  unfold State.takeBranch
  have h1 : Acts s (if x && !d then t.setLastZero t.tr.p else t) := by
    split
    · exact h.regs (SameLine.setLastZero t t.tr.p)
    · exact h
  exact ((h1.regs (SameLine.setAddrBit _ d)).write d).regs (SameLine.setP _ _)

theorem Acts.searchPosition (h : Acts s t) : Acts s t.searchPosition.2 := by
  have h2 : Acts s t.afterPair := h.read.read
  have hsp : t.searchPosition = match t.pair.1, t.pair.2 with
      | true, true => (false, t.afterPair)
      | true, false => (true, t.afterPair.takeBranch false true)
      | false, true => (true, t.afterPair.takeBranch false false)
      | false, false => (true, t.afterPair.takeBranch true t.afterPair.discrepancyBranch) := rfl
  rw [hsp]
  cases t.pair.1 <;> cases t.pair.2
  · exact h2.takeBranch _ _
  · exact h2.takeBranch _ _
  · exact h2.takeBranch _ _
  · exact h2

theorem Acts.searchLoop : ∀ (n : Nat) {t : State}, Acts s t → Acts s (State.searchLoop n t).2
  | 0, _, h => h
  | n + 1, t, h => by
    have h1 := h.searchPosition
    have hsl : State.searchLoop (n + 1) t =
        match t.searchPosition.1 with
        | false => (false, t.searchPosition.2)
        | true => State.searchLoop n t.searchPosition.2 := rfl
    rw [hsl]
    cases t.searchPosition.1
    · exact h1
    · exact Acts.searchLoop n h1

theorem Acts.passLoop (h : Acts s t) : Acts s t.passLoop.2 :=
  Acts.searchLoop 64 (((h.writeByte Config.romSearch).regs (SameLine.setLastZero _ 0#7)).regs (SameLine.setP _ 1#7))

theorem Acts.searchOne (h : Acts s t) : Acts s t.searchOne.2 := by
  have he := searchOne_ends t
  generalize t.searchOne = r at he
  cases he with
  | done => exact h
  | noDevice => exact h.resetPulse.regs (SameLine.resetSearchState _)
  | aborted => exact h.resetPulse.passLoop.regs (SameLine.resetSearchState _)
  | invalid => exact h.resetPulse.passLoop.regs (SameLine.resetSearchState _)
  | found => exact h.resetPulse.passLoop.regs (SameLine.commitPass _)

/-- How an operation ends: with the block idle, or still in ENUM's loop. -/
inductive Ended (m : State) : State → Prop
  | idle : Ended m m.becomeIdle
  | looping : Ended m m

theorem enumRound_acts (s : State) : ∃ m, Acts s m ∧ Ended m s.enumRound := by
  unfold State.enumRound
  have h := (Acts.refl s).searchOne
  by_cases hz : s.searchOne.1 = 0#64
  · exact ⟨_, h.respond 0#64 true, by rw [if_pos hz]; exact .idle⟩
  · exact ⟨_, h.respond _ false, by rw [if_neg hz]; exact .looping⟩

/-- Every operation is acts on the started block, and then it ends. -/
theorem exec_acts (i : Instr) (s : State) : ∃ m t, Acts s.start m ∧ Ended m t ∧ exec i s = .next t := by
  have h := Acts.refl s.start
  cases i with
  | reset => exact ⟨_, _, h.resetPulse.respond _ true, .idle, rfl⟩
  | wbit bit => exact ⟨_, _, (h.write bit).respond _ true, .idle, rfl⟩
  | rbit => exact ⟨_, _, h.read.respond _ true, .idle, rfl⟩
  | wbyte v => exact ⟨_, _, (h.writeByte v).respond _ true, .idle, rfl⟩
  | rbyte => exact ⟨_, _, h.readByte.respond _ true, .idle, rfl⟩
  | wword v => exact ⟨_, _, (h.writeWord v).respond _ true, .idle, rfl⟩
  | rword => exact ⟨_, _, h.readWord.respond _ true, .idle, rfl⟩
  | select a => exact ⟨_, _, ((h.writeByte _).writeWord a).respond _ true, .idle, rfl⟩
  | skip => exact ⟨_, _, (h.writeByte _).respond _ true, .idle, rfl⟩
  | srst => exact ⟨_, _, (h.regs (SameLine.resetSearchState _)).respond _ true, .idle, rfl⟩
  | search => exact ⟨_, _, h.searchOne.respond _ true, .idle, rfl⟩
  | enum =>
    have h1 := (h.regs (SameLine.resetSearchState _)).searchOne
    by_cases hz : s.start.resetSearchState.searchOne.1 = 0#64
    · refine ⟨_, _, h1.respond 0#64 true, .idle, ?_⟩
      show Host.Outcome.next (State.enumRound _) = _
      unfold State.enumRound
      rw [if_pos hz]
      rfl
    · refine ⟨_, _, h1.respond s.start.resetSearchState.searchOne.1 false, .looping, ?_⟩
      show Host.Outcome.next (State.enumRound _) = _
      unfold State.enumRound
      rw [if_neg hz]

/-! ### What acts keep -/

/-- The inputs and the parameters. -/
theorem Acts.kept (h : Acts s t) : t.timing = s.timing ∧ t.rstEdges = s.rstEdges ∧ t.offers = s.offers := by
  induction h with
  | refl => exact ⟨rfl, rfl, rfl⟩
  | @write q b _ ih =>
    have f := slotWrite_frame q b
    exact ⟨f.timing.trans ih.1, f.rstEdges.trans ih.2.1, f.offers.trans ih.2.2⟩
  | @read q _ ih =>
    have f := slotRead_frame q
    exact ⟨f.timing.trans ih.1, f.rstEdges.trans ih.2.1, f.offers.trans ih.2.2⟩
  | @reset q _ ih =>
    have f := slotReset_frame q
    exact ⟨f.timing.trans ih.1, f.rstEdges.trans ih.2.1, f.offers.trans ih.2.2⟩
  | diag _ _ ih => exact ih
  | respond _ _ _ ih => exact ih
  | regs _ f ih => exact ⟨f.timing.trans ih.1, f.rstEdges.trans ih.2.1, f.offers.trans ih.2.2⟩

/-- Time does not run backwards and the histories only grow, for every timing. -/
structure Grown (s t : State) : Prop where
  now : s.now ≤ t.now
  bus : s.bus <+: t.bus
  rsp : s.rsp <+: t.rsp
  diags : s.diags <+: t.diags
  trace : s.trace <+: t.trace
  looks : s.looks <+: t.looks

theorem Grown.refl (s : State) : Grown s s :=
  ⟨Nat.le_refl _, List.prefix_refl _, List.prefix_refl _, List.prefix_refl _, List.prefix_refl _, List.prefix_refl _⟩

theorem Grown.trans {u : State} (f : Grown s t) (g : Grown t u) : Grown s u :=
  ⟨f.now.trans g.now, f.bus.trans g.bus, f.rsp.trans g.rsp, f.diags.trans g.diags, f.trace.trans g.trace,
    f.looks.trans g.looks⟩

theorem advance_grown (s : State) (d : Nat) : Grown s (s.advance d) := by
  refine ⟨Nat.le_add_right _ _, List.prefix_refl _, List.prefix_refl _, List.prefix_refl _, ?_, List.prefix_refl _⟩
  simp only [State.advance]
  split
  · exact List.prefix_append _ _
  · exact List.prefix_refl _

theorem slotStart_le (s : State) : s.now ≤ s.slotStart := by
  unfold State.slotStart; split <;> omega

theorem Grown.of_eq {s t u : State} (f : Grown s t) (h1 : u.now = t.now) (h2 : u.bus = t.bus) (h3 : u.rsp = t.rsp)
    (h4 : u.diags = t.diags) (h5 : u.trace = t.trace) (h6 : u.looks = t.looks) : Grown s u :=
  ⟨h1 ▸ f.now, h2 ▸ f.bus, h3 ▸ f.rsp, h4 ▸ f.diags, h5 ▸ f.trace, h6 ▸ f.looks⟩

theorem beginSlot_grown (s : State) : Grown s s.beginSlot := by
  rw [beginSlot_eq]
  exact ⟨slotStart_le s, List.prefix_refl _, List.prefix_refl _, List.prefix_refl _, List.prefix_refl _, List.prefix_refl _⟩

theorem endSlot_grown (s : State) (e : BusEvent) (t0 : Nat) (env : Env) : Grown s (s.endSlot e t0 env) :=
  ⟨Nat.le_refl _, List.prefix_append _ _, List.prefix_refl _, List.prefix_refl _, List.prefix_refl _, List.prefix_refl _⟩

theorem slotWrite_grown (s : State) (b : Bool) : Grown s (s.slotWrite b) := by
  have h1 := beginSlot_grown s
  have h2 : ∀ (q : State) (v : Bool), Grown q (q.setCrit v) := fun q v => (Grown.refl q).of_eq rfl rfl rfl rfl rfl rfl
  have h3 : ∀ (q : State) (v : Bool), Grown q (q.setDrive v) := fun q v => (Grown.refl q).of_eq rfl rfl rfl rfl rfl rfl
  exact ((((((h1.trans (h2 _ _)).trans (h3 _ _)).trans (advance_grown _ _)).trans (h3 _ _)).trans (advance_grown _ _)).trans
    (h2 _ _)).trans (endSlot_grown _ _ _ _)

theorem slotRead_grown (s : State) : Grown s s.slotRead.2 := by
  have h1 := beginSlot_grown s
  have h2 : ∀ (q : State) (v : Bool), Grown q (q.setCrit v) := fun q v => (Grown.refl q).of_eq rfl rfl rfl rfl rfl rfl
  have h3 : ∀ (q : State) (v : Bool), Grown q (q.setDrive v) := fun q v => (Grown.refl q).of_eq rfl rfl rfl rfl rfl rfl
  have h4 : ∀ (q : State) (a b : Nat), Grown q (q.look a b) := fun q a b =>
    ⟨Nat.le_refl _, List.prefix_refl _, List.prefix_refl _, List.prefix_refl _, List.prefix_refl _, List.prefix_append _ _⟩
  exact ((((((((h1.trans (h2 _ _)).trans (h3 _ _)).trans (advance_grown _ _)).trans (h3 _ _)).trans (advance_grown _ _)).trans
    (h4 _ _ _)).trans (advance_grown _ _)).trans (h2 _ _)).trans (endSlot_grown _ _ _ _)

theorem slotReset_grown (s : State) : Grown s s.slotReset.2 := by
  rw [slotReset_eq]
  have := slotStart_le s
  exact ⟨by show s.now ≤ s.slotStart + 960; omega, List.prefix_append _ _, List.prefix_refl _, List.prefix_refl _,
    List.prefix_append _ _, List.prefix_append _ _⟩

theorem Acts.grown (h : Acts s t) : Grown s t := by
  induction h with
  | refl => exact Grown.refl _
  | write b _ ih => exact ih.trans (slotWrite_grown _ b)
  | read _ ih => exact ih.trans (slotRead_grown _)
  | reset _ ih => exact ih.trans (slotReset_grown _)
  | diag c _ ih =>
    exact ih.trans ⟨Nat.le_refl _, List.prefix_refl _, List.prefix_refl _, List.prefix_append _ _, List.prefix_refl _,
      List.prefix_refl _⟩
  | respond v l _ ih =>
    exact ih.trans ⟨Nat.le_refl _, List.prefix_refl _, List.prefix_append _ _, List.prefix_refl _, List.prefix_refl _,
      List.prefix_refl _⟩
  | regs _ f ih => exact ih.of_eq f.now f.bus f.rsp f.diags f.trace f.looks

end Sys2Proof.Machine
end

