-- ==== Sys2Proof/Laws/Decode.lean ====
section
/-!
SUPPORT. Decoding: the fields of a command word, and what the decoder does row by row of the opcode map.
-/

namespace Sys2Proof

/-- A word shifted right by `n` is zero when its bits from `n` on are (the reserved bits of a format). -/
theorem shift_zero_iff (a : Word) (n : Nat) : a >>> n = 0#64 ↔ ∀ i, n ≤ i → i < 64 → a.getLsbD i = false := by
  constructor
  · intro h i h1 h2
    have := congrArg (fun x : Word => x.getLsbD (i - n)) h
    simpa [BitVec.getLsbD_ushiftRight, show n + (i - n) = i by omega] using this
  · intro h
    apply BitVec.eq_of_getLsbD_eq
    intro i hi
    rw [BitVec.getLsbD_ushiftRight]
    by_cases hh : n + i < 64
    · rw [h _ (by omega) hh]; simp
    · rw [BitVec.getLsbD_of_ge _ _ (by omega)]; simp

/-- The fields of a command word made of two fields are those fields. -/
theorem fields_append (op : Byte) (arg : Word) : opField (commandWord op arg) = op ∧ argField (commandWord op arg) = arg := by
  constructor
  · apply BitVec.eq_of_getLsbD_eq
    intro i hi
    simp only [opField, commandWord, BitVec.getLsbD_append, BitVec.getLsbD_extractLsb']
    rw [if_neg (by omega)]
    simp [hi]
  · apply BitVec.eq_of_getLsbD_eq
    intro i hi
    simp only [argField, commandWord, BitVec.getLsbD_append, BitVec.getLsbD_extractLsb']
    simp [hi]

/-- A command word is its two fields. -/
theorem word_split (w : CmdWord) : commandWord (opField w) (argField w) = w := by
  apply BitVec.eq_of_getLsbD_eq
  intro i hi
  simp only [opField, argField, commandWord, BitVec.getLsbD_append, BitVec.getLsbD_extractLsb']
  by_cases h : i < 64
  · simp [h]
  · simp [h, show i - 64 < 8 by omega, show 64 + (i - 64) = i by omega]

/-- What a mask of the opcode map with `k` operand bits asks. -/
theorem and_mask (w : CmdWord) (k : Nat) (hk : k ≤ 64) (op : Byte) :
    (w &&& (commandWord 0xFF#8 (BitVec.allOnes 64 <<< k)) == commandWord op 0#64) = true ↔
      opField w = op ∧ argField w >>> k = 0#64 := by
  rw [beq_iff_eq]
  constructor
  · intro h
    have hb : ∀ i, i < 72 → (w.getLsbD i && (commandWord 0xFF#8 (BitVec.allOnes 64 <<< k)).getLsbD i) = (commandWord op 0#64).getLsbD i := by
      intro i _; rw [← h, BitVec.getLsbD_and]
    constructor
    · apply BitVec.eq_of_getLsbD_eq
      intro i hi
      have := hb (64 + i) (by omega)
      simp only [commandWord, BitVec.getLsbD_append] at this
      rw [if_neg (by omega), if_neg (by omega), Nat.add_sub_cancel_left] at this
      have e : (0xFF#8).getLsbD i = true := by
        have : ∀ i, i < 8 → (0xFF#8).getLsbD i = true := by decide
        exact this i hi
      rw [e, Bool.and_true] at this
      simp only [opField, BitVec.getLsbD_extractLsb', hi, decide_true, Bool.true_and]
      exact this
    · rw [shift_zero_iff]
      intro i h1 h2
      have := hb i (by omega)
      simp only [commandWord, BitVec.getLsbD_append, if_pos h2] at this
      have e : (BitVec.allOnes 64 <<< k).getLsbD i = true := by
        rw [BitVec.getLsbD_shiftLeft, BitVec.getLsbD_allOnes]; simp [h2]; omega
      rw [e] at this
      simpa [argField, h2] using this
  · rintro ⟨h1, h2⟩
    rw [shift_zero_iff] at h2
    apply BitVec.eq_of_getLsbD_eq
    intro i hi
    rw [BitVec.getLsbD_and]
    simp only [commandWord, BitVec.getLsbD_append]
    by_cases h : i < 64
    · rw [if_pos h, if_pos h]
      by_cases hk' : k ≤ i
      · have := h2 i hk' h
        simp [argField, h] at this
        rw [this]; simp
      · have e : (BitVec.allOnes 64 <<< k).getLsbD i = false := by
          rw [BitVec.getLsbD_shiftLeft]; simp; omega
        rw [e]; simp
    · rw [if_neg h, if_neg h, ← h1]
      have e : (0xFF#8).getLsbD (i - 64) = true := by
        have : ∀ i, i < 8 → (0xFF#8).getLsbD i = true := by decide
        exact this _ (by omega)
      rw [e]
      simp [opField, show i - 64 < 8 by omega, show 64 + (i - 64) = i by omega]

/-- A row selects a word when the word has its `op` and no reserved bit of its format (30_encoding.md R84). -/
theorem selects_iff : ∀ r ∈ opcodeTable, ∀ w, r.selects w = true ↔
    opField w = r.pat.extractLsb' 64 8 ∧ argField w >>> r.format.operandBits = 0#64 := by
  intro r hr w
  have h := and_mask w r.format.operandBits (by cases r.format <;> decide) (r.pat.extractLsb' 64 8)
  have e : ∀ r ∈ opcodeTable, r.mask = commandWord 0xFF#8 (BitVec.allOnes 64 <<< r.format.operandBits) ∧
    r.pat = commandWord (r.pat.extractLsb' 64 8) 0#64 := by decide
  obtain ⟨e1, e2⟩ := e r hr
  rw [← e1, ← e2] at h
  exact h

/-- What a word decodes to whose `op` has a row. -/
theorem decode_row : ∀ r ∈ opcodeTable, ∀ w, opField w = r.pat.extractLsb' 64 8 →
    if argField w >>> r.format.operandBits = 0#64 then
      ∃ i, decode w = .instr i ∧ i.mnemonic = r.mnemonic ∧ i.format = r.format
    else decode w = .illegal (.reservedBits (opField w)) := by
  intro r hr w
  generalize hf : opField w = op
  unfold decode
  rw [hf]
  generalize argField w = arg
  simp only [opcodeTable, List.mem_cons, List.not_mem_nil, or_false] at hr
  rcases hr with rfl | rfl | rfl | rfl | rfl | rfl | rfl | rfl | rfl | rfl | rfl | rfl
  all_goals
    intro h
    subst h
    first
    | (show if arg >>> 0 = 0#64 then _ else _
       simp only [BitVec.ushiftRight_zero]
       split
       · next ha => subst ha; exact ⟨_, rfl, rfl, rfl⟩
       · next ha => exact if_neg ha)
    | (show if arg >>> 64 = 0#64 then _ else _
       rw [if_pos (by rw [shift_zero_iff]; intros; omega)]
       exact ⟨_, rfl, rfl, rfl⟩)
    | (show if arg >>> 1 = 0#64 then _ else _
       split
       · next ha => exact ⟨_, if_pos ha, rfl, rfl⟩
       · next ha => exact if_neg ha)
    | (show if arg >>> 8 = 0#64 then _ else _
       split
       · next ha => exact ⟨_, if_pos ha, rfl, rfl⟩
       · next ha => exact if_neg ha)

/-- What a word decodes to whose `op` has no row. -/
theorem decode_norow (w : CmdWord) (h : ∀ r ∈ opcodeTable, r.pat.extractLsb' 64 8 ≠ opField w) :
    decode w = .illegal (.unassignedOp (opField w)) := by
  have h' : ∀ n, 1 ≤ n → n ≤ 12 → (opField w).toNat ≠ n := by
    intro n h1 h2 h3
    have e : ∀ n : Fin 13, 1 ≤ n.1 → ∃ r ∈ opcodeTable, r.pat.extractLsb' 64 8 = BitVec.ofNat 8 n.1 := by decide
    obtain ⟨r, hr, er⟩ := e ⟨n, by omega⟩ h1
    exact h r hr (er.trans (by subst h3; simp))
  unfold decode
  simp only
  split <;> first | rfl | (rename_i hh; exact absurd hh (h' _ (by decide) (by decide)))

end Sys2Proof
end

