-- ==== Sys2Proof/Laws/Timeline.lean ====
section
/-!
SUPPORT. The slots of an operation in time: each one has the spans of its kind, and they follow each other. Proved once for acts,
for legal timing.
-/

namespace Sys2Proof.Machine

/-- Slots leave the kind of the environment alone, and a waveform or a free environment as it is. -/
theorem Acts.environment {s t : State} (h : Acts s t) :
    t.env.slotLevel = s.env.slotLevel ∧ (s.env.slotLevel = false → t.env = s.env) := by
  have wave : ∀ e : Env, e.slotLevel = false → (∀ b, e.afterWrite b = e) ∧ e.afterRead = e ∧ e.afterReset = e := by
    intro e he; cases e <;> first | exact ⟨fun _ => rfl, rfl, rfl⟩ | cases he
  induction h with
  | refl => exact ⟨rfl, fun _ => rfl⟩
  | @write q b _ ih =>
    rw [slotWrite_env, slotLevel_afterWrite]
    exact ⟨ih.1, fun h => ((wave _ (ih.1.trans h)).1 b).trans (ih.2 h)⟩
  | @read q _ ih =>
    rw [slotRead_env, slotLevel_afterRead]
    exact ⟨ih.1, fun h => ((wave _ (ih.1.trans h)).2.1).trans (ih.2 h)⟩
  | @reset q _ ih =>
    rw [slotReset_env, slotLevel_afterReset]
    exact ⟨ih.1, fun h => ((wave _ (ih.1.trans h)).2.2).trans (ih.2 h)⟩
  | diag _ _ ih => exact ih
  | respond _ _ _ ih => exact ih
  | regs _ f ih => rw [f.env]; exact ih

/-- What the waits of a slot with outcome `o` find on the line (40_signal_primitives.md R117). -/
def Env.scanOf (env : Env) (tm : Config.Timing) (sl : Slot) (o : ResetOutcome) : ResetScan :=
  resetScan tm.boundaryInclusive (env.lineAfterRelease o (sl.start + 480)) (sl.start + 480)

/-- The waits of a reset slot that starts later, in the terms of the environment at the beginning. -/
theorem scan_eq {s q : State} (h : Acts s q) (stop : Nat) :
    s.env.scanOf s.timing ⟨.rst q.scan.outcome, q.slotStart, stop⟩ q.scan.outcome = q.scan := by
  obtain ⟨k1, -, -⟩ := h.kept
  obtain ⟨e1, e2⟩ := h.environment
  have hl : s.env.lineAfterRelease q.scan.outcome (q.slotStart + 480) = fun t => !q.env.lowInReset (q.slotStart + Config.tRstL) t := by
    funext x
    unfold Env.lineAfterRelease
    cases hs : s.env.slotLevel with
    | false => rw [← e2 hs]; rfl
    | true =>
      have hq : q.env.slotLevel = true := e1.trans hs
      have ho : q.scan.outcome = q.env.resetAnswer := (slotReset_outcome q).symm.trans (slotReset_answer hq)
      rw [ho]
      cases hv : q.env <;> simp [hv, Env.slotLevel, Env.lowInReset] at hq ⊢ <;> rfl
  show resetScan _ (s.env.lineAfterRelease q.scan.outcome (q.slotStart + 480)) _ = _
  rw [hl, ← k1]
  rfl

/-- The spans of a slot, by its kind, and what it read off the line (40_signal_primitives.md R111 to R132). -/
def SlotSpans (tm : Config.Timing) (env : Env) (sl : Slot) (spans : List Span) : Prop :=
  match sl.ev with
  | .w b => sl.stop = sl.start + tm.tWSlot ∧
      spans = [⟨sl.start, sl.start + lowPhase tm b, true, true⟩, ⟨sl.start + lowPhase tm b, sl.stop, false, true⟩]
  | .r b => sl.stop = sl.start + 60 ∧
      (env.slotLevel = false → b = lineLevel false (env.lowInRead (sl.start + tm.tRInit + tm.tRWait))) ∧
      spans = [⟨sl.start, sl.start + tm.tRInit, true, true⟩,
        ⟨sl.start + tm.tRInit, sl.start + tm.tRInit + tm.tRWait, false, true⟩,
        ⟨sl.start + tm.tRInit + tm.tRWait, sl.stop, false, true⟩]
  | .rst o => sl.stop = sl.start + 960 ∧ o = (env.scanOf tm sl o).outcome ∧
      spans = [⟨sl.start, sl.start + 480, true, false⟩, ⟨sl.start + 480, (env.scanOf tm sl o).tc, false, true⟩]

/-- The looks of a slot, by its kind (10_state.md R32). -/
def SlotLooks (tm : Config.Timing) (env : Env) (sl : Slot) (looks : List Window) : Prop :=
  match sl.ev with
  | .w _ => looks = []
  | .r _ => looks = [⟨sl.start + tm.tRInit + tm.tRWait, sl.start + tm.tRInit + tm.tRWait + 1⟩]
  | .rst o => looks = [⟨sl.start + 480, (env.scanOf tm sl o).lookStop⟩]

/-- The spans of a slot lie inside it, and a slot takes time. -/
theorem SlotSpans.inside {tm : Config.Timing} {env : Env} (h : tm.legal = true) {sl : Slot} {spans : List Span}
    (hs : SlotSpans tm env sl spans) : sl.start < sl.stop ∧ ∀ sp ∈ spans, sl.start ≤ sp.start ∧ sp.stop ≤ sl.stop := by
  have hl := (legal_iff tm).1 h
  unfold SlotSpans at hs
  split at hs
  · next b _ =>
    have hb := lowPhase_le_slot h b
    obtain ⟨h1, rfl⟩ := hs
    refine ⟨by omega, ?_⟩
    simp
    omega
  · obtain ⟨h1, -, rfl⟩ := hs
    refine ⟨by omega, ?_⟩
    simp
    omega
  · next o _ =>
    obtain ⟨h1, -, rfl⟩ := hs
    have hc := resetScan_tc tm.boundaryInclusive (env.lineAfterRelease o (sl.start + 480)) (sl.start + 480)
    rw [show resetScan _ (env.lineAfterRelease o (sl.start + 480)) _ = env.scanOf tm sl o from rfl] at hc
    refine ⟨by omega, ?_⟩
    simp
    omega

/-- The looks of a slot begin inside it and end at the latest one microsecond after it. -/
theorem SlotLooks.inside {tm : Config.Timing} {env : Env} (h : tm.legal = true) {sl : Slot} {spans : List Span}
    {looks : List Window} (hs : SlotSpans tm env sl spans) (hk : SlotLooks tm env sl looks) :
    ∀ w ∈ looks, sl.start < w.start ∧ w.stop ≤ sl.stop + 1 := by
  have hl := (legal_iff tm).1 h
  obtain ⟨ev, start, stop⟩ := sl
  cases ev with
  | w b =>
    obtain rfl : looks = [] := hk
    simp
  | r b =>
    obtain ⟨h1, -, -⟩ := hs
    obtain rfl : looks = _ := hk
    simp at h1 ⊢
    omega
  | rst o =>
    obtain ⟨h1, -, -⟩ := hs
    obtain rfl : looks = _ := hk
    have hc := resetScan_lookStop tm.boundaryInclusive (env.lineAfterRelease o (start + 480)) (start + 480)
    rw [show resetScan _ (env.lineAfterRelease o (start + 480)) _ = env.scanOf tm ⟨.rst o, start, stop⟩ o from rfl] at hc
    simp at h1 ⊢
    omega

/-- `new` are the slots, and `spanss` their spans, that lead from `s` to `t`. -/
structure Timeline (s t : State) (new : List Slot) (spanss : List (List Span)) : Prop where
  bus : t.bus = s.bus ++ new
  trace : t.trace = s.trace ++ spanss.flatten
  spans : List.Forall₂ (SlotSpans s.timing s.env) new spanss
  first : ∀ sl, new.head? = some sl → sl.start = s.slotStart
  chain : new.IsChain fun a b => b.start = a.stop + s.timing.tGap
  last : ∀ sl, new.getLast? = some sl → sl.stop = t.now ∧ t.inOp = true
  empty : new = [] → t.now = s.now ∧ t.inOp = s.inOp

theorem Timeline.refl (s : State) : Timeline s s [] [] where
  bus := (List.append_nil _).symm
  trace := (List.append_nil _).symm
  spans := .nil
  first := by simp
  chain := .nil
  last := by simp
  empty _ := ⟨rfl, rfl⟩

/-- Where the next slot starts. -/
theorem Timeline.next {s t : State} {new : List Slot} {spanss : List (List Span)} (h : Timeline s t new spanss)
    (hk : t.timing = s.timing) : t.slotStart = match new.getLast? with
      | some sl => sl.stop + s.timing.tGap
      | none => s.slotStart := by
  cases hl : new.getLast? with
  | none =>
    obtain ⟨h1, h2⟩ := h.empty (List.getLast?_eq_none_iff.1 hl)
    simp [State.slotStart, h1, h2, hk]
  | some sl =>
    obtain ⟨h1, h2⟩ := h.last sl hl
    simp [State.slotStart, h1, h2, hk]

/-- One more slot. -/
theorem Timeline.slot {s t u : State} {new : List Slot} {spanss : List (List Span)} (h : Timeline s t new spanss)
    (hk : t.timing = s.timing) (sl : Slot) (spans : List Span) (h1 : u.bus = t.bus ++ [sl]) (h2 : u.trace = t.trace ++ spans)
    (h3 : SlotSpans s.timing s.env sl spans) (h4 : sl.start = t.slotStart) (h5 : sl.stop = u.now) (h6 : u.inOp = true) :
    Timeline s u (new ++ [sl]) (spanss ++ [spans]) where
  bus := by rw [h1, h.bus, List.append_assoc]
  trace := by rw [h2, h.trace, List.flatten_append, List.append_assoc]; simp
  spans := List.rel_append h.spans (.cons h3 .nil)
  first x hx := by
    cases hn : new with
    | nil =>
      rw [hn] at hx
      obtain rfl : sl = x := by simpa using hx
      rw [h4, h.next hk, hn]
      rfl
    | cons a as =>
      rw [hn] at hx
      exact h.first x (by rw [hn]; simpa using hx)
  chain := by
    rw [List.isChain_append]
    refine ⟨h.chain, .singleton _, ?_⟩
    intro a ha b hb
    obtain rfl : sl = b := by simpa using hb
    rw [h4, h.next hk, Option.mem_def.1 ha]
  last x hx := by
    obtain rfl : sl = x := by simpa using hx
    exact ⟨h5, h6⟩
  empty hx := by simp at hx

/-- Acts that are no slot. -/
theorem Timeline.quiet {s t u : State} {new : List Slot} {spanss : List (List Span)} (h : Timeline s t new spanss)
    (h1 : u.bus = t.bus) (h2 : u.trace = t.trace) (h3 : u.now = t.now) (h4 : u.inOp = t.inOp) :
    Timeline s u new spanss where
  bus := h1.trans h.bus
  trace := h2.trans h.trace
  spans := h.spans
  first := h.first
  chain := h.chain
  last sl hl := by rw [h3, h4]; exact h.last sl hl
  empty hn := by rw [h3, h4]; exact h.empty hn

/-- Acts make a timeline, whatever they are. -/
theorem Acts.timeline {s t : State} (h : Acts s t) (hl : s.timing.legal = true) :
    ∃ new spanss, Timeline s t new spanss := by
  induction h with
  | refl => exact ⟨_, _, Timeline.refl _⟩
  | @write q b ha ih =>
    obtain ⟨new, spanss, T⟩ := ih
    have hk := ha.kept.1
    have hq : q.timing.legal = true := by rw [hk]; exact hl
    have e := slotWrite_eq hq b
    refine ⟨_, _, T.slot hk _ _ (by rw [e]) (by rw [e]) ?_ rfl (by rw [e]) (by rw [e])⟩
    rw [← hk]
    exact ⟨rfl, rfl⟩
  | @read q ha ih =>
    obtain ⟨new, spanss, T⟩ := ih
    have hk := ha.kept.1
    have hq : q.timing.legal = true := by rw [hk]; exact hl
    have e := slotRead_eq hq
    refine ⟨_, _, T.slot hk _ _ (by rw [e]) (by rw [e]) ?_ rfl (by rw [e]) (by rw [e])⟩
    rw [← hk]
    exact ⟨rfl, fun hs => by rw [← ha.environment.2 hs]; rfl, rfl⟩
  | @reset q ha ih =>
    obtain ⟨new, spanss, T⟩ := ih
    have hk := ha.kept.1
    have e := slotReset_eq q
    refine ⟨_, _, T.slot hk _ _ (by rw [e]) (by rw [e]) ?_ rfl (by rw [e]) (by rw [e])⟩
    refine ⟨rfl, ?_, ?_⟩ <;> rw [scan_eq ha]
  | diag _ _ ih =>
    obtain ⟨new, spanss, T⟩ := ih
    exact ⟨_, _, T.quiet rfl rfl rfl rfl⟩
  | respond _ _ _ ih =>
    obtain ⟨new, spanss, T⟩ := ih
    exact ⟨_, _, T.quiet rfl rfl rfl rfl⟩
  | regs _ f ih =>
    obtain ⟨new, spanss, T⟩ := ih
    exact ⟨_, _, T.quiet f.bus f.trace f.now f.inOp⟩

/-! ### What a timeline means for the slots and the outputs -/

/-- Slots that follow each other lie in order. -/
theorem chain_ordered {g : Nat} : ∀ {new : List Slot}, new.IsChain (fun a b => b.start = a.stop + g) →
    (∀ sl ∈ new, sl.start < sl.stop) → new.Pairwise fun a b => a.stop ≤ b.start
  | [], _, _ => .nil
  | [a], _, _ => List.pairwise_singleton _ _
  | a :: b :: rest, hc, hp => by
    rw [List.isChain_cons_cons] at hc
    have ih := chain_ordered hc.2 fun sl hs => hp sl (List.mem_cons_of_mem _ hs)
    refine List.pairwise_cons.2 ⟨fun x hx => ?_, ih⟩
    rcases List.mem_cons.1 hx with rfl | hx
    · omega
    · have h1 := (List.pairwise_cons.1 ih).1 x hx
      have h2 := hp b (by simp)
      omega

/-- No slot of a timeline starts before `s` is ready for one, and none ends after `t`. -/
theorem Timeline.bounds {s t : State} {new : List Slot} {spanss : List (List Span)} (h : Timeline s t new spanss)
    (hl : s.timing.legal = true) : (∀ sl ∈ new, sl.start < sl.stop) ∧ new.Pairwise (fun a b => a.stop ≤ b.start) ∧
      (∀ sl ∈ new, s.slotStart ≤ sl.start ∧ sl.stop ≤ t.now) := by
  have hp : ∀ sl ∈ new, sl.start < sl.stop := by
    intro sl hs
    have hf := h.spans
    obtain ⟨i, hi, rfl⟩ := List.mem_iff_getElem.1 hs
    have := List.Forall₂.get hf hi (by rw [← hf.length_eq]; exact hi)
    exact (this.inside hl).1
  have ho := chain_ordered h.chain hp
  refine ⟨hp, ho, fun sl hs => ⟨?_, ?_⟩⟩
  · cases hn : new with
    | nil => rw [hn] at hs; cases hs
    | cons a as =>
      have h1 := h.first a (by rw [hn]; rfl)
      rw [hn] at hs ho
      rcases List.mem_cons.1 hs with rfl | hs
      · omega
      · have h2 := (List.pairwise_cons.1 ho).1 sl hs
        have h3 := hp a (by rw [hn]; simp)
        omega
  · rcases List.eq_nil_or_concat new with hn | ⟨as, a, hn⟩
    · rw [hn] at hs; cases hs
    · rw [List.concat_eq_append] at hn
      obtain ⟨h1, -⟩ := h.last a (by rw [hn]; simp)
      rw [hn] at hs ho
      rw [List.pairwise_append] at ho
      rcases List.mem_append.1 hs with hs | hs
      · have h2 := ho.2.2 sl hs a (by simp)
        have h3 := hp a (by rw [hn]; simp)
        omega
      · obtain rfl : sl = a := by simpa using hs
        omega

/-- Between two steps the spans of the past have ended: the outputs later on are those of the new spans. -/
theorem old_spans {tr : List Span} {n x : Nat} (f : Span → Bool) (h : ∀ sp ∈ tr, sp.stop ≤ n) (hx : n ≤ x) :
    (tr.any fun sp => f sp && decide (sp.start ≤ x) && decide (x < sp.stop)) = false := by
  simp only [List.any_eq_false, Bool.and_eq_true, decide_eq_true_eq, not_and]
  intro sp hs _ _
  have := h sp hs
  omega

/-- Inside a slot, only its own spans count. -/
theorem spans_in_slot {tm : Config.Timing} {env : Env} (hl : tm.legal = true) (f : Span → Bool) :
    ∀ {new : List Slot} {spanss : List (List Span)}, List.Forall₂ (SlotSpans tm env) new spanss →
      new.Pairwise (fun a b => a.stop ≤ b.start) → ∀ sl ∈ new, ∀ x, sl.start ≤ x → x < sl.stop →
      ∃ spans, SlotSpans tm env sl spans ∧
        (spanss.flatten.any fun sp => f sp && decide (sp.start ≤ x) && decide (x < sp.stop)) =
          spans.any fun sp => f sp && decide (sp.start ≤ x) && decide (x < sp.stop)
  | _, _, .nil, _, sl, hs, _, _, _ => by cases hs
  | _, _, @List.Forall₂.cons _ _ _ a as l ls h1 h2, hp, sl, hs, x, hx1, hx2 => by
    obtain ⟨hp1, hp2⟩ := List.pairwise_cons.1 hp
    rw [List.flatten_cons, List.any_append]
    rcases List.mem_cons.1 hs with rfl | hs
    · refine ⟨as, h1, ?_⟩
      have : (ls.flatten.any fun sp => f sp && decide (sp.start ≤ x) && decide (x < sp.stop)) = false := by
        simp only [List.any_eq_false, Bool.and_eq_true, decide_eq_true_eq, not_and]
        intro sp hsp _ hle
        obtain ⟨spans, hm, hin⟩ := List.mem_flatten.1 hsp
        obtain ⟨i, hi, rfl⟩ := List.mem_iff_getElem.1 hm
        have hi' : i < l.length := by rw [h2.length_eq]; exact hi
        have h3 := ((h2.get hi' hi).inside hl).2 sp hin
        have h4 := hp1 _ (List.getElem_mem hi')
        have h5 : (l.get ⟨i, hi'⟩).start ≤ sp.start := h3.1
        have h6 : sl.stop ≤ (l.get ⟨i, hi'⟩).start := h4
        omega
      rw [this, Bool.or_false]
    · obtain ⟨spans, g1, g2⟩ := spans_in_slot hl f h2 hp2 sl hs x hx1 hx2
      refine ⟨spans, g1, ?_⟩
      have : (as.any fun sp => f sp && decide (sp.start ≤ x) && decide (x < sp.stop)) = false := by
        simp only [List.any_eq_false, Bool.and_eq_true, decide_eq_true_eq, not_and]
        intro sp hsp _ _
        have h3 := ((h1.inside hl).2 sp hsp).2
        have h4 := hp1 sl hs
        omega
      rw [this, Bool.false_or, g2]

/-- Outside every slot, no span counts. -/
theorem spans_outside {tm : Config.Timing} {env : Env} (hl : tm.legal = true) (f : Span → Bool) {x : Nat} :
    ∀ {new : List Slot} {spanss : List (List Span)}, List.Forall₂ (SlotSpans tm env) new spanss →
      (∀ sl ∈ new, ¬ (sl.start ≤ x ∧ x < sl.stop)) →
      (spanss.flatten.any fun sp => f sp && decide (sp.start ≤ x) && decide (x < sp.stop)) = false
  | _, _, .nil, _ => rfl
  | _, _, @List.Forall₂.cons _ _ _ a as l ls h1 h2, ho => by
    rw [List.flatten_cons, List.any_append, spans_outside hl f h2 fun sl hs => ho sl (List.mem_cons_of_mem _ hs),
      Bool.or_false]
    simp only [List.any_eq_false, Bool.and_eq_true, decide_eq_true_eq, not_and]
    intro sp hsp _ hle
    have h3 := (h1.inside hl).2 sp hsp
    have h4 := ho a (by simp)
    omega

/-! ### Looks -/

/-- The looks of acts are those of their slots (10_state.md R32). -/
theorem Acts.slotLooks {s t : State} (h : Acts s t) (hl : s.timing.legal = true) :
    ∃ new lookss, t.bus = s.bus ++ new ∧ t.looks = s.looks ++ lookss.flatten ∧
      List.Forall₂ (SlotLooks s.timing s.env) new lookss := by
  have more : ∀ {q u : State} {sl : Slot} {ws : List Window}, (∃ new lookss, q.bus = s.bus ++ new ∧
      q.looks = s.looks ++ lookss.flatten ∧ List.Forall₂ (SlotLooks s.timing s.env) new lookss) →
      u.bus = q.bus ++ [sl] → u.looks = q.looks ++ ws → SlotLooks s.timing s.env sl ws →
      ∃ new lookss, u.bus = s.bus ++ new ∧ u.looks = s.looks ++ lookss.flatten ∧
        List.Forall₂ (SlotLooks s.timing s.env) new lookss := by
    intro q u sl ws ⟨new, lookss, h1, h2, h3⟩ g1 g2 g3
    refine ⟨new ++ [sl], lookss ++ [ws], by rw [g1, h1, List.append_assoc], ?_, List.rel_append h3 (.cons g3 .nil)⟩
    rw [g2, h2, List.flatten_append, List.append_assoc]
    simp
  induction h with
  | refl => exact ⟨[], [], (List.append_nil _).symm, (List.append_nil _).symm, .nil⟩
  | @write q b ha ih =>
    have hk := ha.kept.1
    have hq : q.timing.legal = true := by rw [hk]; exact hl
    have e := slotWrite_eq hq b
    exact more (sl := ⟨.w b, _, _⟩) (ws := []) ih (by rw [e]) (by rw [e]; simp) rfl
  | @read q ha ih =>
    have hk := ha.kept.1
    have hq : q.timing.legal = true := by rw [hk]; exact hl
    have e := slotRead_eq hq
    refine more ih (by rw [e]) (by rw [e]) ?_
    rw [← hk]
    rfl
  | @reset q ha ih =>
    have e := slotReset_eq q
    refine more ih (by rw [e]) (by rw [e]) ?_
    show _ = _
    rw [scan_eq ha]
  | diag _ _ ih => exact ih
  | respond _ _ _ ih => exact ih
  | regs _ f ih => rw [f.bus, f.looks]; exact ih

/-- A timeline and its looks. -/
theorem Timeline.looks {s t : State} {new : List Slot} {spanss : List (List Span)} (T : Timeline s t new spanss)
    (h : Acts s t) (hl : s.timing.legal = true) :
    ∃ lookss, t.looks = s.looks ++ lookss.flatten ∧ List.Forall₂ (SlotLooks s.timing s.env) new lookss := by
  obtain ⟨new', lookss, h1, h2, h3⟩ := h.slotLooks hl
  obtain rfl := List.append_cancel_left (T.bus.symm.trans h1)
  exact ⟨lookss, h2, h3⟩

/-- After the first instant of a slot, only its own looks count up to its end. -/
theorem looks_in_slot {tm : Config.Timing} {env : Env} (hl : tm.legal = true) :
    ∀ {new : List Slot} {spanss : List (List Span)} {lookss : List (List Window)},
      List.Forall₂ (SlotSpans tm env) new spanss → List.Forall₂ (SlotLooks tm env) new lookss →
      new.Pairwise (fun a b => a.stop ≤ b.start) → ∀ sl ∈ new, ∀ x, sl.start < x → x < sl.stop →
      ∃ looks, SlotLooks tm env sl looks ∧
        (lookss.flatten.any fun w => decide (w.start ≤ x) && decide (x < w.stop)) =
          looks.any fun w => decide (w.start ≤ x) && decide (x < w.stop)
  | _, _, _, .nil, .nil, _, sl, hs, _, _, _ => by cases hs
  | _, _, _, @List.Forall₂.cons _ _ _ a sps l spss h1 h2, @List.Forall₂.cons _ _ _ _ ws _ wss k1 k2, hp, sl, hs, x, hx1, hx2 => by
    obtain ⟨hp1, hp2⟩ := List.pairwise_cons.1 hp
    rw [List.flatten_cons, List.any_append]
    rcases List.mem_cons.1 hs with rfl | hs
    · refine ⟨ws, k1, ?_⟩
      have : (wss.flatten.any fun w => decide (w.start ≤ x) && decide (x < w.stop)) = false := by
        simp only [List.any_eq_false, Bool.and_eq_true, decide_eq_true_eq, not_and]
        intro w hw hle
        obtain ⟨looks, hm, hin⟩ := List.mem_flatten.1 hw
        obtain ⟨i, hi, rfl⟩ := List.mem_iff_getElem.1 hm
        have hi' : i < l.length := by rw [k2.length_eq]; exact hi
        have hi'' : i < spss.length := by rw [← h2.length_eq]; exact hi'
        have h3 : (l.get ⟨i, hi'⟩).start < w.start := (SlotLooks.inside hl (h2.get hi' hi'') (k2.get hi' hi) w hin).1
        have h4 : sl.stop ≤ (l.get ⟨i, hi'⟩).start := hp1 _ (List.getElem_mem hi')
        omega
      rw [this, Bool.or_false]
    · obtain ⟨looks, g1, g2⟩ := looks_in_slot hl h2 k2 hp2 sl hs x hx1 hx2
      refine ⟨looks, g1, ?_⟩
      have : (ws.any fun w => decide (w.start ≤ x) && decide (x < w.stop)) = false := by
        simp only [List.any_eq_false, Bool.and_eq_true, decide_eq_true_eq, not_and]
        intro w hw _
        have h3 := (SlotLooks.inside hl h1 k1 w hw).2
        have h4 := hp1 sl hs
        omega
      rw [this, Bool.false_or, g2]

/-! ### Beats and diagnostics -/

/-- The beats and the diagnostics of acts are not later than their end. -/
theorem Acts.past {s t : State} (h : Acts s t) (hr : ∀ b ∈ s.rsp, b.time ≤ s.now) (hd : ∀ d ∈ s.diags, d.time ≤ s.now) :
    (∀ b ∈ t.rsp, b.time ≤ t.now) ∧ (∀ d ∈ t.diags, d.time ≤ t.now) := by
  induction h with
  | refl => exact ⟨hr, hd⟩
  | @write q b _ ih =>
    have g := (slotWrite_grown q b).now
    rw [(slotWrite_frame q b).rsp, slotWrite_diags]
    exact ⟨fun b hb => (ih.1 b hb).trans g, fun d hd => (ih.2 d hd).trans g⟩
  | @read q _ ih =>
    have g := (slotRead_grown q).now
    rw [(slotRead_frame q).rsp, slotRead_diags]
    exact ⟨fun b hb => (ih.1 b hb).trans g, fun d hd => (ih.2 d hd).trans g⟩
  | @reset q _ ih =>
    have g := (slotReset_grown q).now
    rw [(slotReset_frame q).rsp, slotReset_diags]
    exact ⟨fun b hb => (ih.1 b hb).trans g, fun d hd => (ih.2 d hd).trans g⟩
  | @diag q c _ ih =>
    refine ⟨ih.1, fun d hd => ?_⟩
    rcases List.mem_append.1 hd with hd | hd
    · exact ih.2 d hd
    · obtain rfl := List.mem_singleton.1 hd
      exact Nat.le_refl _
  | @respond q v l _ ih =>
    refine ⟨fun b hb => ?_, ih.2⟩
    rcases List.mem_append.1 hb with hb | hb
    · exact ih.1 b hb
    · obtain rfl := List.mem_singleton.1 hb
      exact Nat.le_refl _
  | regs _ f ih => rw [f.rsp, f.diags, f.now]; exact ih

end Sys2Proof.Machine
end

