-- ==== Sys2Proof/Laws/Ops.lean ====
section
/-!
SUPPORT. What an operation made of write slots or of read slots does besides them, and what a pass and a round leave behind.
-/

namespace Sys2Proof.Machine

open SlotLevel (View branch bitsOf numberOf)

/-- `ResetPulse()` in full (40_signal_primitives.md R110, R117). -/
theorem resetPulse_eq (s : State) : s.resetPulse = (presence s.scan.outcome,
    { s.slotReset.2 with diags := s.diags ++ (diagnostics s.scan.outcome).map fun c => ⟨s.slotStart + 960, c⟩ }) := by
  have h : s.slotReset.1 = s.scan.outcome := by rw [slotReset_eq]
  have h2 : s.slotReset.2.now = s.slotStart + 960 := by rw [slotReset_eq]
  have h3 := slotReset_diags s
  unfold State.resetPulse
  simp only
  rw [h]
  generalize s.slotReset.2 = q at *
  cases s.scan.outcome <;> simp [presence, diagnostics, State.diag, h2, h3]
  cases q; simp_all

/-- What a wait finds, as a function of the line (00_scope.md R19). -/
theorem waitWithin_cases (incl : Bool) (line : Nat → Bool) (lv : Bool) (st org b : Nat) :
    match waitWithin incl line lv st org b with
    | none => ∀ x, st ≤ x → x < org + b + (if incl then 1 else 0) → line x ≠ lv
    | some r => st ≤ r ∧ r < org + b + (if incl then 1 else 0) ∧ line r = lv ∧ ∀ x, st ≤ x → x < r → line x ≠ lv := by
  split
  · next h =>
    intro x h1 h2
    exact waitLevel_none.1 h x h1 (by simp only [budgetEnd]; omega)
  · next r h =>
    obtain ⟨a, b, c, d⟩ := waitLevel_some h
    refine ⟨a, ?_, c, d⟩
    simp only [budgetEnd] at b
    omega

/-- An operation made of write slots. -/
theorem lineOp_wrote {bits : List Bool} {s q : State} (h : Wrote bits s.start q) (hb : bits ≠ []) (v : Word) :
    LineOperation s (q.complete v) (bits.map .w) v ∧ (q.complete v).looks = s.looks := by
  have f := h.frame
  have d := h.done hb
  have e : q.events = s.events ++ bits.map .w := by
    have := congrArg View.events h.view
    rw [writeBits_events] at this
    exact this
  have e' : (q.complete v).events = q.events := rfl
  refine ⟨⟨e'.trans e, ?_, ⟨f.ld, f.ldf, f.addr⟩, ⟨f.timing, f.rstEdges, f.offers⟩, ⟨rfl, d.1, d.2.1⟩, h.diags⟩, h.looks⟩
  exact ⟨q.now, by rw [← show q.rsp = s.rsp from f.rsp]; rfl⟩

/-- An operation made of read slots. -/
theorem lineOp_read {bits : List Bool} {s q : State} (h : ReadIn bits s.start q) (hb : bits ≠ []) (v : Word) :
    LineOperation s (q.complete v) (bits.map .r) v := by
  have f := h.frame
  have d := h.done hb
  have e' : (q.complete v).events = q.events := rfl
  refine ⟨e'.trans h.events, ?_, ⟨f.ld, f.ldf, f.addr⟩, ⟨f.timing, f.rstEdges, f.offers⟩, ⟨rfl, d.1, d.2.1⟩, h.diags⟩
  exact ⟨q.now, by rw [← show q.rsp = s.rsp from f.rsp]; rfl⟩

/-- Sixty-four bits are the bits of their number. -/
theorem bits_word (bits : List Bool) (h : bits.length = 64) : bits = bitsOf (BitVec.ofNat 64 (numberOf bits)) := by
  apply List.ext_getElem
  · simp [bitsOf, h]
  · intro i h1 h2
    simp only [bitsOf, List.getElem_map, List.getElem_range]
    rw [accumulated_getLsbD _ (by omega)]
    simp [h1]

/-- Eight bits are the bits of their number. -/
theorem bits_byte (bits : List Bool) (h : bits.length = 8) : bits = bitsOf (BitVec.ofNat 8 (numberOf bits)) := by
  apply List.ext_getElem
  · simp [bitsOf, h]
  · intro i h1 h2
    simp only [bitsOf, List.getElem_map, List.getElem_range, BitVec.getLsbD_ofNat, numberOf_testBit]
    simp [h1]; omega

/-- Writing bits keeps the kind of the environment. -/
theorem envSlotLevel_writeBits (bits : List Bool) : ∀ (e : Env), e.slotLevel = true →
        (bits.foldl (fun e b => e.afterWrite b) e).slotLevel = true := by
      induction bits with
      | nil => intro e he; exact he
      | cons b bs ih => intro e he; exact ih _ ((slotLevel_afterWrite e b).trans he)

/-- Write slots keep the kind of the environment. -/
theorem Wrote.slotLevel {bits s t} (w : Wrote bits s t) (h : s.env.slotLevel = true) : t.env.slotLevel = true := by
  have := congrArg View.env w.view
  rw [writeBits_env] at this
  have h2 : t.env = _ := this
  rw [h2]
  exact envSlotLevel_writeBits _ _ h

/-- A round of ENUM's loop at the slot level (43_search.md R190). -/
theorem enumRound_view {s : State} (h : s.env.slotLevel = true) : s.enumRound.env.slotLevel = true ∧ s.enumRound.view = s.view.enumRound := by
  obtain ⟨h1, h2⟩ := searchOne_view h
  unfold State.enumRound View.enumRound
  rw [← h2]
  simp only
  split
  · exact ⟨h1, complete_view _ _⟩
  · exact ⟨h1, respond_view _ _ _⟩

/-- A pass gives no beat. -/
theorem searchOne_rsp (s : State) : s.searchOne.2.rsp = s.rsp := by
  have he := searchOne_ends s
  generalize s.searchOne = r at he
  have hp : s.resetPulse.2.passLoop.2.rsp = s.rsp := by
    obtain ⟨k, L⟩ := passLoop_looped s.resetPulse.2
    exact (L.frame.rsp.trans (passStart_wrote _).frame.rsp).trans (resetPulse_frame s).rsp
  cases he with
  | done => rfl
  | noDevice => exact (resetPulse_frame s).rsp
  | aborted => exact hp
  | invalid => exact hp
  | found => exact hp

/-- A round of ENUM's loop gives one beat, at its end. -/
theorem enumRound_beat (s : State) : ∃ b, s.enumRound.rsp = s.rsp ++ [b] ∧ b.time = s.enumRound.now := by
  have h := searchOne_rsp s
  unfold State.enumRound
  generalize s.searchOne = r at h
  simp only
  split
  · exact ⟨⟨r.2.now, 0#64, true⟩, by rw [← h]; rfl, rfl⟩
  · exact ⟨⟨r.2.now, r.1, false⟩, by rw [← h]; rfl, rfl⟩

/-- An operation gives one beat, at its end; of ENUM, so does its first round. -/
theorem exec_beat (i : Instr) {s t : State} (h : exec i s = .next t) : ∃ b, t.rsp = s.rsp ++ [b] ∧ b.time = t.now := by
  have fin : ∀ (q : State) (v : Word), q.rsp = s.rsp → ∃ b, (q.complete v).rsp = s.rsp ++ [b] ∧ b.time = (q.complete v).now :=
    fun q v hq => ⟨⟨q.now, v, true⟩, by rw [← hq]; rfl, rfl⟩
  cases i <;> obtain rfl := Host.Outcome.next.inj h
  case reset => exact fin _ _ (resetPulse_frame _).rsp
  case wbit b => exact fin _ _ (slotWrite_frame _ b).rsp
  case rbit => exact fin _ _ (slotRead_frame _).rsp
  case wbyte v => exact fin _ _ (writeByte_wrote v _).frame.rsp
  case rbyte => obtain ⟨_, _, r, _⟩ := readByte_readIn s.start; exact fin _ _ r.frame.rsp
  case wword v => exact fin _ _ (writeWord_wrote v _).frame.rsp
  case rword => obtain ⟨_, _, r, _⟩ := readWord_readIn s.start; exact fin _ _ r.frame.rsp
  case select a => exact fin _ _ ((writeByte_wrote Config.romMatch s.start).trans (writeWord_wrote a _)).frame.rsp
  case skip => exact fin _ _ (writeByte_wrote _ _).frame.rsp
  case srst => exact fin _ _ rfl
  case search => exact fin _ _ (searchOne_rsp s.start)
  case enum => exact enumRound_beat s.start.resetSearchState

/-- Acts keep the histories ordered. -/
theorem Acts.historyOrdered {s m : State} (hl : s.timing.legal = true) (ha : Acts s m) (hh : HistoryOrdered s) : HistoryOrdered m := by
  obtain ⟨new, spanss, T⟩ := ha.timeline hl
  obtain ⟨b1, b2, b3⟩ := T.bounds hl
  obtain ⟨lookss, l1, l2⟩ := T.looks ha hl
  obtain ⟨p1, p2, p3, p6, p4, p5⟩ := hh
  have gn := ha.grown.now
  obtain ⟨q1, q2⟩ := ha.past p4 p5
  have e0 := slotStart_le s
  refine ⟨?_, ?_, ?_, ?_, q1, q2⟩
  · rw [T.bus]; intro sl hs
    rcases List.mem_append.1 hs with hs | hs
    · have := p1 sl hs; omega
    · have := b1 sl hs; have := b3 sl hs; omega
  · rw [T.bus, List.pairwise_append]
    refine ⟨p2, b2, ?_⟩
    intro a ha b hb
    have := p1 a ha; have := b3 b hb; omega
  · rw [T.trace]; intro sp hs
    rcases List.mem_append.1 hs with hs | hs
    · have := p3 sp hs; omega
    · obtain ⟨spans, hm, hin⟩ := List.mem_flatten.1 hs
      obtain ⟨i, hi, rfl⟩ := List.mem_iff_getElem.1 hm
      have hi' : i < new.length := by rw [T.spans.length_eq]; exact hi
      have h3 := ((T.spans.get hi' hi).inside hl).2 sp hin
      have h4 := (b3 _ (List.getElem_mem hi')).2
      have h5 : sp.stop ≤ (new.get ⟨i, hi'⟩).stop := h3.2
      have h6 : (new.get ⟨i, hi'⟩).stop ≤ m.now := h4
      omega
  · rw [l1]; intro w hs
    rcases List.mem_append.1 hs with hs | hs
    · have := p6 w hs; omega
    · obtain ⟨looks, hm, hin⟩ := List.mem_flatten.1 hs
      obtain ⟨i, hi, rfl⟩ := List.mem_iff_getElem.1 hm
      have hi' : i < new.length := by rw [l2.length_eq]; exact hi
      have hi'' : i < spanss.length := by rw [← T.spans.length_eq]; exact hi'
      have h3 := (SlotLooks.inside hl (T.spans.get hi' hi'') (l2.get hi' hi) w hin).2
      have h4 : (new.get ⟨i, hi'⟩).stop ≤ m.now := (b3 _ (List.getElem_mem hi')).2
      omega

/-- Acts leave the line released. -/
theorem Acts.released {s m : State} (ha : Acts s m) (h : s.owDriveLow = false ∧ s.crit = false) : m.owDriveLow = false ∧ m.crit = false := by
  induction ha with
  | refl => exact h
  | @write q b _ ih => exact ⟨(slotWrite_frame q b).owDriveLow, (slotWrite_frame q b).crit⟩
  | @read q _ ih => exact ⟨(slotRead_frame q).owDriveLow, (slotRead_frame q).crit⟩
  | @reset q _ ih => exact ⟨(slotReset_frame q).owDriveLow, (slotReset_frame q).crit⟩
  | diag _ _ ih => exact ih
  | respond _ _ _ ih => exact ih
  | regs _ f ih => exact ⟨f.owDriveLow.trans ih.1, f.crit.trans ih.2⟩

/-- A pass leaves a legal search state (43_search.md R183 to R186). -/
theorem searchOne_legal {s : State} (h : SearchStateLegal s) : SearchStateLegal s.searchOne.2 := by
  have he := searchOne_ends s
  generalize s.searchOne = r at he
  have emp : ∀ q : State, SearchStateLegal q.resetSearchState := fun q => .inl ⟨rfl, rfl, rfl⟩
  cases he with
  | done => exact h
  | noDevice => exact emp _
  | aborted => exact emp _
  | invalid => exact emp _
  | found h1 h2 h3 h4 =>
    right
    obtain ⟨k, L⟩ := passLoop_looped s.resetPulse.2
    have h5 : s.resetPulse.2.passLoop.2.ldf = false := by rw [(passLoop_ldf _).1, (resetPulse_frame s).ldf, h1]
    have hz := L.lastZero
    have e1 : s.resetPulse.2.passStart.tr.p.toNat = 1 := rfl
    have e2 : s.resetPulse.2.passStart.tr.lastZero = 0#7 := rfl
    rw [e1, e2] at hz
    refine ⟨h4, ?_, ?_, ?_⟩
    · show s.resetPulse.2.passLoop.2.tr.lastZero.toNat ≤ 64
      rcases hz with hz | hz
      · rw [hz]; decide
      · exact hz.2.1
    · show (s.resetPulse.2.passLoop.2.ldf || _) = _
      rw [h5]; rfl
    · intro hne
      rcases hz with hz | hz
      · exact absurd hz hne
      · exact hz.2.2

/-- So does a round. -/
theorem enumRound_legal {s : State} (h : SearchStateLegal s) : SearchStateLegal s.enumRound := by
  have := searchOne_legal h
  unfold State.enumRound
  simp only
  split <;> exact this

/-- A search state that is kept stays legal. -/
theorem kept_legal {s t : State} (h : SearchStateKept s t) (hs : SearchStateLegal s) : SearchStateLegal t := by
  obtain ⟨h1, h2, h3⟩ := h
  unfold SearchStateLegal at *
  rw [h1, h2, h3]; exact hs

/-- So it does through an operation made of slots. -/
theorem frame_legal {s q : State} (f : LineFrame s.start q) (v : Word) (hs : SearchStateLegal s) : SearchStateLegal (q.complete v) :=
  kept_legal (s := s) ⟨f.ld, f.ldf, f.addr⟩ hs

/-- The bus event, the result and the diagnostic of `ResetPulse()`. -/
theorem resetPulse_events (s : State) : ∃ o, s.resetPulse.2.events = s.events ++ [.rst o] ∧ s.resetPulse.1 = presence o ∧
   s.resetPulse.2.diags.map Diag.code = s.diags.map Diag.code ++ diagnostics o := by
  refine ⟨s.scan.outcome, ?_, by rw [resetPulse_eq], ?_⟩
  · rw [resetPulse_eq]
    show s.slotReset.2.events = _
    rw [slotReset_events, slotReset_eq]
  · rw [resetPulse_eq]; simp [Function.comp_def]

/-- Where the next slot starts once one has been performed. -/
theorem slotStart_now {t : State} (h : SlotDone t) : t.slotStart = t.now + t.timing.tGap := by
  simp [State.slotStart, h.2.2]

/-- A loop that is left early ends with the pair `(1, 1)` (43_search.md R178). -/
theorem abort_tail : ∀ (n : Nat) (s : State), s.tr.p.toNat + n = 65 → 1 ≤ s.tr.p.toNat →
    (State.searchLoop n s).1 = false → ∃ front, (State.searchLoop n s).2.events = s.events ++ front ++ [.r true, .r true]
  | 0, s, _, _, h => by simp [State.searchLoop] at h
  | n+1, s, hp, h1, h => by
    have hsl : State.searchLoop (n + 1) s =
        match s.searchPosition.1 with
        | false => (false, s.searchPosition.2)
        | true => State.searchLoop n s.searchPosition.2 := rfl
    cases hb : branch s.ld.toNat s.addr s.tr.p.toNat s.pair.1 s.pair.2 with
    | none =>
      obtain ⟨e, hpair⟩ := searchPosition_abort hb
      rw [hsl, e]
      refine ⟨[], ?_⟩
      simp [afterPair_events, hpair]
    | some d =>
      obtain ⟨e, t⟩ := searchPosition_taken hb
      have hr : State.searchLoop (n + 1) s = State.searchLoop n s.searchPosition.2 := by rw [hsl, e]
      have hp' : s.searchPosition.2.tr.p.toNat = s.tr.p.toNat + 1 := by
        rw [t.p, BitVec.toNat_add]
        show (s.tr.p.toNat + 1) % 128 = _
        omega
      rw [hr] at h ⊢
      obtain ⟨front, hf⟩ := abort_tail n s.searchPosition.2 (by omega) (by omega) h
      exact ⟨[.r s.pair.1, .r s.pair.2, .w d] ++ front, by rw [hf, t.events]; simp⟩

end Sys2Proof.Machine
end

