-- ==== Sys2Proof/Laws/Devices.lean ====
section
/-!
SUPPORT. A pass of the search against `Dev(S)`: which code it finds, and which `LD` it leaves (43_search.md R176 to R184, R192).
-/

namespace Sys2Proof.Machine

open SlotLevel (View branch)

/-! ### Codes -/

/-- Two codes agree below bit `n`. -/
def Agree (n : Nat) (a b : Word) : Prop := ∀ m, m < n → a.getLsbD m = b.getLsbD m

theorem Agree.symm {n : Nat} {a b : Word} (h : Agree n a b) : Agree n b a := fun m hm => (h m hm).symm

theorem Agree.trans {n : Nat} {a b c : Word} (h : Agree n a b) (g : Agree n b c) : Agree n a c :=
  fun m hm => (h m hm).trans (g m hm)

theorem Agree.mono {n k : Nat} {a b : Word} (h : Agree n a b) (hk : k ≤ n) : Agree k a b := fun m hm => h m (by omega)

theorem Agree.succ {n : Nat} {a b : Word} (h : Agree n a b) (hb : a.getLsbD n = b.getLsbD n) : Agree (n + 1) a b := by
  intro m hm
  rcases Nat.lt_succ_iff_lt_or_eq.1 hm with hm | rfl
  · exact h m hm
  · exact hb

theorem Agree.eq {a b : Word} (h : Agree 64 a b) : a = b := BitVec.eq_of_getLsbD_eq fun i hi => h i hi

/-- Two different codes differ at a first bit. -/
theorem first_difference {a b : Word} (h : a ≠ b) : ∃ n, n < 64 ∧ Agree n a b ∧ a.getLsbD n ≠ b.getLsbD n := by
  by_contra hc
  have hc : ∀ n, n < 64 → Agree n a b → a.getLsbD n = b.getLsbD n := by
    intro n h1 h2
    by_contra h3
    exact hc ⟨n, h1, h2, h3⟩
  have : ∀ n, n ≤ 64 → Agree n a b := by
    intro n
    induction n with
    | zero => intro _ m hm; omega
    | succ n ih => intro hn; exact (ih (by omega)).succ (hc n (by omega) (ih (by omega)))
  exact h (this 64 (Nat.le_refl _)).eq

/-- At bit `m` of `b` the 0 branch was taken and a code of the line lies on the 1 branch. -/
def Fork (roms : List Word) (b : Word) (m : Nat) : Prop :=
  b.getLsbD m = false ∧ ∃ r ∈ roms, Agree m r b ∧ r.getLsbD m = true

/-- At bit `m` of `b` the 1 branch was taken and a code of the line lies on the 0 branch. -/
def Passed (roms : List Word) (b : Word) (m : Nat) : Prop :=
  b.getLsbD m = true ∧ ∃ r ∈ roms, Agree m r b ∧ r.getLsbD m = false

/-- `lz` is the last position from bit `i` on at which a code branches off, or `z` if there is none. -/
def LastFork (roms : List Word) (b : Word) (i z lz : Nat) : Prop :=
  (lz = z ∧ ∀ m, i ≤ m → m < 64 → ¬ Fork roms b m) ∨
  (∃ n, i ≤ n ∧ n < 64 ∧ lz = n + 1 ∧ Fork roms b n ∧ ∀ m, n < m → m < 64 → ¬ Fork roms b m)

/-! ### The line in a pass -/

open Classical in
/-- The devices in a pass at bit `i`: those that agree with the address so far take part. -/
noncomputable def searchEnv (roms : List Word) (i : Nat) (addr : Word) (ph : SearchPhase) : Env :=
  .dev (roms.map fun r => ⟨r, if Agree i r addr then .srch i ph else .idle⟩)

/-- Where every device takes part from the start. -/
theorem searchEnv_zero (roms : List Word) (addr : Word) :
    searchEnv roms 0 addr .bit = .dev (roms.map fun r => ⟨r, .srch 0 .bit⟩) := by
  have : ∀ r, Agree 0 r addr := fun r m hm => by omega
  simp [searchEnv, this]

/-- The bit read first: 1 when every device taking part has 1 (20_memory.md R67). -/
theorem searchEnv_read_bit (roms : List Word) (i : Nat) (addr : Word) :
    ((searchEnv roms i addr .bit).readAnswer = true ↔ ∀ r ∈ roms, Agree i r addr → r.getLsbD i = true) ∧
    (searchEnv roms i addr .bit).afterRead = searchEnv roms i addr .cmp := by
  constructor
  · simp only [searchEnv, Env.readAnswer, List.all_map, List.all_eq_true, Function.comp]
    refine forall_congr' fun r => forall_congr' fun _ => ?_
    by_cases h : Agree i r addr <;> simp [h, Device.putBit]
  · simp only [searchEnv, Env.afterRead, List.map_map]
    congr 1
    apply List.map_congr_left
    intro r _
    by_cases h : Agree i r addr <;> simp [h, Device.afterRead]

/-- The bit read second: 1 when every device taking part has 0. -/
theorem searchEnv_read_cmp (roms : List Word) (i : Nat) (addr : Word) :
    ((searchEnv roms i addr .cmp).readAnswer = true ↔ ∀ r ∈ roms, Agree i r addr → r.getLsbD i = false) ∧
    (searchEnv roms i addr .cmp).afterRead = searchEnv roms i addr .dir := by
  constructor
  · simp only [searchEnv, Env.readAnswer, List.all_map, List.all_eq_true, Function.comp]
    refine forall_congr' fun r => forall_congr' fun _ => ?_
    by_cases h : Agree i r addr <;> simp [h, Device.putBit]
  · simp only [searchEnv, Env.afterRead, List.map_map]
    congr 1
    apply List.map_congr_left
    intro r _
    by_cases h : Agree i r addr <;> simp [h, Device.afterRead]

/-- The bits of an address with bit `i` set to `d`. -/
theorem agree_setBit {i : Nat} (hi : i < 64) (addr r : Word) (d : Bool) :
    Agree (i + 1) r (setBit addr i d) ↔ Agree i r addr ∧ r.getLsbD i = d := by
  constructor
  · intro h
    refine ⟨fun m hm => ?_, ?_⟩
    · rw [h m (by omega), setBit_getLsbD _ _ _ _ hi (by omega), if_neg (by omega)]
    · rw [h i (by omega), setBit_getLsbD _ _ _ _ hi hi, if_pos rfl]
  · rintro ⟨h1, h2⟩ m hm
    rw [setBit_getLsbD _ _ _ _ hi (by omega)]
    split
    · next he => rw [he]; exact h2
    · exact h1 m (by omega)

/-- The write slot of a position: those that agree with it stay in the pass (20_memory.md R66). -/
theorem searchEnv_write (roms : List Word) (i : Nat) (hi : i < 64) (addr : Word) (d : Bool) :
    (i < 63 → (searchEnv roms i addr .dir).afterWrite d = searchEnv roms (i + 1) (setBit addr i d) .bit) ∧
    devicesOf roms ((searchEnv roms i addr .dir).afterWrite d) := by
  constructor
  · intro h63
    simp only [searchEnv, Env.afterWrite, List.map_map]
    congr 1
    apply List.map_congr_left
    intro r _
    by_cases h : Agree i r addr
    · by_cases hd : r.getLsbD i = d
      · simp [h, hd, agree_setBit hi, Device.afterWrite, h63]
      · simp [h, hd, agree_setBit hi, Device.afterWrite, Ne.symm hd]
    · simp [h, agree_setBit hi, Device.afterWrite]
  · refine ⟨_, rfl, ?_⟩
    rw [List.map_map, List.map_map]
    conv_rhs => rw [← List.map_id roms]
    apply List.map_congr_left
    intro r _
    by_cases h : Agree i r addr
    · by_cases hd : r.getLsbD i = d
      · by_cases h63 : i < 63 <;> simp [h, hd, Device.afterWrite, h63]
      · simp [h, Device.afterWrite, Ne.symm hd]
    · simp [h, Device.afterWrite]

/-! ### The loop -/

/-- What the loop finds from bit `i` on: a code of the line that agrees with the address so far and takes the branches of
43_search.md R180 and R181, with the last position of R183. -/
structure PassFound (roms : List Word) (i : Nat) (lastZero : Nat) (v : View) (r : Option Nat × View) : Prop where
  kept : r.2.ld = v.ld ∧ r.2.ldf = v.ldf ∧ r.2.diags = v.diags ∧ r.2.rsp = v.rsp
  devices : devicesOf roms r.2.env
  mem : r.2.addr ∈ roms
  agree : Agree i r.2.addr v.addr
  fork : ∀ m, i ≤ m → m < 64 → Fork roms r.2.addr m → (m + 1 < v.ld ∧ v.addr.getLsbD m = false) ∨ v.ld < m + 1
  passed : ∀ m, i ≤ m → m < 64 → Passed roms r.2.addr m → (m + 1 < v.ld ∧ v.addr.getLsbD m = true) ∨ m + 1 = v.ld
  lastZero : ∃ lz, r.1 = some lz ∧ LastFork roms r.2.addr i lastZero lz

theorem positions_found (roms : List Word) : ∀ (n i lastZero : Nat) (v : View), i + n = 64 → 0 < n →
    v.env = searchEnv roms i v.addr .bit → (∃ r ∈ roms, Agree i r v.addr) →
    PassFound roms i lastZero v (View.positions n (i + 1) lastZero v)
  | n + 1, i, lastZero, v, hn, _, he, ⟨r0, hr0, ha0⟩ => by
    have hi : i < 64 := by omega
    obtain ⟨b1, b2⟩ := searchEnv_read_bit roms i v.addr
    obtain ⟨c1, c2⟩ := searchEnv_read_cmp roms i v.addr
    -- the two reads
    have e1 : v.read.1 = (searchEnv roms i v.addr .bit).readAnswer := by show v.env.readAnswer = _; rw [he]
    have e2 : v.read.2.env = searchEnv roms i v.addr .cmp := by show v.env.afterRead = _; rw [he, b2]
    have e3 : v.read.2.read.1 = (searchEnv roms i v.addr .cmp).readAnswer := by show v.read.2.env.readAnswer = _; rw [e2]
    have e4 : v.read.2.read.2.env = searchEnv roms i v.addr .dir := by show v.read.2.env.afterRead = _; rw [e2, c2]
    rw [← e1] at b1
    rw [← e3] at c1
    generalize hid : v.read.1 = id at b1
    generalize hcmp : v.read.2.read.1 = cmp at c1
    -- the branch: it exists, some device lies on it, and it is the forced one or the rule's
    have hbr : ∃ d, branch v.ld v.addr (i + 1) id cmp = some d ∧ (∃ r ∈ roms, Agree i r v.addr ∧ r.getLsbD i = d) ∧
        ((∃ r ∈ roms, Agree i r v.addr ∧ r.getLsbD i = !d) →
          id = false ∧ cmp = false ∧
          (if d then (i + 1 < v.ld ∧ v.addr.getLsbD i = true) ∨ i + 1 = v.ld
            else (i + 1 < v.ld ∧ v.addr.getLsbD i = false) ∨ v.ld < i + 1)) ∧
        (id = false → cmp = false → ∃ r ∈ roms, Agree i r v.addr ∧ r.getLsbD i = !d) := by
      cases hi1 : id with
      | true =>
        have h1 := b1.1 hi1
        cases hc1 : cmp with
        | true => exact absurd (h1 r0 hr0 ha0) (by rw [c1.1 hc1 r0 hr0 ha0]; simp)
        | false =>
          refine ⟨true, rfl, ⟨r0, hr0, ha0, h1 r0 hr0 ha0⟩, ?_, by simp⟩
          rintro ⟨r, hr, ha, hb⟩
          rw [h1 r hr ha] at hb
          cases hb
      | false =>
        have h1 : ∃ r ∈ roms, Agree i r v.addr ∧ r.getLsbD i = false := by
          by_contra hc
          have : id = true := b1.2 fun r hr ha => by
            by_contra hb
            exact hc ⟨r, hr, ha, by simpa using hb⟩
          rw [hi1] at this
          cases this
        cases hc1 : cmp with
        | true =>
          have h2 := c1.1 hc1
          refine ⟨false, rfl, h1, ?_, by simp⟩
          rintro ⟨r, hr, ha, hb⟩
          rw [h2 r hr ha] at hb
          cases hb
        | false =>
          have h2 : ∃ r ∈ roms, Agree i r v.addr ∧ r.getLsbD i = true := by
            by_contra hc
            have : cmp = true := c1.2 fun r hr ha => by
              by_contra hb
              exact hc ⟨r, hr, ha, by simpa using hb⟩
            rw [hc1] at this
            cases this
          have both : ∀ d : Bool, ∃ r ∈ roms, Agree i r v.addr ∧ r.getLsbD i = d := by
            intro d; cases d
            · exact h1
            · exact h2
          by_cases hlt : i + 1 < v.ld
          · refine ⟨v.addr.getLsbD i, by simp [branch, hlt], both _, fun _ => ⟨rfl, rfl, ?_⟩, fun _ _ => both _⟩
            cases v.addr.getLsbD i <;> simp [hlt]
          · by_cases heq : i + 1 = v.ld
            · exact ⟨true, by simp [branch, heq], both _, fun _ => ⟨rfl, rfl, by simp [heq]⟩, fun _ _ => both _⟩
            · exact ⟨false, by simp [branch, hlt, heq], both _, fun _ => ⟨rfl, rfl, by simp; omega⟩, fun _ _ => both _⟩
    obtain ⟨d, hd, hon, hoff, hmix⟩ := hbr
    have hpos : View.positions (n + 1) (i + 1) lastZero v = View.positions n (i + 1 + 1)
        (if !id && !cmp && !d then i + 1 else lastZero)
        (View.write { v.read.2.read.2 with addr := setBit v.addr i d } d) := by
      conv_lhs => unfold View.positions
      simp only [hid, hcmp, hd]
      rfl
    rw [hpos]
    generalize hv' : View.write { v.read.2.read.2 with addr := setBit v.addr i d } d = v'
    have ha' : v'.addr = setBit v.addr i d := by subst hv'; rfl
    have hk' : v'.ld = v.ld ∧ v'.ldf = v.ldf ∧ v'.diags = v.diags ∧ v'.rsp = v.rsp := by subst hv'; exact ⟨rfl, rfl, rfl, rfl⟩
    have he' : v'.env = (searchEnv roms i v.addr .dir).afterWrite d := by subst hv'; show Env.afterWrite d v.read.2.read.2.env = _; rw [e4]
    obtain ⟨w1, w2⟩ := searchEnv_write roms i hi v.addr d
    -- what a code that agrees with the new address says about bit `i`
    have hbit : ∀ b, Agree (i + 1) b v'.addr → Agree i b v.addr ∧ b.getLsbD i = d := by
      intro b hb
      rw [ha'] at hb
      exact (agree_setBit hi v.addr b d).1 hb
    -- and about a fork there
    have hfork : ∀ b, Agree (i + 1) b v'.addr → (Fork roms b i ↔ (id = false ∧ cmp = false ∧ d = false)) := by
      intro b hb
      obtain ⟨h1, h2⟩ := hbit b hb
      constructor
      · rintro ⟨f1, r, hr, hra, hrb⟩
        have hdf : d = false := h2.symm.trans f1
        obtain ⟨g1, g2, -⟩ := hoff ⟨r, hr, hra.trans h1, by rw [hrb, hdf]; rfl⟩
        exact ⟨g1, g2, hdf⟩
      · rintro ⟨g1, g2, g3⟩
        obtain ⟨r, hr, hra, hrb⟩ := hmix g1 g2
        exact ⟨h2.trans g3, r, hr, hra.trans h1.symm, by rw [hrb, g3]; rfl⟩
    have hrule : ∀ b, Agree (i + 1) b v'.addr →
        (Fork roms b i → (i + 1 < v.ld ∧ v.addr.getLsbD i = false) ∨ v.ld < i + 1) ∧
        (Passed roms b i → (i + 1 < v.ld ∧ v.addr.getLsbD i = true) ∨ i + 1 = v.ld) := by
      intro b hb
      obtain ⟨h1, h2⟩ := hbit b hb
      constructor
      · rintro ⟨f1, r, hr, hra, hrb⟩
        have hdf : d = false := h2.symm.trans f1
        obtain ⟨-, -, g3⟩ := hoff ⟨r, hr, hra.trans h1, by rw [hrb, hdf]; rfl⟩
        simpa [hdf] using g3
      · rintro ⟨f1, r, hr, hra, hrb⟩
        have hdt : d = true := h2.symm.trans f1
        obtain ⟨-, -, g3⟩ := hoff ⟨r, hr, hra.trans h1, by rw [hrb, hdt]; rfl⟩
        simpa [hdt] using g3
    obtain ⟨r1, hr1, har1, hbr1⟩ := hon
    have hact : Agree (i + 1) r1 v'.addr := by rw [ha']; exact (agree_setBit hi v.addr r1 d).2 ⟨har1, hbr1⟩
    cases n with
    | zero =>
      have hi63 : i = 63 := by omega
      subst hi63
      have hb : v'.addr = r1 := hact.eq.symm
      have hbm : v'.addr ∈ roms := by rw [hb]; exact hr1
      have hself : Agree 64 v'.addr v'.addr := fun _ _ => rfl
      show PassFound roms 63 lastZero v (some _, v')
      refine ⟨hk', by rw [he']; exact w2, hbm, (hbit _ hself).1, ?_, ?_, ?_⟩
      · intro m h1 h2
        obtain rfl : m = 63 := by omega
        exact (hrule _ hself).1
      · intro m h1 h2
        obtain rfl : m = 63 := by omega
        exact (hrule _ hself).2
      · refine ⟨_, rfl, ?_⟩
        by_cases hf : id = false ∧ cmp = false ∧ d = false
        · refine .inr ⟨63, Nat.le_refl _, by omega, ?_, (hfork _ hself).2 hf, fun m h1 h2 => by omega⟩
          simp [hf.1, hf.2.1, hf.2.2]
        · refine .inl ⟨?_, fun m h1 h2 => ?_⟩
          · cases id <;> cases cmp <;> cases d <;> simp at hf ⊢
          · obtain rfl : m = 63 := by omega
            rw [hfork _ hself]; exact hf
    | succ n =>
      have hi63 : i < 63 := by omega
      have he'' : v'.env = searchEnv roms (i + 1) v'.addr .bit := by rw [he', w1 hi63, ha']
      have P := positions_found roms (n + 1) (i + 1) (if !id && !cmp && !d then i + 1 else lastZero) v' (by omega)
        (Nat.succ_pos n) he'' ⟨r1, hr1, hact⟩
      generalize View.positions (n + 1) (i + 1 + 1) (if !id && !cmp && !d then i + 1 else lastZero) v' = r at P
      have hkeep : ∀ m, i + 1 ≤ m → m < 64 → v'.addr.getLsbD m = v.addr.getLsbD m := by
        intro m h1 h2
        rw [ha', setBit_getLsbD _ _ _ _ hi h2, if_neg (by omega)]
      obtain ⟨k1, k2, k3, k4⟩ := hk'
      obtain ⟨p1, p2, p3, p4⟩ := P.kept
      refine ⟨⟨p1.trans k1, p2.trans k2, p3.trans k3, p4.trans k4⟩, P.devices, P.mem, (hbit _ P.agree).1, ?_, ?_, ?_⟩
      · intro m h1 h2 hf
        rcases Nat.eq_or_lt_of_le h1 with rfl | hlt
        · exact (hrule _ P.agree).1 hf
        · have := P.fork m (by omega) h2 hf
          rwa [k1, hkeep m (by omega) h2] at this
      · intro m h1 h2 hf
        rcases Nat.eq_or_lt_of_le h1 with rfl | hlt
        · exact (hrule _ P.agree).2 hf
        · have := P.passed m (by omega) h2 hf
          rwa [k1, hkeep m (by omega) h2] at this
      · obtain ⟨lz, hlz, hl⟩ := P.lastZero
        refine ⟨lz, hlz, ?_⟩
        rcases hl with ⟨l1, l2⟩ | ⟨q, q1, q2, q3, q4, q5⟩
        · by_cases hf : id = false ∧ cmp = false ∧ d = false
          · refine .inr ⟨i, Nat.le_refl _, hi, ?_, (hfork _ P.agree).2 hf, fun m h1 h2 => l2 m (by omega) h2⟩
            rw [l1]
            simp [hf.1, hf.2.1, hf.2.2]
          · refine .inl ⟨?_, fun m h1 h2 => ?_⟩
            · rw [l1]
              cases id <;> cases cmp <;> cases d <;> simp at hf ⊢
            · rcases Nat.eq_or_lt_of_le h1 with rfl | hlt
              · rw [hfork _ P.agree]; exact hf
              · exact l2 m (by omega) h2
        · exact .inr ⟨q, by omega, q2, q3, q4, q5⟩

/-! ### A pass -/

/-- `b` is the first code of the line, bit 0 compared first. -/
def First (roms : List Word) (b : Word) : Prop := b ∈ roms ∧ ∀ r ∈ roms, r = b ∨ BitFirstLess b r

/-- `b` is the first code of the line after `a`. -/
def Next (roms : List Word) (a b : Word) : Prop :=
  b ∈ roms ∧ BitFirstLess a b ∧ ∀ r ∈ roms, BitFirstLess a r → r = b ∨ BitFirstLess b r

theorem bitFirstLess_of {a b : Word} {n : Nat} (hn : n < 64) (h : Agree n a b) (ha : a.getLsbD n = false)
    (hb : b.getLsbD n = true) : BitFirstLess a b := ⟨n, hn, h, ha, hb⟩

/-- With no position to replay, a pass finds the first code. -/
theorem PassFound.first {roms : List Word} {z : Nat} {v : View} {r : Option Nat × View} (P : PassFound roms 0 z v r)
    (h : v.ld = 0) : First roms r.2.addr := by
  refine ⟨P.mem, fun c hc => ?_⟩
  by_cases he : c = r.2.addr
  · exact .inl he
  · obtain ⟨n, hn, ha, hne⟩ := first_difference (Ne.symm he)
    right
    cases hb : r.2.addr.getLsbD n with
    | false => exact bitFirstLess_of hn ha hb (by rw [hb] at hne; simpa using hne)
    | true =>
      have := P.passed n (Nat.zero_le _) hn ⟨hb, c, hc, ha.symm, by rw [hb] at hne; simpa using hne⟩
      rw [h] at this
      omega

/-- With `LD` the last fork of the code before, a pass finds the next code. -/
theorem PassFound.next {roms : List Word} {z n : Nat} {v : View} {r : Option Nat × View} (P : PassFound roms 0 z v r)
    (hm : v.addr ∈ roms) (hn : n < 64) (hld : v.ld = n + 1) (hf : Fork roms v.addr n)
    (hl : ∀ m, n < m → m < 64 → ¬ Fork roms v.addr m) : Next roms v.addr r.2.addr := by
  have hag : ∀ m, m ≤ n → Agree m r.2.addr v.addr := by
    intro m
    induction m with
    | zero => intro _ k hk; omega
    | succ m ih =>
      intro hmn
      have ih := ih (by omega)
      refine ih.succ ?_
      by_contra hne
      cases hb : r.2.addr.getLsbD m with
      | false =>
        have hv : v.addr.getLsbD m = true := by rw [hb] at hne; simpa using Ne.symm hne
        rcases P.fork m (Nat.zero_le _) (by omega) ⟨hb, v.addr, hm, ih.symm, hv⟩ with ⟨-, g⟩ | g
        · rw [hv] at g; cases g
        · omega
      | true =>
        have hv : v.addr.getLsbD m = false := by rw [hb] at hne; simpa using Ne.symm hne
        rcases P.passed m (Nat.zero_le _) (by omega) ⟨hb, v.addr, hm, ih.symm, hv⟩ with ⟨-, g⟩ | g
        · rw [hv] at g; cases g
        · omega
  obtain ⟨hfa, c, hc, hca, hcb⟩ := hf
  have hagn := hag n (Nat.le_refl _)
  have hbn : r.2.addr.getLsbD n = true := by
    by_contra hb
    have hb : r.2.addr.getLsbD n = false := by simpa using hb
    rcases P.fork n (Nat.zero_le _) hn ⟨hb, c, hc, hca.trans hagn.symm, hcb⟩ with ⟨g, -⟩ | g <;> omega
  refine ⟨P.mem, bitFirstLess_of hn hagn.symm hfa hbn, ?_⟩
  rintro x hx ⟨k, hk, hka, hk0, hk1⟩
  have hkn : k ≤ n := by
    by_contra hc2
    exact hl k (by omega) hk ⟨hk0, x, hx, Agree.symm hka, hk1⟩
  rcases Nat.lt_or_eq_of_le hkn with hlt | rfl
  · right
    refine bitFirstLess_of hk ((hagn.mono (by omega)).trans hka) ?_ hk1
    rw [hagn k hlt]; exact hk0
  · by_cases he : x = r.2.addr
    · exact .inl he
    · right
      obtain ⟨q, hq, hqa, hne⟩ := first_difference (Ne.symm he)
      have hkq : k < q := by
        have h1 : Agree (k + 1) r.2.addr x := (hagn.trans hka).succ (hbn.trans hk1.symm)
        by_contra hc2
        exact hne (h1 q (by omega))
      cases hb : r.2.addr.getLsbD q with
      | false => exact bitFirstLess_of hq hqa hb (by rw [hb] at hne; simpa using hne)
      | true =>
        rcases P.passed q (Nat.zero_le _) hq ⟨hb, x, hx, hqa.symm, by rw [hb] at hne; simpa using hne⟩ with ⟨g, -⟩ | g <;> omega

/-- A code without forks is the last. -/
theorem last_of_no_fork {roms : List Word} {a : Word} (h : ∀ m, m < 64 → ¬ Fork roms a m) :
    ∀ r ∈ roms, ¬ BitFirstLess a r := by
  rintro r hr ⟨n, hn, ha, h0, h1⟩
  exact h n hn ⟨h0, r, hr, Agree.symm ha, h1⟩

/-- The reset slot and the command byte put every device into the search (20_memory.md R65, R66). -/
theorem search_begins {roms : List Word} {v : View} (h : devicesOf roms v.env) (hne : roms ≠ []) :
    v.resetPulse.1 = true ∧
    (v.resetPulse.2.writeBits (SlotLevel.bitsOf Config.romSearch)).env =
      .dev (roms.map fun r => ⟨r, .srch 0 .bit⟩) ∧
    v.resetPulse.2.ld = v.ld ∧ v.resetPulse.2.ldf = v.ldf ∧ v.resetPulse.2.addr = v.addr ∧
    v.resetPulse.2.diags = v.diags ∧ v.resetPulse.2.rsp = v.rsp := by
  obtain ⟨ds, he, hr⟩ := h
  have hds : ds.isEmpty = false := by cases ds <;> simp_all
  have ha : v.env.resetAnswer = .pres := by rw [he]; simp [Env.resetAnswer, hds]
  have hp : v.resetPulse = (true, { v with env := v.env.afterReset, events := v.events ++ [.rst .pres] }) := by
    simp only [View.resetPulse, View.resetSlot, ha]
  rw [hp]
  refine ⟨rfl, ?_, rfl, rfl, rfl, rfl, rfl⟩
  have hw : ∀ (bits : List Bool) (es : List Device), bits.foldl (fun e b => Env.afterWrite b e) (.dev es) =
      .dev (es.map fun d => bits.foldl (fun d b => Device.afterWrite b d) d) := by
    intro bits
    induction bits with
    | nil => intro es; simp
    | cons b bs ih =>
      intro es
      rw [List.foldl_cons, show Env.afterWrite b (.dev es) = .dev (es.map (Device.afterWrite b)) from rfl, ih, List.map_map]
      rfl
  rw [writeBits_env, he]
  simp only [Env.afterReset, hw, ← hr, List.map_map]
  congr 1

/-- A pass against `Dev(S)` finds a code as the loop does, and checks its byte 0 (43_search.md R171). -/
theorem searchOne_devices {roms : List Word} {v : View} (h : devicesOf roms v.env) (hne : roms ≠ []) (hf : v.ldf = false) :
    ∃ (b : Word) (lz : Nat) (u : View) (w : View), PassFound roms 0 0 w (some lz, u) ∧ u.addr = b ∧ w.ld = v.ld ∧
      w.addr = v.addr ∧ u.diags = v.diags ∧ u.rsp = v.rsp ∧ LastFork roms b 0 0 lz ∧
      v.searchOne = if lowByte b = 0#8 then u.failPass else (b, { u with ld := lz, ldf := decide (lz = 0) }) := by
  obtain ⟨h1, h2, h3, h4, h5, h6, h7⟩ := search_begins h hne
  obtain ⟨k1, k2, k3, k4, k5⟩ := writeBits_kept (SlotLevel.bitsOf Config.romSearch) v.resetPulse.2
  generalize hw : v.resetPulse.2.writeBits (SlotLevel.bitsOf Config.romSearch) = w at *
  obtain ⟨r0, hr0⟩ := List.exists_mem_of_ne_nil roms hne
  have P := positions_found roms 64 0 0 w rfl (by omega) (by rw [h2, searchEnv_zero]) ⟨r0, hr0, fun m hm => by omega⟩
  have hs : v.searchOne = match View.positions 64 1 0 w with
      | (none, v) => v.failPass
      | (some lastZero, v) =>
        if v.addr.extractLsb' 0 8 = 0#8 then v.failPass
        else (v.addr, { v with ld := lastZero, ldf := decide (lastZero = 0) }) := by
    simp only [View.searchOne, hf, h1, hw, if_true, Bool.false_eq_true, if_false]
    all_goals
      generalize View.positions 64 1 0 w = r
      obtain ⟨_ | lz, u⟩ := r <;> rfl
  obtain ⟨lz, hlz, hl⟩ := P.lastZero
  rw [Nat.zero_add] at P hlz hl
  generalize View.positions 64 1 0 w = r at P hlz hl hs
  obtain ⟨o, u⟩ := r
  obtain rfl : o = some lz := hlz
  obtain ⟨p1, p2, p3, p4⟩ := P.kept
  exact ⟨u.addr, lz, u, w, P, rfl, k1.trans h3, k3.trans h5, (p3.trans k4).trans h6, (p4.trans k5).trans h7, hl, hs⟩

end Sys2Proof.Machine
end

