-- ==== Sys2Proof/Laws/Diagnostics.lean ====
section
/-!
SUPPORT. Nothing the block does depends on what has been put on the diagnostic channel (60_exceptions.md R211): every operation
commutes with a change of that history.
-/

namespace Sys2Proof.Machine

/-- A state with another history of diagnostics. -/
def State.withDiags (d : List Diag) (s : State) : State := { s with diags := d }

variable (d : List Diag)

/-- A loop over something that does not touch the channel does not touch it. -/
theorem foldl_withDiags {α : Type} {f : State → α → State} (h : ∀ a s, f (s.withDiags d) a = (f s a).withDiags d) :
    ∀ (as : List α) (s : State), as.foldl f (s.withDiags d) = (as.foldl f s).withDiags d
  | [], _ => rfl
  | a :: as, s => by rw [List.foldl_cons, List.foldl_cons, h, foldl_withDiags h as]

theorem beginSlot_withDiags (s : State) : (s.withDiags d).beginSlot = s.beginSlot.withDiags d := by
  rw [beginSlot_eq, beginSlot_eq]; rfl

theorem setDrive_withDiags (v : Bool) (s : State) : (s.withDiags d).setDrive v = (s.setDrive v).withDiags d := rfl
theorem setCrit_withDiags (v : Bool) (s : State) : (s.withDiags d).setCrit v = (s.setCrit v).withDiags d := rfl
theorem advanceTo_withDiags (t : Nat) (s : State) : (s.withDiags d).advanceTo t = (s.advanceTo t).withDiags d := rfl
theorem look_withDiags (a b : Nat) (s : State) : (s.withDiags d).look a b = (s.look a b).withDiags d := rfl
theorem endSlot_withDiags (ev : BusEvent) (t0 : Nat) (e : Env) (s : State) :
    (s.withDiags d).endSlot ev t0 e = (s.endSlot ev t0 e).withDiags d := rfl
theorem withDiags_timing (s : State) : (s.withDiags d).timing = s.timing := rfl
theorem withDiags_now (s : State) : (s.withDiags d).now = s.now := rfl
theorem withDiags_env (s : State) : (s.withDiags d).env = s.env := rfl
theorem withDiags_tr (s : State) : (s.withDiags d).tr = s.tr := rfl
theorem withDiags_owDriveLow (s : State) : (s.withDiags d).owDriveLow = s.owDriveLow := rfl

theorem slotWrite_withDiags (b : Bool) (s : State) : (s.withDiags d).slotWrite b = (s.slotWrite b).withDiags d := by
  simp only [State.slotWrite, beginSlot_withDiags, setDrive_withDiags, setCrit_withDiags, advanceTo_withDiags, endSlot_withDiags,
    withDiags_timing, withDiags_env, withDiags_tr]

theorem slotRead_withDiags (s : State) : (s.withDiags d).slotRead = (s.slotRead.1, s.slotRead.2.withDiags d) := by
  simp only [State.slotRead, beginSlot_withDiags, setDrive_withDiags, setCrit_withDiags, advanceTo_withDiags, look_withDiags,
    endSlot_withDiags, withDiags_timing, withDiags_now, withDiags_env, withDiags_tr, withDiags_owDriveLow]

theorem slotReset_withDiags (s : State) : (s.withDiags d).slotReset = (s.slotReset.1, s.slotReset.2.withDiags d) := by
  have e1 : (s.withDiags d).slotStart = s.slotStart := rfl
  have e2 : (s.withDiags d).scan = s.scan := rfl
  rw [slotReset_eq, slotReset_eq, e1, e2]
  generalize s.scan = sc
  generalize s.slotStart + 960 = t1
  generalize s.slotStart + 480 = t2
  rfl

/-- What `ResetPulse()` puts on the channel does not depend on what is there. -/
theorem resetPulse_withDiags (s : State) : ∃ new, s.resetPulse.2.diags = s.diags ++ new ∧
    ∀ d, (s.withDiags d).resetPulse = (s.resetPulse.1, s.resetPulse.2.withDiags (d ++ new)) := by
  unfold State.resetPulse
  simp only [slotReset_withDiags]
  have h := slotReset_diags s
  generalize s.slotReset = r at h
  obtain ⟨o, q⟩ := r
  replace h : q.diags = s.diags := h
  cases o
  · exact ⟨[⟨q.now, .noFloat⟩], by simp [h], fun d => rfl⟩
  · exact ⟨[⟨q.now, .noPres⟩], by simp [h], fun d => rfl⟩
  · exact ⟨[], by simp [h], fun d => by simp⟩
  · exact ⟨[⟨q.now, .noRel⟩], by simp [h], fun d => rfl⟩

theorem shiftOutByte_withDiags (s : State) : (s.withDiags d).shiftOutByte = s.shiftOutByte.withDiags d :=
  foldl_withDiags d (f := State.shiftOutBit) (fun k s => slotWrite_withDiags d (s.setK k).shBit (s.setK k)) counter s

theorem writeByte_withDiags (v : Byte) (s : State) : (s.withDiags d).writeByte v = (s.writeByte v).withDiags d :=
  shiftOutByte_withDiags d (s.loadSh (ofByte v))

theorem writeWord_withDiags (v : Word) (s : State) : (s.withDiags d).writeWord v = (s.writeWord v).withDiags d :=
  foldl_withDiags d (f := State.shiftOutByteAt) (fun j s => shiftOutByte_withDiags d (s.setJ j)) counter (s.loadSh v)

theorem shiftInBit_withDiags (k : BitVec 3) (s : State) : (s.withDiags d).shiftInBit k = (s.shiftInBit k).withDiags d := by
  unfold State.shiftInBit
  rw [show (s.withDiags d).setK k = (s.setK k).withDiags d from rfl, slotRead_withDiags]
  rfl

theorem shiftInByte_withDiags (s : State) : (s.withDiags d).shiftInByte = s.shiftInByte.withDiags d :=
  foldl_withDiags d (f := State.shiftInBit) (shiftInBit_withDiags d) counter s

theorem readByte_withDiags (s : State) : (s.withDiags d).readByte = (s.readByte.1, s.readByte.2.withDiags d) := by
  have h := shiftInByte_withDiags d (s.loadSh 0#64)
  show (lowByte ((s.loadSh 0#64).withDiags d).shiftInByte.tr.sh, ((s.loadSh 0#64).withDiags d).shiftInByte) = _
  rw [h]
  rfl

theorem readWord_withDiags (s : State) : (s.withDiags d).readWord = (s.readWord.1, s.readWord.2.withDiags d) := by
  have h := foldl_withDiags d (f := State.shiftInByteAt) (fun j s => shiftInByte_withDiags d (s.setJ j)) counter (s.loadSh 0#64)
  unfold State.readWord
  simp only
  rw [show (s.withDiags d).loadSh 0#64 = (s.loadSh 0#64).withDiags d from rfl, h]
  generalize counter.foldl State.shiftInByteAt (s.loadSh 0#64) = q
  rfl

theorem takeBranch_withDiags (x b : Bool) (s : State) : (s.withDiags d).takeBranch x b = (s.takeBranch x b).withDiags d := by
  unfold State.takeBranch
  have : (if x && !b then (s.withDiags d).setLastZero (s.withDiags d).tr.p else s.withDiags d) =
      (if x && !b then s.setLastZero s.tr.p else s).withDiags d := by split <;> rfl
  simp only [this]
  generalize (if x && !b then s.setLastZero s.tr.p else s) = q
  rw [show (q.withDiags d).setAddrBit b = (q.setAddrBit b).withDiags d from rfl, slotWrite_withDiags]
  rfl

theorem searchPosition_withDiags (s : State) :
    (s.withDiags d).searchPosition = (s.searchPosition.1, s.searchPosition.2.withDiags d) := by
  unfold State.searchPosition
  simp only [slotRead_withDiags]
  generalize s.slotRead = i
  obtain ⟨i1, i2⟩ := i
  simp only
  generalize i2.slotRead = c
  obtain ⟨c1, c2⟩ := c
  have e : (c2.withDiags d).discrepancyBranch = c2.discrepancyBranch := rfl
  cases i1 <;> cases c1 <;> simp only [e, takeBranch_withDiags]

theorem searchLoop_withDiags : ∀ (n : Nat) (s : State),
    State.searchLoop n (s.withDiags d) = ((State.searchLoop n s).1, (State.searchLoop n s).2.withDiags d)
  | 0, _ => rfl
  | n + 1, s => by
    unfold State.searchLoop
    simp only [searchPosition_withDiags]
    generalize s.searchPosition = r
    obtain ⟨r1, r2⟩ := r
    cases r1
    · rfl
    · exact searchLoop_withDiags n r2

theorem finishPass_withDiags (s : State) : (s.withDiags d).finishPass = (s.finishPass.1, s.finishPass.2.withDiags d) := by
  unfold State.finishPass
  have e : (s.withDiags d).commitPass = s.commitPass.withDiags d := rfl
  simp only [e]
  generalize s.commitPass = q
  have e' : (q.withDiags d).addressValid = q.addressValid := rfl
  rw [e']
  split <;> rfl

theorem traverse_withDiags (s : State) : (s.withDiags d).traverse = (s.traverse.1, s.traverse.2.withDiags d) := by
  unfold State.traverse
  have e : (((s.withDiags d).writeByte Config.romSearch).setLastZero 0#7).setP 1#7 =
      (((s.writeByte Config.romSearch).setLastZero 0#7).setP 1#7).withDiags d := by rw [writeByte_withDiags]; rfl
  simp only [e, searchLoop_withDiags]
  generalize State.searchLoop 64 _ = r
  obtain ⟨r1, r2⟩ := r
  cases r1
  · rfl
  · exact finishPass_withDiags d r2

/-- What a pass puts on the channel does not depend on what is there. -/
theorem searchOne_withDiags (s : State) : ∃ new, s.searchOne.2.diags = s.diags ++ new ∧
    ∀ d, (s.withDiags d).searchOne = (s.searchOne.1, s.searchOne.2.withDiags (d ++ new)) := by
  obtain ⟨new, h1, h2⟩ := resetPulse_withDiags s
  unfold State.searchOne
  have e : ∀ d, (s.withDiags d).ldf = s.ldf := fun _ => rfl
  simp only [e, h2]
  cases s.ldf
  · generalize s.resetPulse = r at h1
    obtain ⟨r1, r2⟩ := r
    cases r1
    · exact ⟨new, h1, fun d => rfl⟩
    · refine ⟨new, ?_, fun d => traverse_withDiags _ r2⟩
      have h := congrArg (fun q : Word × State => q.2.diags) (traverse_withDiags r2.diags r2)
      exact Eq.trans h h1
  · exact ⟨[], by simp, fun d => by simp⟩

/-- So does a round of ENUM's loop. -/
theorem enumRound_withDiags (s : State) : ∃ new, s.enumRound.diags = s.diags ++ new ∧
    ∀ d, (s.withDiags d).enumRound = s.enumRound.withDiags (d ++ new) := by
  obtain ⟨new, h1, h2⟩ := searchOne_withDiags s
  unfold State.enumRound
  simp only [h2]
  generalize s.searchOne = r at h1
  split
  · exact ⟨new, h1, fun d => rfl⟩
  · exact ⟨new, h1, fun d => rfl⟩

end Sys2Proof.Machine
end

