-- ==== Sys2Proof/Laws/PerInstr.lean ====
section
/-!
SUPPORT. What is said of every operation as syntax, one lemma a constructor: its command word is legal.
-/

namespace Sys2Proof.Laws.EncodeLegal

/-- The command word of an operation is legal (30_encoding.md R84, R87): some row of the opcode map selects it. -/
def Statement (i : Instr) : Prop := legalWord (encode i) = true

/-- A word with the `op` of a row and no reserved bit is legal. -/
theorem of_row (i : Instr) (r : OpcodeRow) (hr : r ∈ opcodeTable) (h1 : opcode i = r.pat.extractLsb' 64 8)
    (h2 : operand i >>> r.format.operandBits = 0#64) : Statement i := by
  obtain ⟨f1, f2⟩ := fields_append (opcode i) (operand i)
  have hs : r.selects (encode i) = true := by
    rw [selects_iff r hr]
    unfold encode
    rw [f1, f2]
    exact ⟨h1, h2⟩
  exact List.any_eq_true.2 ⟨r, hr, hs⟩

theorem reset : Statement .reset := by unfold Statement; decide

theorem wbit (bit : Bool) : Statement (.wbit bit) := by cases bit <;> (unfold Statement; decide)

theorem rbit : Statement .rbit := by unfold Statement; decide

theorem wbyte (v : Byte) : Statement (.wbyte v) := by
  refine of_row _ ⟨"WBYTE", .y, 0x040000000000000000#72, 0xFFFFFFFFFFFFFFFF00#72⟩ (by decide) rfl ?_
  rw [shift_zero_iff]
  intro i h1 _
  rw [show operand (.wbyte v) = v.setWidth 64 from rfl, BitVec.getLsbD_setWidth, BitVec.getLsbD_of_ge v i h1, Bool.and_false]

theorem rbyte : Statement .rbyte := by unfold Statement; decide

theorem wword (v : Word) : Statement (.wword v) := by
  refine of_row _ ⟨"WWORD", .w, 0x060000000000000000#72, 0xFF0000000000000000#72⟩ (by decide) rfl ?_
  rw [shift_zero_iff]
  intro i h1 h2
  have : 64 ≤ i := h1
  omega

theorem rword : Statement .rword := by unfold Statement; decide

theorem select (address : Word) : Statement (.select address) := by
  refine of_row _ ⟨"SELECT", .w, 0x080000000000000000#72, 0xFF0000000000000000#72⟩ (by decide) rfl ?_
  rw [shift_zero_iff]
  intro i h1 h2
  have : 64 ≤ i := h1
  omega

theorem skip : Statement .skip := by unfold Statement; decide

theorem srst : Statement .srst := by unfold Statement; decide

theorem search : Statement .search := by unfold Statement; decide

theorem enum : Statement .enum := by unfold Statement; decide

end Sys2Proof.Laws.EncodeLegal
end

