-- ==== Sys2Proof/Laws/Registers.lean ====
section
/-!
SUPPORT. What the slots do with the registers they do not use: nothing depends on them and they come out as they went in
(10_state.md R26, R28).
-/

namespace Sys2Proof.Machine

/-- A state with another search state and other transient registers. -/
def State.withRegs (l : BitVec 7) (f : Bool) (a : Word) (x : Transient) (s : State) : State :=
  { s with ld := l, ldf := f, addr := a, tr := x }

variable (l : BitVec 7) (f : Bool) (a : Word) (x : Transient) (s : State)

theorem beginSlot_withRegs : (s.withRegs l f a x).beginSlot =
    s.beginSlot.withRegs l f a { x with tRef := s.beginSlot.tr.tRef } := by
  rw [beginSlot_eq, beginSlot_eq]
  rfl

theorem advance_withRegs (d : Nat) : (s.withRegs l f a x).advance d = (s.advance d).withRegs l f a x := rfl

theorem slotWrite_withRegs (b : Bool) : (s.withRegs l f a x).slotWrite b =
    (s.slotWrite b).withRegs l f a { x with tRef := (s.slotWrite b).tr.tRef } := by
  simp only [State.slotWrite, beginSlot_withRegs]
  rfl

theorem slotRead_withRegs : (s.withRegs l f a x).slotRead =
    (s.slotRead.1, s.slotRead.2.withRegs l f a { x with tRef := s.slotRead.2.tr.tRef }) := by
  simp only [State.slotRead, beginSlot_withRegs]
  rfl

theorem slotReset_withRegs : (s.withRegs l f a x).slotReset =
    (s.slotReset.1, s.slotReset.2.withRegs l f a { x with tRef := s.slotReset.2.tr.tRef }) := by
  have e1 : (s.withRegs l f a x).slotStart = s.slotStart := rfl
  have e2 : (s.withRegs l f a x).scan = s.scan := rfl
  rw [slotReset_eq, slotReset_eq, e1, e2]
  generalize s.scan = sc
  generalize s.slotStart + 960 = t1
  generalize s.slotStart + 480 = t2
  rfl

theorem resetPulse_withRegs : (s.withRegs l f a x).resetPulse =
    (s.resetPulse.1, s.resetPulse.2.withRegs l f a { x with tRef := s.resetPulse.2.tr.tRef }) := by
  simp only [State.resetPulse, slotReset_withRegs]
  generalize s.slotReset = r
  obtain ⟨o, q⟩ := r
  cases o <;> rfl

end Sys2Proof.Machine
end

