-- ==== Sys2Proof/Laws/Step.lean ====
section
/-!
SUPPORT. A step: the four things it can be, and hardware reset in the middle of one.
-/

namespace Sys2Proof.Machine

/-! ### What an operation and a round keep -/

/-- Every operation has a next state, with the inputs and the parameters as before. -/
theorem exec_kept (i : Instr) (s : State) : ∃ t, exec i s = .next t ∧ InputsKept s t := by
  obtain ⟨m, t, h, e, hx⟩ := exec_acts i s
  obtain ⟨k1, k2, k3⟩ := h.kept
  refine ⟨t, hx, ?_⟩
  cases e <;> exact ⟨k1, k2, k3⟩

/-- So has a round of ENUM's loop. -/
theorem enumRound_kept (s : State) : InputsKept s s.enumRound := by
  obtain ⟨m, h, e⟩ := enumRound_acts s
  obtain ⟨k1, k2, k3⟩ := h.kept
  generalize s.enumRound = u at e
  cases e <;> exact ⟨k1, k2, k3⟩

/-- Every operation only adds to the histories. -/
theorem exec_grown (i : Instr) (s t : State) (h : exec i s = .next t) : Grown s t ∧ InputsKept s t := by
  obtain ⟨m, t', ha, e, hx⟩ := exec_acts i s
  rw [h] at hx; injection hx with hx; subst hx
  obtain ⟨k1, k2, k3⟩ := ha.kept
  have g := ha.grown
  have g0 : Grown s s.start := (Grown.refl s).of_eq rfl rfl rfl rfl rfl rfl
  have g1 := g0.trans g
  cases e
  · exact ⟨g1.of_eq rfl rfl rfl rfl rfl rfl, k1, k2, k3⟩
  · exact ⟨g1, k1, k2, k3⟩

/-- So does every round of ENUM's loop. -/
theorem enumRound_grown (s : State) : Grown s s.enumRound := by
  obtain ⟨m, ha, he⟩ := enumRound_acts s
  have g := ha.grown
  generalize s.enumRound = u at he
  cases he
  · exact g.of_eq rfl rfl rfl rfl rfl rfl
  · exact g

/-- Taking an offer touches no history. -/
theorem Grown.of_take {s t : State} {rest : List Offer} (g : Grown (s.take rest) t) : Grown s t :=
  ⟨g.now, g.bus, g.rsp, g.diags, g.trace, g.looks⟩

/-- So does everything that a command word leads to. -/
theorem execWord_grown {w : CmdWord} {rest : List Offer} {s t : State} (h : execWord w (s.take rest) = .next t) : Grown s t := by
  unfold execWord at h
  split at h
  · exact (exec_grown _ _ _ h).1.of_take
  · injection h with h; subst h
    exact ⟨Nat.le_refl _, List.prefix_refl _, List.prefix_append _ _, List.prefix_append _ _, List.prefix_refl _,
      List.prefix_refl _⟩

/-- A microsecond in reset. -/
theorem holdReset_eq (s : State) : s.holdReset = { s.hardReset with now := s.now + 1 } := advance_quiet 1 rfl rfl

/-- A microsecond of idling with the line released. -/
theorem idle_eq {s : State} (h : s.owDriveLow = false ∧ s.crit = false) : s.idle = { s with now := s.now + 1 } :=
  advance_quiet 1 h.1 h.2

/-! ### Hardware reset in the middle -/

/-- No reset is found where `rst` does not change any more. -/
theorem firstReset_none {s s' : State} (h : NoResetAhead s) (he : s'.rstEdges = s.rstEdges) : s'.firstReset s.now = none := by
  have : s'.rstEdges.filter (fun e => decide (s.now < e) && decide (e ≤ s'.now) && levelAt s'.rstEdges e) = [] := by
    rw [List.filter_eq_nil_iff, he]
    intro e hm
    have := h e hm
    simp; omega
  simp [State.firstReset, this]

/-- No reset is found where no time has passed. -/
theorem firstReset_now {s s' : State} (h : s'.now = s.now) : s'.firstReset s.now = none := by
  have : s'.rstEdges.filter (fun e => decide (s.now < e) && decide (e ≤ s'.now) && levelAt s'.rstEdges e) = [] := by
    rw [List.filter_eq_nil_iff]
    intro e hm
    simp; omega
  simp [State.firstReset, this]

/-- What is found: an instant inside the step at which `rst` is 1. -/
theorem firstReset_some {t0 e : Nat} {s : State} (h : s.firstReset t0 = some e) :
    t0 < e ∧ e ≤ s.now ∧ levelAt s.rstEdges e = true := by
  unfold State.firstReset at h
  have hm := List.min?_mem h
  rw [List.mem_filter] at hm
  simpa [and_assoc] using hm.2

/-- A signal keeps its level where it has no edge. -/
theorem levelAt_same {edges : List Nat} {a b : Nat} (hab : a ≤ b) (h : ∀ e ∈ edges, ¬ (a < e ∧ e ≤ b)) :
    levelAt edges a = levelAt edges b := by
  unfold levelAt
  congr 3
  apply List.filter_congr
  intro e he
  have := h e he
  simp; omega

/-- A signal that has risen has an edge at which it is 1. -/
theorem levelAt_rises {edges : List Nat} {a : Nat} (h0 : levelAt edges a = false) : ∀ n, levelAt edges (a + n) = true →
    ∃ e ∈ edges, a < e ∧ e ≤ a + n ∧ levelAt edges e = true
  | 0, h => by rw [Nat.add_zero, h0] at h; cases h
  | n + 1, h => by
    cases hn : levelAt edges (a + n) with
    | true =>
      obtain ⟨e, h1, h2, h3, h4⟩ := levelAt_rises h0 n hn
      exact ⟨e, h1, h2, by omega, h4⟩
    | false =>
      by_cases hm : a + (n + 1) ∈ edges
      · exact ⟨_, hm, by omega, Nat.le_refl _, h⟩
      · have := levelAt_same (edges := edges) (a := a + n) (b := a + (n + 1)) (by omega) fun e he hx => by
          obtain rfl : e = a + (n + 1) := by omega
          exact hm he
        rw [hn, h] at this; cases this

/-- Where no reset is found, `rst` is still 0 at the end. -/
theorem rst_of_firstReset_none {s t : State} (h0 : s.rst = false) (he : t.rstEdges = s.rstEdges) (hn : s.now ≤ t.now)
    (h : t.firstReset s.now = none) : t.rst = false := by
  cases hr : t.rst with
  | false => rfl
  | true =>
    have hr' : levelAt s.rstEdges (s.now + (t.now - s.now)) = true := by
      rw [Nat.add_sub_cancel' hn, ← he]; exact hr
    obtain ⟨e, h1, h2, h3, h4⟩ := levelAt_rises h0 _ hr'
    rw [State.firstReset, List.min?_eq_none_iff, List.filter_eq_nil_iff, he] at h
    have := h e h1
    simp [h2, h4] at this
    omega

/-- The reset that is found is the one at which `rst` rises. -/
theorem firstReset_of_rises {s t : State} {e : Nat} (h : RstRisesAt s e) (he : t.rstEdges = s.rstEdges) (ht : e ≤ t.now) :
    t.firstReset s.now = some e := by
  obtain ⟨h1, h2, h3⟩ := h
  rw [State.firstReset, he, List.min?_eq_some_iff]
  have hn := levelAt_rises (h3 s.now (Nat.le_refl _) h1) (e - s.now) (by rw [Nat.add_sub_cancel' (Nat.le_of_lt h1)]; exact h2)
  refine ⟨?_, ?_⟩
  · obtain ⟨x, g1, g2, g3, g4⟩ := hn
    obtain rfl : x = e := by
      by_contra hne
      have := h3 x (Nat.le_of_lt g2) (by omega)
      rw [g4] at this; cases this
    rw [List.mem_filter]
    simp [g1, h1, ht, h2]
  · intro x hx
    rw [List.mem_filter] at hx
    obtain ⟨-, hx⟩ := hx
    simp only [Bool.and_eq_true, decide_eq_true_eq] at hx
    by_contra hlt
    have := h3 x (by omega) (by omega)
    rw [hx.2] at this; cases this

/-- What is found leads to the state that reset leaves. -/
theorem cutByReset_some {s t : State} {e : Nat} (h : t.firstReset s.now = some e) : s.cutByReset t = s.abandonAt e t := by
  simp [State.cutByReset, h]

/-- The state that reset leaves has its registers at their reset values. -/
theorem abandonAt_registers (s t : State) (e : Nat) : RegistersAtReset (s.abandonAt e t) := ⟨rfl, rfl, rfl, rfl, rfl, rfl⟩

/-- Of the diagnostics of what reset abandons, those given before the reset stay (log 11). -/
theorem abandonAt_diags {s t : State} {e : Nat} (hs : ∀ d ∈ s.diags, d.time < e) (h : s.diags <+: t.diags) :
    (s.abandonAt e t).diags = t.diags.filter fun d => decide (d.time < e) := by
  obtain ⟨new, hn⟩ := h
  show s.diags ++ (t.diags.drop s.diags.length).filter (fun d => decide (d.time < e)) = _
  rw [← hn, List.drop_left, List.filter_append, List.filter_eq_self.2 fun d hd => decide_eq_true (hs d hd)]

/-- What gives its one beat at its end gives none where reset abandons it. -/
theorem abandonAt_rsp {s t : State} {e : Nat} {b : Beat} (h : t.rsp = s.rsp ++ [b]) (hb : e ≤ b.time) :
    (s.abandonAt e t).rsp = s.rsp := by
  show s.rsp ++ (t.rsp.drop s.rsp.length).filter (fun b => decide (b.time < e)) = s.rsp
  rw [h, List.drop_left]
  simp [Nat.not_lt.2 hb]

/-- So has a block held in reset. -/
theorem holdReset_registers (s : State) : RegistersAtReset s.holdReset := ⟨rfl, rfl, rfl, rfl, rfl, rfl⟩

/-- The devices on the line stay, whatever happens in a slot. -/
theorem devicesOf_afterEvent {roms : List Word} {e : Env} (h : devicesOf roms e) (ev : BusEvent) : devicesOf roms (e.afterEvent ev) := by
  obtain ⟨ds, rfl, rfl⟩ := h
  cases ev with
  | rst o => exact ⟨_, rfl, by simp [List.map_map, Function.comp_def, Device.afterReset]⟩
  | w b =>
    refine ⟨_, rfl, ?_⟩
    rw [List.map_map]
    apply List.map_congr_left
    intro d _
    simp only [Function.comp, Device.afterWrite]
    split <;> (try split) <;> (try split) <;> rfl
  | r b =>
    refine ⟨_, rfl, ?_⟩
    rw [List.map_map]
    apply List.map_congr_left
    intro d _
    simp only [Function.comp, Device.afterRead]
    split <;> rfl

/-- They stay where a slot is cut (20_memory.md R64). -/
theorem devicesOf_afterCut {roms : List Word} {e : Env} (h : devicesOf roms e) (cut : Nat) : devicesOf roms (e.afterCut cut) := by
  obtain ⟨ds, rfl, rfl⟩ := h
  refine ⟨_, rfl, ?_⟩
  apply List.ext_getElem <;> simp

/-- They stay through a list of slots. -/
theorem devicesOf_slots {roms : List Word} : ∀ (sls : List Slot) {e : Env}, devicesOf roms e →
    devicesOf roms (sls.foldl (fun e sl => e.afterEvent sl.ev) e)
  | [], _, h => h
  | sl :: sls, _, h => devicesOf_slots sls (devicesOf_afterEvent h sl.ev)

/-- They stay where reset comes. -/
theorem devicesOf_envAt {roms : List Word} {s : State} (h : devicesOf roms s.env) (e : Nat) (t : State) :
    devicesOf roms (s.envAt e t) := by
  unfold State.envAt
  simp only
  split
  · exact devicesOf_afterCut (devicesOf_slots _ h) _
  · exact devicesOf_slots _ h

/-- Acts do to the environment what their slots do. -/
theorem Acts.env {s t : State} (h : Acts s t) : ∃ new, t.bus = s.bus ++ new ∧ t.env = new.foldl (fun e sl => e.afterEvent sl.ev) s.env := by
  have more : ∀ {q u : State} {sl : Slot}, (∃ new, q.bus = s.bus ++ new ∧ q.env = new.foldl (fun e sl => e.afterEvent sl.ev) s.env) →
      u.bus = q.bus ++ [sl] → u.env = q.env.afterEvent sl.ev →
      ∃ new, u.bus = s.bus ++ new ∧ u.env = new.foldl (fun e sl => e.afterEvent sl.ev) s.env := by
    intro q u sl ⟨new, h1, h2⟩ g1 g2
    exact ⟨new ++ [sl], by rw [g1, h1, List.append_assoc], by rw [g2, h2, List.foldl_append]; rfl⟩
  induction h with
  | refl => exact ⟨[], (List.append_nil _).symm, rfl⟩
  | @write q b _ ih =>
    exact more (sl := ⟨.w b, q.slotStart, (q.slotWrite b).now⟩) ih (by simp [State.slotWrite, beginSlot_eq, State.advanceTo])
      (slotWrite_env q b)
  | @read q _ ih =>
    exact more (sl := ⟨.r q.slotRead.1, q.slotStart, q.slotRead.2.now⟩) ih
      (by simp [State.slotRead, beginSlot_eq, State.advanceTo]) (slotRead_env q)
  | @reset q _ ih =>
    exact more (sl := ⟨.rst q.scan.outcome, q.slotStart, q.slotStart + 960⟩) ih (by rw [slotReset_eq]) (slotReset_env q)
  | diag _ _ ih => exact ih
  | respond _ _ _ ih => exact ih
  | regs _ f ih => rw [f.bus, f.env]; exact ih

/-- Nothing is cut where `rst` does not change any more. -/
theorem cutByReset_none {s s' : State} (h : NoResetAhead s) (he : s'.rstEdges = s.rstEdges) : s.cutByReset s' = s' := by
  simp [State.cutByReset, firstReset_none h he]

/-- A cut leaves the offers. -/
theorem cutByReset_offers (s s' : State) : (s.cutByReset s').offers = s'.offers := by
  unfold State.cutByReset
  split
  · simp [State.abandonAt, State.hardReset]
  · rfl

/-- A history cut at `e` shows the same outputs before `e` and none from `e` on. -/
theorem any_clip (e x : Nat) (f : Span → Bool) (hf : ∀ sp n, f { sp with stop := n } = f sp) (l : List Span) :
    (l.filterMap (clipSpan e)).any (fun sp => f sp && decide (sp.start ≤ x) && decide (x < sp.stop)) =
    (decide (x < e) && l.any (fun sp => f sp && decide (sp.start ≤ x) && decide (x < sp.stop))) := by
  induction l with
  | nil => simp
  | cons a l ih =>
    rw [List.filterMap_cons]
    unfold clipSpan at *
    split
    · next hn =>
      split at hn
      · cases hn
      · next hlt =>
      rw [ih, List.any_cons]
      by_cases hx : x < e
      · have : ¬ a.start ≤ x := by omega
        simp [this]
      · simp [hx]
    · next b hb =>
      split at hb
      · injection hb with hb; subst hb
        rw [List.any_cons, ih, List.any_cons, hf]
        by_cases hx : x < e
        · simp [hx]
        · simp [hx]
      · cases hb

/-! ### The step -/

/-- What a step is when a word is taken. -/
theorem action_accept {s : State} {w rest} (h : Taking s w rest) : s.action = .accept w rest := by
  obtain ⟨h1, h2, h3⟩ := h
  simp [State.action, h1, h2, h3]

/-- A step that takes a word (10_state.md R35). -/
theorem step_accept {s : State} {w rest} (h : Taking s w rest) : step s = settle s (execWord w (s.take rest)) := by
  simp [step, action_accept h]

/-- A step that goes on inside ENUM's loop, with no reset ahead (log 9). -/
theorem step_laterRound {s : State} (h : LaterRound s) : step s = .next s.enumRound := by
  obtain ⟨h1, h2, h3⟩ := h
  simp [step, State.action, h1, h2, settle, cutByReset_none h3 (enumRound_kept s).2.1]

/-- The four things a step can be. -/
theorem step_cases (s : State) :
    (s.rst = true ∧ step s = .next s.holdReset) ∨
    (s.rst = false ∧ s.busy = true ∧ step s = .next (s.cutByReset s.enumRound)) ∨
    (∃ w rest t, Taking s w rest ∧ execWord w (s.take rest) = .next t ∧ InputsKept (s.take rest) t ∧ step s = .next (s.cutByReset t)) ∨
    (s.rst = false ∧ s.busy = false ∧ s.offered = none ∧ step s = .next (s.cutByReset s.idle)) := by
  cases h1 : s.rst with
  | true => left; exact ⟨rfl, by simp [step, State.action, h1]⟩
  | false =>
    cases h2 : s.busy with
    | true => right; left; exact ⟨rfl, rfl, by simp [step, State.action, h1, h2, settle]⟩
    | false =>
      cases h3 : s.offered with
      | none => right; right; right; exact ⟨rfl, rfl, rfl, by simp [step, State.action, h1, h2, h3, settle]⟩
      | some p =>
        right; right; left
        obtain ⟨w, rest⟩ := p
        have hw : ∃ t, execWord w (s.take rest) = .next t ∧ InputsKept (s.take rest) t := by
          unfold execWord
          split
          · next i _ => exact exec_kept i _
          · exact ⟨_, rfl, rfl, rfl, rfl⟩
        obtain ⟨t, ht, k⟩ := hw
        refine ⟨w, rest, t, ⟨h1, h2, h3⟩, ht, k, ?_⟩
        rw [step_accept ⟨h1, h2, h3⟩, ht]; rfl

end Sys2Proof.Machine
end

