-- ==== Sys2Proof/Tests/Slice0.lean ====
section
/-!
SUPPORT. Small tests. Every expected value is from 95_test_vectors.md or written out from 30_encoding.md; the theorems named
`witness_…` show that the hypotheses of the statements can be met.
-/

namespace Sys2Proof.Tests

open Sys2Proof.Machine

/-! ### Helpers -/

/-- A block with this search state on this line, just after reset. -/
def block (ld : BitVec 7) (ldf : Bool) (addr : Word) (env : Env) : State :=
  { State.reset with ld := ld, ldf := ldf, addr := addr, env := env }

/-- The devices with these ROM codes. -/
def devices (roms : List Word) : Env := .dev (roms.map fun r => ⟨r, .idle⟩)

/-- The state after an operation. -/
def after (i : Instr) (s : State) : State := (nextState (exec i s)).getD State.reset

/-- What a test looks at: the search state, how many bus events, the beats. -/
def seen (s : State) : BitVec 7 × Bool × Word × Nat × List (Word × Bool) :=
  (s.ld, s.ldf, s.addr, s.bus.length, s.rsp.map fun b => (b.data, b.last))

/-- The same for a waveform that starts at the release of a reset slot, and the diagnostics. -/
def resetOn (edges : List Nat) : List BusEvent × List Word × List DiagCode × List Span :=
  let s := after .reset (block 0#7 false 0#64 (.wave (edges.map (480 + ·))))
  (s.events, s.rsp.map Beat.data, s.diags.map Diag.code, s.trace)

/-! ### Command words (30_encoding.md R81, R84) -/

theorem test_decode_reset : decode (0x01#8 ++ 0x0000000000000000#64) = .instr .reset := by decide
theorem test_decode_wbit : decode (0x02#8 ++ 0x0000000000000001#64) = .instr (.wbit true) ∧
    decode (0x02#8 ++ 0x0000000000000000#64) = .instr (.wbit false) := by decide
theorem test_decode_rbit : decode (0x03#8 ++ 0x0000000000000000#64) = .instr .rbit := by decide
theorem test_decode_wbyte : decode (0x04#8 ++ 0x00000000000000A5#64) = .instr (.wbyte 0xA5#8) := by decide
theorem test_decode_rbyte : decode (0x05#8 ++ 0x0000000000000000#64) = .instr .rbyte := by decide
theorem test_decode_wword : decode (0x06#8 ++ 0xFEDCBA9876543210#64) = .instr (.wword 0xFEDCBA9876543210#64) := by decide
theorem test_decode_rword : decode (0x07#8 ++ 0x0000000000000000#64) = .instr .rword := by decide
theorem test_decode_select : decode (0x08#8 ++ 0x2B000000ABCDEF28#64) = .instr (.select 0x2B000000ABCDEF28#64) := by decide
theorem test_decode_skip : decode (0x09#8 ++ 0x0000000000000000#64) = .instr .skip := by decide
theorem test_decode_srst : decode (0x0A#8 ++ 0x0000000000000000#64) = .instr .srst := by decide
theorem test_decode_search : decode (0x0B#8 ++ 0x0000000000000000#64) = .instr .search := by decide
theorem test_decode_enum : decode (0x0C#8 ++ 0x0000000000000000#64) = .instr .enum := by decide

/-- The table's numbering of a word is the command word's (30_encoding.md R80). -/
theorem test_decode_table_word : decodeTableWord 72 0x0400000000000000A5 = some (.wbyte 0xA5#8) ∧
    decodeTableWord 72 0x0400000000000001A5 = none := by decide

/-! ### Ill-formed words: one for each check of WellFormed and of the decoder (30_encoding.md R87; V03, V05, V07 to V09) -/

theorem test_illformed_op_zero : legalWord 0x000000000000000000#72 = false ∧
    decode 0x000000000000000000#72 = .illegal (.unassignedOp 0x00#8) := by decide
theorem test_illformed_op_unassigned : legalWord 0x0D0000000000000000#72 = false ∧
    decode 0x0D0000000000000000#72 = .illegal (.unassignedOp 0x0D#8) := by decide
theorem test_illformed_op_last : legalWord 0xFF0000000000000000#72 = false ∧
    decode 0xFF0000000000000000#72 = .illegal (.unassignedOp 0xFF#8) := by decide
theorem test_illformed_reserved_z : legalWord 0x0B0000000000000001#72 = false ∧
    decode 0x0B0000000000000001#72 = .illegal (.reservedBits 0x0B#8) := by decide
theorem test_illformed_reserved_b : legalWord 0x020000000000000002#72 = false ∧
    decode 0x020000000000000002#72 = .illegal (.reservedBits 0x02#8) := by decide
theorem test_illformed_reserved_y : legalWord 0x0400000000000001A5#72 = false ∧
    decode 0x0400000000000001A5#72 = .illegal (.reservedBits 0x04#8) := by decide
theorem test_wellformed_w_has_no_reserved_bit : legalWord 0x06FFFFFFFFFFFFFFFF#72 = true := by decide

/-! ### One operation each -/

/-- V14: `low[239, 300)`. -/
theorem test_reset_pulse_at_239 : resetOn [239, 300] = ([.rst .pres], [1#64], [],
    [⟨0, 480, true, false⟩, ⟨480, 780, false, true⟩]) := by decide +kernel

/-- V20: `low[30, 480)` is not released in time when the boundary does not count. -/
theorem test_reset_not_released : resetOn [30, 480] = ([.rst .presNoRel], [1#64], [.noRel],
    [⟨0, 480, true, false⟩, ⟨480, 960, false, true⟩]) := by decide +kernel

/-- V22. -/
theorem test_wbit_one : (after (.wbit true) State.reset).trace = [⟨0, 10, true, true⟩, ⟨10, 70, false, true⟩] := by decide
/-- V23. -/
theorem test_wbit_zero : (after (.wbit false) State.reset).trace = [⟨0, 60, true, true⟩, ⟨60, 70, false, true⟩] := by decide

/-- V27: a slave that lets go one microsecond early reads as 1. -/
theorem test_rbit_early_release : (seen (after .rbit (block 0#7 false 0#64 (.wave [1, 14])))).2.2.2.2 = [(1#64, true)] := by decide
/-- V28: a glitch at the sample instant reads as 0. -/
theorem test_rbit_glitch : (seen (after .rbit (block 0#7 false 0#64 (.wave [14, 15])))).2.2.2.2 = [(0#64, true)] := by decide

/-- V30. -/
theorem test_wbyte_order : (after (.wbyte 0xA5#8) State.reset).events =
    [.w true, .w false, .w true, .w false, .w false, .w true, .w false, .w true] := by decide +kernel

/-- V32. -/
theorem test_rbyte_order : (seen (after .rbyte (block 0#7 false 0#64
    (.script [] [true, false, true, false, false, true, false, true])))).2.2.2.2 = [(0xA5#64, true)] := by decide +kernel

/-- V33: the first two bytes on the line are 0xEF and 0xCD. -/
theorem test_wword_order : (after (.wword 0x0123456789ABCDEF#64) State.reset).events.take 16 =
    [.w true, .w true, .w true, .w true, .w false, .w true, .w true, .w true,
     .w true, .w false, .w true, .w true, .w false, .w false, .w true, .w true] := by decide +kernel

/-- V33: the word comes back from the loopback. -/
theorem test_rword_loopback : (seen (after .rword (after (.wword 0x0123456789ABCDEF#64)
    (block 0#7 false 0#64 (.loop []))))).2.2.2.2 = [(0#64, true), (0x0123456789ABCDEF#64, true)] := by decide +kernel

/-- V39: the device that matches is selected, the other is idle. -/
theorem test_select_devices : (after (.select 0x2B000000ABCDEF28#64) (after .reset
    (block 0#7 false 0#64 (devices [0x2B000000ABCDEF28#64, 0x8D00000000000128#64])))).env =
    .dev [⟨0x2B000000ABCDEF28#64, .sel⟩, ⟨0x8D00000000000128#64, .idle⟩] := by decide +kernel

/-- V38. -/
theorem test_skip_order : (after .skip State.reset).events =
    [.w false, .w false, .w true, .w true, .w false, .w false, .w true, .w true] := by decide +kernel

/-- V54. -/
theorem test_srst : seen (after .srst (block 9#7 false 0x3C00000000000228#64 (devices []))) =
    (0#7, false, 0#64, 0, [(0#64, true)]) := by decide

/-- V42, pass 2: the replayed zero at position 1 is recorded. -/
theorem test_search_replayed_zero : seen (after .search (block 2#7 false 0x4#64
    (devices [0x4#64, 0x6#64, 0x5#64]))) = (1#7, false, 0x6#64, 201, [(0x6#64, true)]) := by decide +kernel

/-- V58: abort at position 10 after 38 bus events. -/
theorem test_search_abort : seen (after .search (block 0#7 false 0#64
    (.script [.pres] ([true, false] ++ (List.replicate 8 [false, true]).flatten ++ [true, true])))) =
    (0#7, false, 0#64, 38, [(0#64, true)]) := by decide +kernel

/-- V55: the first beat, from a state that ENUM clears. -/
theorem test_enum_first_beat : seen (after .enum (block 10#7 true 0x8D00000000000128#64
    (devices [0x8D00000000000128#64, 0x3C00000000000228#64, 0x5500000000000328#64]))) =
    (9#7, false, 0x3C00000000000228#64, 201, [(0x3C00000000000228#64, false)]) := by decide +kernel

/-- V56: an empty line gives the closing beat alone. -/
theorem test_enum_empty_line : seen (after .enum (block 0#7 true 0x5#64 (devices []))) =
    (0#7, false, 0#64, 1, [(0#64, true)]) := by decide +kernel

/-! ### Witnesses: the hypotheses of the statements can be met -/

/-- A block to which the host presents a word, with another one after it. -/
def presented (w : CmdWord) (env : Env) : State :=
  { block 9#7 false 0x3C00000000000228#64 env with offers := [⟨0, w⟩, ⟨5, 0x010000000000000000#72⟩] }

/-- The offer that is left. -/
def left : List Offer := [⟨5, 0x010000000000000000#72⟩]

theorem witness_taking_operation : Taking (presented 0x090000000000000000#72 (.loop [])) 0x090000000000000000#72 left ∧
    decode 0x090000000000000000#72 = .instr .skip ∧ NoResetAhead (presented 0x090000000000000000#72 (.loop [])) := by
  unfold Taking NoResetAhead; decide

theorem witness_taking_illegal : Taking (presented 0x0D0000000000000000#72 (.loop [])) 0x0D0000000000000000#72 left ∧
    decode 0x0D0000000000000000#72 = .illegal (.unassignedOp 0x0D#8) := by
  unfold Taking; decide

theorem witness_in_reset : ({ State.reset with rstEdges := [0] } : State).rst = true := by decide

/-- One microsecond before `rst` falls. -/
theorem witness_reset_ends : ∃ s t, s.rst = true ∧ step s = .next t ∧ t.rst = false ∧ t.cmdReady = true :=
  ⟨{ State.reset with rstEdges := [0, 1] }, _, by decide, rfl, by decide +kernel, by decide +kernel⟩

theorem witness_words_ready : ∃ s t, step s = .next t ∧ s.cmdReady = true ∧ s.offered = some (0x0A0000000000000000#72, left) :=
  ⟨presented 0x0A0000000000000000#72 (.loop []), _, rfl, by decide, by decide⟩

theorem witness_words_busy : ∃ s t, step s = .next t ∧ s.cmdReady = false ∧ s.offers = left :=
  ⟨{ State.reset with busy := true, offers := left }, _, rfl, by decide, by decide⟩

/-- The offer is made from instant 5 on; at 4 nothing is offered. -/
theorem witness_words_none : ∃ s t, step s = .next t ∧ s.offered = none ∧ s.offers = left :=
  ⟨{ State.reset with now := 4, offers := left }, _, rfl, by decide, by decide⟩

/-- `rst` rises in the low phase of SKIP's first bit, at instant 30, or at its last instant, 560. -/
theorem witness_reset_in_the_middle (e : Nat) (h : e = 30 ∨ e = 560) :
    ∃ s t, Inv s ∧ RstRisesAt s e ∧ Taking s 0x090000000000000000#72 left ∧ exec .skip (s.take left) = .next t ∧ e ≤ t.now := by
  refine ⟨{ block 0#7 false 0#64 (.loop []) with rstEdges := [e, 1000], offers := ⟨0, 0x090000000000000000#72⟩ :: left }, _,
    ⟨rfl, ⟨rfl, rfl⟩, .inl ⟨rfl, rfl, rfl⟩, ?_, fun _ => ⟨rfl, rfl, rfl, rfl, rfl, rfl⟩, ?_⟩, ?_, ?_, rfl, ?_⟩
  · simp [HistoryOrdered, block, State.reset]
  · intro h; cases h
  · exact rises h
  · rcases h with rfl | rfl <;> (unfold Taking; decide)
  · rcases h with rfl | rfl <;> decide +kernel
where
  rises {e : Nat} (h : e = 30 ∨ e = 560) :
      RstRisesAt { block 0#7 false 0#64 (.loop []) with rstEdges := [e, 1000], offers := ⟨0, 0x090000000000000000#72⟩ :: left } e := by
    refine ⟨?_, ?_, ?_⟩
    · rcases h with rfl | rfl <;> decide
    · rcases h with rfl | rfl <;> decide
    · intro x _ hx
      have h1 : ¬ e ≤ x := by omega
      have h2 : ¬ 1000 ≤ x := by omega
      simp [levelAt, h1, h2]

/-- A block between two rounds of ENUM's loop on an empty line, with `rst` as given. -/
def inEnum (rstEdges : List Nat) : State :=
  { block 9#7 false 0x3C00000000000228#64 (devices []) with
    busy := true, inOp := true, now := 60, bus := [⟨.w true, 0, 60⟩], rstEdges := rstEdges }

/-- The search state that `inEnum` has is what a pass leaves. -/
theorem found_legal : SearchStateLegal (block 9#7 false 0x3C00000000000228#64 (devices [])) :=
  .inr ⟨by decide, by decide, by decide, fun _ => by decide⟩

theorem inEnum_inv (rstEdges : List Nat) (h : levelAt rstEdges 60 = false) : Inv (inEnum rstEdges) := by
  have h8 : lowByte 0x3C00000000000228#64 ≠ 0#8 := by decide
  refine ⟨rfl, ⟨rfl, rfl⟩, found_legal, ?_, fun hr => ?_, fun _ => ⟨rfl, ⟨_, rfl, rfl⟩, h8⟩⟩
  · simp [HistoryOrdered, inEnum, block, State.reset]
  · have hr : levelAt rstEdges 60 = true := hr
    rw [h] at hr; cases hr

/-- A later round of ENUM's loop, with no reset ahead. -/
theorem witness_later_round : Inv (inEnum []) ∧ LaterRound (inEnum []) ∧ (inEnum []).env.slotLevel = true :=
  ⟨inEnum_inv [] rfl, ⟨rfl, rfl, fun _ h => nomatch h⟩, rfl⟩

/-- A later round in which `rst` rises, at its first microsecond or at its last. -/
theorem witness_reset_in_a_later_round (e : Nat) (h : e = 61 ∨ e = 1020) :
    Inv (inEnum [e]) ∧ RstRisesAt (inEnum [e]) e ∧ (inEnum [e]).busy = true ∧ e ≤ (inEnum [e]).enumRound.now := by
  refine ⟨inEnum_inv _ ?_, ⟨?_, ?_, ?_⟩, rfl, ?_⟩
  · rcases h with rfl | rfl <;> decide
  · rcases h with rfl | rfl <;> decide
  · simp [inEnum, levelAt]
  · intro x _ hx
    have : ¬ e ≤ x := by omega
    simp [inEnum, levelAt, this]
  · rcases h with rfl | rfl <;> decide +kernel

/-- An idle block with nothing offered, in which `rst` stays 0, or rises in the next microsecond. -/
theorem witness_idle (edges : List Nat) (h : edges = [] ∨ edges = [1]) : ∃ s, Inv s ∧ s.rst = false ∧ s.busy = false ∧
    s.offered = none ∧ s.rstEdges = edges ∧ levelAt s.rstEdges (s.now + 1) = !edges.isEmpty := by
  refine ⟨{ block 9#7 false 0x3C00000000000228#64 (devices []) with rstEdges := edges },
    ⟨rfl, ⟨rfl, rfl⟩, found_legal, ?_, ?_, fun h => nomatch h⟩, ?_, rfl, rfl, rfl, ?_⟩
  · simp [HistoryOrdered, block, State.reset]
  · rcases h with rfl | rfl <;> (intro h; exact absurd h (by decide))
  · rcases h with rfl | rfl <;> decide
  · rcases h with rfl | rfl <;> decide

/-- R38: the registers of an idle block are at their reset values at the very instant at which `rst` has risen. -/
theorem test_reset_from_idle : ∃ t, step { block 9#7 true 0x3C00000000000228#64 (devices [0x4#64]) with rstEdges := [1] } = .next t ∧
    t.now = 1 ∧ t.rst = true ∧ RegistersAtReset t ∧ t.env = devices [0x4#64] :=
  ⟨_, rfl, by decide, by decide, by unfold RegistersAtReset; decide, by decide⟩

/-- R241: SEARCH is presented on a line that is not released, and `rst` rises at `e`: what is left on the two channels. -/
def channelsAfterCut (e : Nat) : Option (List Diag × List Beat) :=
  (nextState (step { block 0#7 false 0#64 (.script [.presNoRel] [true]) with
    rstEdges := [e], offers := [⟨0, 0x0B0000000000000000#72⟩] })).map fun t => (t.diags, t.rsp)

/-- The `NOREL` of instant 960 has been given before 961, and not at 960; the closing beat is given in neither case. -/
theorem test_cut_keeps_what_was_given : channelsAfterCut 961 = some ([⟨960, .noRel⟩], []) ∧ channelsAfterCut 960 = some ([], []) := by
  decide +kernel

/-- R64: a slot cut by reset leaves the devices on the line. -/
theorem test_cut_keeps_devices : devicesOf [0x4#64, 0x6#64] ((devices [0x4#64, 0x6#64]).afterCut 7) := ⟨_, rfl, by decide⟩

/-- R211: the four codes. -/
theorem test_diag_codes : [DiagCode.noFloat, .noPres, .noRel, .illegalCmd].map DiagCode.value = [0#2, 1#2, 2#2, 3#2] := by decide

/-- The state after reset is one in which the slot statements apply. -/
theorem witness_legal_ordered : State.reset.timing.legal = true ∧ HistoryOrdered State.reset := by
  refine ⟨by decide, ?_⟩
  simp [HistoryOrdered, State.reset]

/-- So is the state after an operation. -/
theorem witness_legal_ordered_later : (after .rbit (block 0#7 false 0#64 (.wave []))).timing.legal = true ∧
    HistoryOrdered (after .rbit (block 0#7 false 0#64 (.wave []))) := by
  refine ⟨by decide, ?_⟩
  unfold HistoryOrdered
  decide

/-- The extremes of the parameters are legal (V24, V29). -/
theorem witness_legal_extremes :
    ({ tW1L := 1, tW0L := 60, tWSlot := 60, tRInit := 2, tRWait := 14, tGap := 7, boundaryInclusive := true } :
      Config.Timing).legal = true ∧
    ({ tW1L := 15, tW0L := 120, tWSlot := 120, tRInit := 45, tRWait := 14, tGap := 0, boundaryInclusive := false } :
      Config.Timing).legal = true := by decide

/-- The four outcomes of a reset slot, each at its boundary (V13, V15, V19, V20). -/
theorem witness_outcome_no_float : (resetOn [0, 15]).1 = [.rst .noFloat] := by decide +kernel
theorem witness_outcome_no_pres : (resetOn [240, 300]).1 = [.rst .noPres] := by decide +kernel
theorem witness_outcome_pres : (resetOn [30, 479]).1 = [.rst .pres] := by decide +kernel
theorem witness_outcome_pres_no_rel : (resetOn [30, 480]).1 = [.rst .presNoRel] := by decide +kernel

/-- V19 with its instants: released at 480, high at once, low from 510 on, high again at 959, the last instant that counts. -/
theorem witness_outcome_instants : ∃ s t, exec .reset s = .next t ∧ t.events = s.events ++ [.rst .pres] ∧
    s.now + 480 = 480 ∧ s.env.lowInReset 480 480 = false ∧ s.env.lowInReset 480 509 = false ∧
    s.env.lowInReset 480 510 = true ∧ s.env.lowInReset 480 958 = true ∧ s.env.lowInReset 480 959 = false :=
  ⟨block 0#7 false 0#64 (.wave [510, 959]), _, rfl, by decide +kernel, rfl, by decide, by decide, by decide, by decide,
    by decide⟩

/-- V15 where the boundary counts. -/
theorem witness_outcome_inclusive : (after .reset { block 0#7 false 0#64 (.wave [720, 780]) with
    timing := { Config.Timing.specDefault with boundaryInclusive := true } }).events = [.rst .pres] := by decide +kernel

/-- The waveforms of 95_test_vectors.md E4 and E5, at instant 0. -/
theorem witness_presence_pulses (edges : List Nat) :
    (block 0#7 false 0#64 (.wave edges)).now = 0 ∧ (block 0#7 false 0#64 (.wave edges)).env = .wave edges := ⟨rfl, rfl⟩

theorem witness_slot_level : (block 0#7 false 0#64 (.loop [])).env = .loop [] ∧
    (block 0#7 false 0#64 (.loop [])).env.slotLevel = true := by decide

theorem witness_devices : (block 0#7 false 0#64 (devices [0x4#64, 0x6#64])).env =
    .dev [⟨0x4#64, .idle⟩, ⟨0x6#64, .idle⟩] := by decide

/-- An operation that does not write the search state, and steps that do: SEARCH, a later round of ENUM, reset. -/
theorem witness_other_operation : writesSearchState .reset = false := by decide

theorem witness_search_state_written : ∃ s t, step s = .next t ∧ ¬ SearchStateKept s t :=
  ⟨presented 0x0A0000000000000000#72 (.loop []), _, rfl, by unfold SearchStateKept; decide +kernel⟩

theorem witness_search_state_written_by_round : ∃ s t, s.busy = true ∧ s.rst = false ∧ NoResetAhead s ∧
    step s = .next t ∧ ¬ SearchStateKept s t :=
  ⟨{ block 9#7 false 0x3C00000000000228#64 (devices []) with busy := true }, _, rfl, by decide, by unfold NoResetAhead; decide,
    rfl, by unfold SearchStateKept; decide +kernel⟩

/-- V46 and P3: the flag set. -/
theorem witness_flag_set : (block 0#7 true 0x5500000000000328#64 (devices [])).ldf = true := rfl

/-- The flag clear and each kind of reset slot: V52, V47, V53, and a line with a device. -/
theorem witness_search_outcomes : (∀ o, (block 10#7 false 0x8D00000000000128#64 (.script [o] [true])).ldf = false) ∧
    (after .search (block 10#7 false 0x8D00000000000128#64 (.script [.noFloat] [true]))).events = [.rst .noFloat] ∧
    (after .search (block 10#7 false 0x8D00000000000128#64 (.script [.noPres] [true]))).events = [.rst .noPres] ∧
    (after .search (block 10#7 false 0x8D00000000000128#64 (.script [.pres] [true]))).events.length = 11 ∧
    (after .search (block 10#7 false 0x8D00000000000128#64 (.script [.presNoRel] [true]))).events.length = 11 :=
  ⟨fun _ => rfl, by decide +kernel, by decide +kernel, by decide +kernel, by decide +kernel⟩

/-- An abort at the last position, 64: `1 + 8 + 3 · 63 + 2` bus events. -/
theorem witness_abort_at_64 : (after .search (block 0#7 false 0#64
    (.script [.pres] ((List.replicate 63 [false, true]).flatten ++ [true, true])))).events.length = 200 := by decide +kernel

/-- A line of three devices (V42), `rst` low for good. -/
theorem witness_enumeration : let roms : List Word := [0x4#64, 0x6#64, 0x5#64]
    let s := block 0#7 false 0#64 (devices roms)
    roms ≠ [] ∧ roms.Nodup ∧ (∀ a ∈ roms, lowByte a ≠ 0#8) ∧ devicesOf roms s.env ∧ NoResetAhead s ∧ s.rst = false := by
  refine ⟨by decide, by decide, ?_, ⟨_, rfl, rfl⟩, ?_, by decide⟩
  · intro a ha
    simp only [List.mem_cons, List.not_mem_nil, or_false] at ha
    rcases ha with rfl | rfl | rfl <;> decide
  · unfold NoResetAhead
    decide

/-- A line with a device whose byte 0 is zero (V49), and an empty line. -/
theorem witness_enumeration_stops : let roms : List Word := [0x200#64, 0x101#64, 0x103#64]
    roms.Nodup ∧ devicesOf roms (devices roms) ∧ devicesOf [] (devices []) :=
  ⟨by decide, ⟨_, rfl, by decide⟩, ⟨_, rfl, by decide⟩⟩

/-- A step from a state that meets the invariant. -/
theorem witness_invariant_step : ∃ s t, Inv s ∧ step s = .next t ∧ t.now = 70 :=
  ⟨{ block 0#7 false 0#64 (.loop []) with offers := [⟨0, 0x020000000000000001#72⟩] }, _,
    ⟨by decide, by decide, .inl (by decide), by simp [HistoryOrdered, block, State.reset],
      fun h => absurd h (by decide), fun h => absurd h (by decide)⟩, rfl, by decide +kernel⟩

end Sys2Proof.Tests
end

/-!
PROOFS of the family 00_scope. The machine refines the slot level (00_scope.md R10): the view of a finished operation is found
operation by operation; that the line still answers slots is said once, of all acts.
-/

namespace Sys2Proof.Machine

open SlotLevel (numberOf)

/-- The result of a Boolean operation as the slot level writes it (00_scope.md R17). -/
theorem ofBit_eq_ofNat (b : Bool) : ofBit b = BitVec.ofNat 64 b.toNat := by cases b <;> rfl

/-- Acts keep the kind of the environment: no slot turns a line that answers slots into a waveform. -/
theorem Acts.slotLevel {s t : State} (h : Acts s t) : t.env.slotLevel = s.env.slotLevel := by
  induction h with
  | refl => rfl
  | write b _ ih => rw [slotWrite_env, slotLevel_afterWrite, ih]
  | read _ ih => rw [slotRead_env, slotLevel_afterRead, ih]
  | reset _ ih => rw [slotReset_env, slotLevel_afterReset, ih]
  | diag _ _ ih => exact ih
  | respond _ _ _ ih => exact ih
  | regs _ f ih => rw [f.env, ih]

/-- Every operation keeps the kind of the environment. -/
theorem exec_slotLevel {i : Instr} {s t : State} (h : exec i s = .next t) : t.env.slotLevel = s.env.slotLevel := by
  obtain ⟨m, t', ha, he, hx⟩ := exec_acts i s
  obtain rfl := Host.Outcome.next.inj (h.symm.trans hx)
  cases he with
  | idle => exact ha.slotLevel
  | looping => exact ha.slotLevel

/-- An operation made of write slots, at the slot level. -/
theorem Wrote.operation_view {bits : List Bool} {s q : State} (h : Wrote bits s.start q) (v : Word) :
    (q.complete v).view = (s.view.writeBits bits).respond v true := by
  rw [complete_view, h.view, start_view]

/-- An operation made of `n` read slots, at the slot level: its result is the number of the bits read. -/
theorem ReadIn.operation_view {bits : List Bool} {s q : State} {n : Nat} {v : Word} (h : ReadIn bits s.start q)
    (hs : s.env.slotLevel = true) (hn : bits.length = n) (hv : v = BitVec.ofNat 64 (numberOf bits)) :
    (q.complete v).view =
      (s.view.readBits n).2.respond (BitVec.ofNat 64 (numberOf (s.view.readBits n).1)) true := by
  obtain ⟨-, hb⟩ := h.view hs
  rw [start_view, hn] at hb
  rw [complete_view, hv, ← hb]

/-- What an operation leads to looks like the slot-level run of it (00_scope.md R10; 70_reset_and_hazards.md R254). -/
theorem exec_view {i : Instr} {s t : State} (hs : s.env.slotLevel = true) (h : exec i s = .next t) :
    t.view = SlotLevel.run i s.view := by
  cases i <;> obtain rfl := Host.Outcome.next.inj h
  case reset =>
    have hr := resetPulse_view (s := s.start) hs
    rw [start_view] at hr
    rw [SlotLevel.run, ← hr, complete_view, ofBit_eq_ofNat]
  case wbit b => exact (slotWrite_wrote s.start b).operation_view _
  case rbit =>
    have hr := slotRead_view (s := s.start) hs
    rw [start_view] at hr
    rw [SlotLevel.run, ← hr, complete_view, ofBit_eq_ofNat]
  case wbyte v => exact (writeByte_wrote v s.start).operation_view _
  case rbyte =>
    obtain ⟨_, hl, hr, hv⟩ := readByte_readIn s.start
    exact hr.operation_view hs hl hv
  case wword v => exact (writeWord_wrote v s.start).operation_view _
  case rword =>
    obtain ⟨_, hl, hr, hv⟩ := readWord_readIn s.start
    exact hr.operation_view hs hl hv
  case select a =>
    rw [((writeByte_wrote Config.romMatch s.start).trans (writeWord_wrote a _)).operation_view, writeBits_append]
    rfl
  case skip => exact (writeByte_wrote Config.romSkip s.start).operation_view _
  case srst => rw [complete_view, resetSearchState_view, start_view]; rfl
  case search =>
    obtain ⟨-, hr⟩ := searchOne_view (s := s.start) hs
    rw [start_view] at hr
    rw [SlotLevel.run, ← hr, complete_view]
  case enum =>
    obtain ⟨-, hr⟩ := enumRound_view (s := s.start.resetSearchState) hs
    rw [hr, resetSearchState_view, start_view]
    rfl

/-- Settles O37. Each operation by `exec_view`; a later round of ENUM's loop is a step, and so a round at the slot level. -/
theorem waveformLevelRefinesSlotLevel : Obligations.WaveformLevelRefinesSlotLevel := by
  constructor
  · intro i s hs
    obtain ⟨t, hx, -⟩ := exec_kept i s
    exact ⟨t, hx, exec_view hs hx, (exec_slotLevel hx).trans hs⟩
  · intro s hs hround
    obtain ⟨hl, hv⟩ := enumRound_view hs
    exact ⟨s.enumRound, step_laterRound hround, hv, hl⟩

end Sys2Proof.Machine

/-!
PROOFS of the family 10_state, first part. Which registers an operation reads (10_state.md R26, R28): the byte and word loops commute
with a change of the registers they do not use, and overwrite the ones they do.
-/

namespace Sys2Proof.Machine

section Registers

variable (l : BitVec 7) (f : Bool) (a : Word) (p z : BitVec 7) (x : Transient) (s : State)

/-! ### Registers that no framing loop uses -/

/-- A state with another search state and another position of a search pass: the registers that no byte or word loop uses. -/
def State.withSearch (s : State) : State :=
  { s with ld := l, ldf := f, addr := a, tr := { s.tr with p := p, lastZero := z } }

theorem slotWrite_withSearch (b : Bool) : (s.withSearch l f a p z).slotWrite b = (s.slotWrite b).withSearch l f a p z := by
  simp only [State.slotWrite, beginSlot_eq]
  rfl

theorem slotRead_withSearch :
    (s.withSearch l f a p z).slotRead = (s.slotRead.1, s.slotRead.2.withSearch l f a p z) := by
  simp only [State.slotRead, beginSlot_eq]
  rfl

theorem shiftOutByte_withSearch : (s.withSearch l f a p z).shiftOutByte = s.shiftOutByte.withSearch l f a p z :=
  List.foldl_hom (State.withSearch l f a p z) fun s k => slotWrite_withSearch l f a p z (s.setK k) (s.setK k).shBit

theorem writeByte_withSearch (v : Byte) : (s.withSearch l f a p z).writeByte v = (s.writeByte v).withSearch l f a p z :=
  shiftOutByte_withSearch l f a p z (s.loadSh (ofByte v))

theorem writeWord_withSearch (v : Word) : (s.withSearch l f a p z).writeWord v = (s.writeWord v).withSearch l f a p z :=
  List.foldl_hom (init := s.loadSh v) (State.withSearch l f a p z) fun s j => shiftOutByte_withSearch l f a p z (s.setJ j)

theorem shiftInBit_withSearch (k : BitVec 3) :
    (s.withSearch l f a p z).shiftInBit k = (s.shiftInBit k).withSearch l f a p z := by
  have h := slotRead_withSearch l f a p z (s.setK k)
  unfold State.shiftInBit
  rw [show (s.withSearch l f a p z).setK k = (s.setK k).withSearch l f a p z from rfl, h]
  rfl

theorem shiftInByte_withSearch : (s.withSearch l f a p z).shiftInByte = s.shiftInByte.withSearch l f a p z :=
  List.foldl_hom (State.withSearch l f a p z) (shiftInBit_withSearch l f a p z)

theorem readByte_withSearch :
    (s.withSearch l f a p z).readByte = (s.readByte.1, s.readByte.2.withSearch l f a p z) := by
  have h := shiftInByte_withSearch l f a p z (s.loadSh 0#64)
  unfold State.readByte
  simp only
  rw [show (s.withSearch l f a p z).loadSh 0#64 = (s.loadSh 0#64).withSearch l f a p z from rfl, h]
  generalize (s.loadSh 0#64).shiftInByte = q
  rfl

theorem readWord_withSearch :
    (s.withSearch l f a p z).readWord = (s.readWord.1, s.readWord.2.withSearch l f a p z) := by
  have h : counter.foldl State.shiftInByteAt ((s.loadSh 0#64).withSearch l f a p z) =
      (counter.foldl State.shiftInByteAt (s.loadSh 0#64)).withSearch l f a p z :=
    List.foldl_hom (State.withSearch l f a p z) fun s j => shiftInByte_withSearch l f a p z (s.setJ j)
  unfold State.readWord
  simp only
  rw [show (s.withSearch l f a p z).loadSh 0#64 = (s.loadSh 0#64).withSearch l f a p z from rfl, h]
  generalize counter.foldl State.shiftInByteAt (s.loadSh 0#64) = q
  rfl

theorem resetPulse_withSearch :
    (s.withSearch l f a p z).resetPulse = (s.resetPulse.1, s.resetPulse.2.withSearch l f a p z) := by
  have fr := resetPulse_frame s
  have h := resetPulse_withRegs l f a { s.tr with p := p, lastZero := z } s
  refine h.trans (Prod.ext rfl ?_)
  show State.withRegs l f a ⟨p, z, s.tr.sh, s.tr.k, s.tr.j, s.resetPulse.2.tr.tRef⟩ s.resetPulse.2 = _
  rw [← fr.sh, ← fr.k, ← fr.j]
  rfl

/-! ### Transient registers at the start of an operation -/

/-- A state with other transient registers. -/
def State.withTransient (s : State) : State := { s with tr := x }

/-- A state with another position of a search pass. -/
def State.withPass (s : State) : State := { s with tr := { s.tr with p := p, lastZero := z } }

/-- Slots leave the search state alone, so putting back the one from before them changes nothing. -/
theorem LineFrame.withSearch_eq {s q : State} (fr : LineFrame s q) (p z : BitVec 7) :
    q.withSearch s.ld s.ldf s.addr p z = q.withPass p z := by
  rw [← fr.ld, ← fr.ldf, ← fr.addr]
  rfl

theorem LineFrame.withRegs_eq {s q : State} (fr : LineFrame s q) (x : Transient) :
    q.withRegs s.ld s.ldf s.addr x = q.withTransient x := by
  rw [← fr.ld, ← fr.ldf, ← fr.addr]
  rfl

theorem slotWrite_withTransient (b : Bool) :
    (s.withTransient x).slotWrite b = (s.slotWrite b).withTransient { x with tRef := (s.slotWrite b).tr.tRef } :=
  (slotWrite_withRegs s.ld s.ldf s.addr x s b).trans ((slotWrite_frame s b).line.withRegs_eq _)

theorem slotRead_withTransient :
    (s.withTransient x).slotRead =
      (s.slotRead.1, s.slotRead.2.withTransient { x with tRef := s.slotRead.2.tr.tRef }) := by
  rw [← (slotRead_frame s).line.withRegs_eq]
  exact slotRead_withRegs s.ld s.ldf s.addr x s

theorem resetPulse_withTransient :
    (s.withTransient x).resetPulse =
      (s.resetPulse.1, s.resetPulse.2.withTransient { x with tRef := s.resetPulse.2.tr.tRef }) := by
  rw [← (resetPulse_frame s).line.withRegs_eq]
  exact resetPulse_withRegs s.ld s.ldf s.addr x s

/-- A loop over the counter does the same from two states on which its first iteration does. -/
theorem foldl_counter {g : State → BitVec 3 → State} {s t : State} (h : g s 0#3 = g t 0#3) :
    counter.foldl g s = counter.foldl g t := by
  rw [show counter = 0#3 :: counter.tail from rfl, List.foldl_cons, List.foldl_cons, h]

/-- The first slot of a loop sets `t_ref`, so its value before does not matter. -/
theorem shiftOutByte_withTRef (n : Nat) :
    (s.withTransient { s.tr with tRef := n }).shiftOutByte = s.shiftOutByte := by
  apply foldl_counter
  simp only [State.shiftOutBit, State.slotWrite, beginSlot_eq]
  rfl

theorem shiftInByte_withTRef (n : Nat) :
    (s.withTransient { s.tr with tRef := n }).shiftInByte = s.shiftInByte := by
  apply foldl_counter
  simp only [State.shiftInBit, State.slotRead, beginSlot_eq]
  rfl

/-! Loading `sh` sets the counters, so a byte or a word that goes out or comes in finds of the other transient registers only those of
a search pass. -/

theorem writeByte_withTransient (v : Byte) :
    (s.withTransient x).writeByte v = (s.withPass x.p x.lastZero).writeByte v :=
  shiftOutByte_withTRef ((s.withPass x.p x.lastZero).loadSh (ofByte v)) x.tRef

theorem writeWord_withTransient (v : Word) :
    (s.withTransient x).writeWord v = (s.withPass x.p x.lastZero).writeWord v :=
  foldl_counter (shiftOutByte_withTRef (((s.withPass x.p x.lastZero).loadSh v).setJ 0#3) x.tRef)

theorem readByte_withTransient : (s.withTransient x).readByte = (s.withPass x.p x.lastZero).readByte :=
  congrArg (fun q : State => (lowByte q.tr.sh, q)) (shiftInByte_withTRef ((s.withPass x.p x.lastZero).loadSh 0#64) x.tRef)

theorem readWord_withTransient : (s.withTransient x).readWord = (s.withPass x.p x.lastZero).readWord :=
  congrArg (fun q : State => (q.tr.sh, q))
    (foldl_counter (shiftInByte_withTRef (((s.withPass x.p x.lastZero).loadSh 0#64).setJ 0#3) x.tRef))

/-- At the start of step 4 of a pass every transient register has been overwritten (43_search.md R175). -/
theorem passStart_withTransient : (s.withTransient x).passStart = s.passStart := by
  have h : (s.withPass x.p x.lastZero).writeByte Config.romSearch = (s.writeByte Config.romSearch).withPass x.p x.lastZero :=
    (writeByte_withSearch s.ld s.ldf s.addr x.p x.lastZero s Config.romSearch).trans
      ((writeByte_wrote Config.romSearch s).frame.withSearch_eq _ _)
  rw [State.passStart, writeByte_withTransient, h]
  rfl

theorem traverse_withTransient : (s.withTransient x).traverse = s.traverse := by
  have h := passStart_withTransient x s
  unfold State.passStart at h
  unfold State.traverse
  simp only
  rw [h]

/-- A pass does the same whatever the transient registers held, and where it finds an address they hold the same at its end. -/
theorem searchOne_withTransient : ∃ y, (s.withTransient x).searchOne = (s.searchOne.1, s.searchOne.2.withTransient y) ∧
    (s.searchOne.1 ≠ 0#64 → y = s.searchOne.2.tr) := by
  have h := resetPulse_withTransient x s
  unfold State.searchOne
  rw [show (s.withTransient x).ldf = s.ldf from rfl, h]
  cases s.ldf with
  | true => exact ⟨x, rfl, fun hne => absurd rfl hne⟩
  | false =>
    generalize s.resetPulse = r
    obtain ⟨found, q⟩ := r
    cases found with
    | false => exact ⟨_, rfl, fun hne => absurd rfl hne⟩
    | true => exact ⟨q.traverse.2.tr, traverse_withTransient _ q, fun _ => rfl⟩

/-- A round of ENUM's loop either ends in free values or found an address. -/
theorem enumRound_withTransient : (s.withTransient x).enumRound = s.enumRound := by
  obtain ⟨y, hy, htr⟩ := searchOne_withTransient x s
  unfold State.enumRound
  rw [hy]
  by_cases h0 : s.searchOne.1 = 0#64
  · simp only [h0, if_true]
    rfl
  · obtain rfl := htr h0
    rfl

/-! ### The nine operations that are no search -/

/-- How an operation without a result ends. -/
theorem next_complete_withSearch {q q' : State} (v : Word) (h : q' = q.withSearch l f a p z) :
    (.next (q'.complete v) : Host.Outcome State Fault Refusal) = .next { q.complete v with ld := l, ldf := f, addr := a } := by
  rw [h]; rfl

/-- How an operation with a result ends. -/
theorem next_result_withSearch {α : Type} {r r' : α × State} (g : α → Word) (h : r' = (r.1, r.2.withSearch l f a p z)) :
    (.next (r'.2.complete (g r'.1)) : Host.Outcome State Fault Refusal) =
      .next { r.2.complete (g r.1) with ld := l, ldf := f, addr := a } := by rw [h]; rfl

/-- An operation that is no search does not read the search state and leaves it as it finds it (10_state.md R26). -/
theorem exec_withSearch {i : Instr} (hi : writesSearchState i = false) {s t : State} (h : exec i s = .next t) :
    exec i (s.withSearch l f a p z) = .next { t with ld := l, ldf := f, addr := a } := by
  cases i <;> obtain rfl := Host.Outcome.next.inj h
  case reset => exact next_result_withSearch l f a p z ofBit (resetPulse_withSearch l f a p z s.start)
  case wbit b => exact next_complete_withSearch l f a p z 0#64 (slotWrite_withSearch l f a p z s.start b)
  case rbit => exact next_result_withSearch l f a p z ofBit (slotRead_withSearch l f a p z s.start)
  case wbyte v => exact next_complete_withSearch l f a p z 0#64 (writeByte_withSearch l f a p z s.start v)
  case rbyte => exact next_result_withSearch l f a p z ofByte (readByte_withSearch l f a p z s.start)
  case wword v => exact next_complete_withSearch l f a p z 0#64 (writeWord_withSearch l f a p z s.start v)
  case rword => exact next_result_withSearch l f a p z id (readWord_withSearch l f a p z s.start)
  case select v =>
    refine next_complete_withSearch l f a p z 0#64 (q := (s.start.writeByte Config.romMatch).writeWord v) ?_
    rw [← writeWord_withSearch, ← writeByte_withSearch]
    rfl
  case skip => exact next_complete_withSearch l f a p z 0#64 (writeByte_withSearch l f a p z s.start Config.romSkip)
  case srst => cases hi
  case search => cases hi
  case enum => cases hi

/-- Run with its own search state put in once more, such an operation shows that it has kept it. -/
theorem exec_searchStateKept {i : Instr} (hi : writesSearchState i = false) {s t : State} (h : exec i s = .next t) :
    SearchStateKept s t := by
  have hself := exec_withSearch s.ld s.ldf s.addr s.tr.p s.tr.lastZero hi h
  have ht : t = { t with ld := s.ld, ldf := s.ldf, addr := s.addr } := Host.Outcome.next.inj (h.symm.trans hself)
  exact ⟨by rw [ht], by rw [ht], by rw [ht]⟩

/-! ### Every operation -/

/-- A position of a search pass does not matter to an operation that is no search. -/
theorem exec_withPass {i : Instr} (hi : writesSearchState i = false) : exec i (s.withPass p z) = exec i s := by
  obtain ⟨t, ht, -⟩ := exec_kept i s
  obtain ⟨h1, h2, h3⟩ := exec_searchStateKept hi ht
  calc exec i (s.withPass p z)
    _ = .next { t with ld := s.ld, ldf := s.ldf, addr := s.addr } := exec_withSearch s.ld s.ldf s.addr p z hi ht
    _ = .next t := by rw [← h1, ← h2, ← h3]
    _ = exec i s := ht.symm

/-- No operation depends on what the transient registers hold when it starts (10_state.md R28): a single slot, or a pass, ends in free
values whatever they held; a byte or a word finds of them only those of a search pass, which it does not use. -/
theorem exec_withTransient (i : Instr) : exec i (s.withTransient x) = exec i s := by
  have freed {α : Type} {r r' : α × State} (g : α → Word) (h : ∃ y, r' = (r.1, r.2.withTransient y)) :
      (.next (r'.2.complete (g r'.1)) : Host.Outcome State Fault Refusal) = .next (r.2.complete (g r.1)) := by
    obtain ⟨y, rfl⟩ := h
    rfl
  have read {α : Type} {r r' : α × State} (g : α → Word) (h : r' = r) :
      (.next (r'.2.complete (g r'.1)) : Host.Outcome State Fault Refusal) = .next (r.2.complete (g r.1)) := by rw [h]
  have wrote {q q' : State} (h : q' = q) :
      (.next (q'.complete 0#64) : Host.Outcome State Fault Refusal) = .next (q.complete 0#64) := by rw [h]
  have pass : ∀ i, writesSearchState i = false → exec i (s.withPass x.p x.lastZero) = exec i s :=
    fun _ => exec_withPass x.p x.lastZero s
  cases i with
  | reset => exact freed ofBit ⟨_, resetPulse_withTransient x s.start⟩
  | wbit b =>
    show Host.Outcome.next (((s.start.withTransient x).slotWrite b).complete 0#64) = _
    rw [slotWrite_withTransient]
    rfl
  | rbit => exact freed ofBit ⟨_, slotRead_withTransient x s.start⟩
  | wbyte v => exact (wrote (writeByte_withTransient x s.start v)).trans (pass (.wbyte v) rfl)
  | rbyte => exact (read ofByte (readByte_withTransient x s.start)).trans (pass .rbyte rfl)
  | wword v => exact (wrote (writeWord_withTransient x s.start v)).trans (pass (.wword v) rfl)
  | rword => exact (read id (readWord_withTransient x s.start)).trans (pass .rword rfl)
  | select v =>
    exact (wrote (congrArg (State.writeWord v) (writeByte_withTransient x s.start Config.romMatch))).trans (pass (.select v) rfl)
  | skip => exact (wrote (writeByte_withTransient x s.start Config.romSkip)).trans (pass .skip rfl)
  | srst => rfl
  | search =>
    obtain ⟨y, hy, -⟩ := searchOne_withTransient x s.start
    exact freed id ⟨y, hy⟩
  | enum => exact congrArg Host.Outcome.next (enumRound_withTransient x s.start.resetSearchState)

end Registers

end Sys2Proof.Machine

/-!
PROOFS of the family 10_state, second part. How an operation ends, what a step leads to where hardware reset does not cut it, and
what the cut keeps; the invariant and the histories follow for the four things a step can be.
-/

namespace Sys2Proof.Machine

/-! ### How an operation ends -/

/-- Every operation but ENUM ends with its last beat and an idle block (00_scope.md R18). -/
theorem exec_completes {i : Instr} (hi : i ≠ .enum) (s : State) : ∃ q v, exec i s = .next (State.complete v q) := by
  cases i with
  | enum => exact absurd rfl hi
  | _ => exact ⟨_, _, rfl⟩

/-- So its one beat is the last one, given at the instant at which it ends (log 7). -/
theorem exec_lastBeat {i : Instr} (hi : i ≠ .enum) {s t : State} (h : exec i s = .next t) :
    t.busy = false ∧ ∃ data, t.rsp = s.rsp ++ [⟨t.now, data, true⟩] := by
  obtain ⟨b, hb, -⟩ := exec_beat i h
  obtain ⟨q, v, hq⟩ := exec_completes hi s
  obtain rfl := Host.Outcome.next.inj (h.symm.trans hq)
  have hbeat : s.rsp ++ [b] = q.rsp ++ [⟨q.now, v, true⟩] := hb.symm
  have hrsp : s.rsp = q.rsp := (List.append_inj' hbeat rfl).1
  exact ⟨rfl, v, by rw [hrsp]; rfl⟩

/-! ### Diagnostics -/

/-- `ResetPulse()` reports at most once. -/
theorem resetPulse_diags_length (s : State) : s.resetPulse.2.diags.length ≤ s.diags.length + 1 := by
  rw [resetPulse_eq]
  cases s.scan.outcome <;> simp [diagnostics]

/-- A pass reports what its reset slot reports (43_search.md R174). -/
theorem searchOne_diags_length (s : State) : s.searchOne.2.diags.length ≤ s.diags.length + 1 := by
  have hp := resetPulse_diags_length s
  have hl : s.resetPulse.2.passLoop.2.diags = s.resetPulse.2.diags := by
    obtain ⟨k, L⟩ := passLoop_looped s.resetPulse.2
    exact L.frame.diags.trans (passStart_wrote _).diags
  have he := searchOne_ends s
  generalize s.searchOne = r at he
  cases he with
  | done => exact Nat.le_succ _
  | noDevice => exact hp
  | aborted => exact (congrArg List.length hl).trans_le hp
  | invalid => exact (congrArg List.length hl).trans_le hp
  | found => exact (congrArg List.length hl).trans_le hp

theorem enumRound_diags_length (s : State) : s.enumRound.diags.length ≤ s.diags.length + 1 := by
  have h := searchOne_diags_length s
  unfold State.enumRound
  simp only
  split <;> exact h

/-- No operation gives more than one diagnostic, of ENUM no round does (60_exceptions.md R220). -/
theorem exec_diags_length {i : Instr} {s t : State} (h : exec i s = .next t) : t.diags.length ≤ s.diags.length + 1 := by
  have quiet : ∀ (q : State) (v : Word), q.diags = s.diags → (q.complete v).diags.length ≤ s.diags.length + 1 :=
    fun q v hq => (congrArg List.length hq).trans_le (Nat.le_succ _)
  cases i <;> obtain rfl := Host.Outcome.next.inj h
  case reset => exact resetPulse_diags_length s.start
  case wbit b => exact quiet _ _ (slotWrite_diags s.start b)
  case rbit => exact quiet _ _ (slotRead_diags s.start)
  case wbyte v => exact quiet _ _ (writeByte_wrote v s.start).diags
  case rbyte => obtain ⟨_, _, r, _⟩ := readByte_readIn s.start; exact quiet _ _ r.diags
  case wword v => exact quiet _ _ (writeWord_wrote v s.start).diags
  case rword => obtain ⟨_, _, r, _⟩ := readWord_readIn s.start; exact quiet _ _ r.diags
  case select a => exact quiet _ _ ((writeByte_wrote Config.romMatch s.start).trans (writeWord_wrote a _)).diags
  case skip => exact quiet _ _ (writeByte_wrote Config.romSkip s.start).diags
  case srst => exact quiet _ _ rfl
  case search => exact searchOne_diags_length s.start
  case enum => exact enumRound_diags_length s.start.resetSearchState

/-! ### The instant at which a pass ends -/

/-- A slot has been performed, and the last one ends now. -/
def AtSlotEnd (s : State) : Prop := s.inOp = true ∧ ∃ sl, s.bus.getLast? = some sl ∧ sl.stop = s.now

theorem endSlot_atSlotEnd (ev : BusEvent) (t0 : Nat) (env : Env) {q : State} (h : q.inOp = true) :
    AtSlotEnd (q.endSlot ev t0 env) :=
  ⟨h, ⟨ev, t0, q.now⟩, by simp, rfl⟩

theorem slotReset_atSlotEnd (s : State) : AtSlotEnd s.slotReset.2 := endSlot_atSlotEnd _ _ _ rfl

theorem resetPulse_atSlotEnd (s : State) : AtSlotEnd s.resetPulse.2 := by
  rw [resetPulse_eq]
  exact slotReset_atSlotEnd s

/-- No time passes between the last slot and the end of what follows it. -/
theorem Acts.atSlotEnd {s t : State} (h : Acts s t) (hs : AtSlotEnd s) : AtSlotEnd t := by
  induction h with
  | refl => exact hs
  | write b _ _ => exact endSlot_atSlotEnd _ _ _ rfl
  | read _ _ => exact endSlot_atSlotEnd _ _ _ rfl
  | reset _ _ => exact slotReset_atSlotEnd _
  | diag _ _ ih => exact ih
  | respond _ _ _ ih => exact ih
  | regs _ f ih =>
    unfold AtSlotEnd
    rw [f.inOp, f.bus, f.now]
    exact ih

/-- A pass that returns an address has ended with a slot, and byte 0 of the address is not zero (43_search.md R185, R187). -/
theorem searchOne_found {s : State} (h : s.searchOne.1 ≠ 0#64) :
    AtSlotEnd s.searchOne.2 ∧ lowByte s.searchOne.2.addr ≠ 0#8 := by
  have he := searchOne_ends s
  generalize s.searchOne = r at he h
  cases he with
  | done => exact absurd rfl h
  | noDevice => exact absurd rfl h
  | aborted => exact absurd rfl h
  | invalid => exact absurd rfl h
  | found _ _ _ h4 =>
    have hacts : Acts s.resetPulse.2 s.resetPulse.2.passLoop.2.commitPass :=
      (Acts.refl s.resetPulse.2).passLoop.regs (SameLine.commitPass _)
    exact ⟨hacts.atSlotEnd (resetPulse_atSlotEnd s), h4⟩

/-- A round of ENUM's loop leaves the block idle or between two rounds (43_search.md R190; log 9). -/
theorem enumRound_betweenRounds {s : State} (h : s.enumRound.busy = true) : BetweenRounds s.enumRound := by
  unfold State.enumRound at h ⊢
  simp only at h ⊢
  split at h
  · cases h
  · next hne =>
    obtain ⟨⟨hop, hbus⟩, haddr⟩ := searchOne_found hne
    rw [if_neg hne]
    exact ⟨hop, hbus, haddr⟩

/-! ### What a step leads to, before hardware reset cuts it -/

/-- The part of the invariant that does not speak of `rst`, and what the cut needs of the way to `t`. -/
structure WholeStep (s t : State) : Prop where
  grown : Grown s t
  timing : t.timing = s.timing
  rstEdges : t.rstEdges = s.rstEdges
  released : t.owDriveLow = false ∧ t.crit = false
  searchStateLegal : SearchStateLegal t
  historyOrdered : HistoryOrdered t
  betweenRounds : t.busy = true → BetweenRounds t

/-- Acts and an end keep the line released and the histories ordered. -/
theorem Ended.released_and_ordered {s m t : State} (he : Ended m t) (ha : Acts s m) (hl : s.timing.legal = true)
    (hr : s.owDriveLow = false ∧ s.crit = false) (hh : HistoryOrdered s) :
    (t.owDriveLow = false ∧ t.crit = false) ∧ HistoryOrdered t := by
  have hrel := ha.released hr
  have hord := ha.historyOrdered hl hh
  cases he with
  | idle => exact ⟨hrel, hord⟩
  | looping => exact ⟨hrel, hord⟩

theorem enumRound_wholeStep {s : State} (hs : Inv s) : WholeStep s s.enumRound := by
  obtain ⟨m, ha, he⟩ := enumRound_acts s
  obtain ⟨ht, hr, -⟩ := enumRound_kept s
  obtain ⟨hrel, hord⟩ := he.released_and_ordered ha hs.timingLegal hs.released hs.historyOrdered
  exact ⟨enumRound_grown s, ht, hr, hrel, enumRound_legal hs.searchStateLegal, hord, enumRound_betweenRounds⟩

/-- Every operation leaves a legal search state (10_state.md R22 to R25). -/
theorem exec_searchStateLegal {i : Instr} {s t : State} (hs : SearchStateLegal s) (h : exec i s = .next t) :
    SearchStateLegal t := by
  cases i with
  | srst =>
    obtain rfl := Host.Outcome.next.inj h
    exact .inl ⟨rfl, rfl, rfl⟩
  | search =>
    obtain rfl := Host.Outcome.next.inj h
    exact searchOne_legal (s := s.start) hs
  | enum =>
    obtain rfl := Host.Outcome.next.inj h
    exact enumRound_legal (s := s.start.resetSearchState) (.inl ⟨rfl, rfl, rfl⟩)
  | _ => exact kept_legal (exec_searchStateKept rfl h) hs

/-- Only ENUM leaves the block busy, and then between two rounds (log 9). -/
theorem exec_betweenRounds {i : Instr} {s t : State} (h : exec i s = .next t) (hb : t.busy = true) : BetweenRounds t := by
  by_cases hi : i = .enum
  · subst hi
    obtain rfl := Host.Outcome.next.inj h
    exact enumRound_betweenRounds hb
  · exact absurd ((exec_lastBeat hi h).1.symm.trans hb) Bool.false_ne_true

theorem exec_wholeStep {i : Instr} {s t : State} (hs : Inv s) (h : exec i s = .next t) : WholeStep s t := by
  obtain ⟨m, t', ha, he, hx⟩ := exec_acts i s
  obtain rfl := Host.Outcome.next.inj (h.symm.trans hx)
  obtain ⟨hg, ht, hr, -⟩ := exec_grown i s t h
  obtain ⟨hrel, hord⟩ := he.released_and_ordered ha hs.timingLegal hs.released hs.historyOrdered
  exact ⟨hg, ht, hr, hrel, exec_searchStateLegal hs.searchStateLegal h, hord, exec_betweenRounds h⟩

/-- An illegal word gives a diagnostic and a beat and does nothing else (30_encoding.md R88). -/
theorem execIllegal_wholeStep {s : State} (hs : Inv s) :
    WholeStep s ((s.start.diag .illegalCmd).complete 0#64) := by
  have ha : Acts s.start ((s.start.diag .illegalCmd).respond 0#64 true) := ((Acts.refl _).diag _).respond _ _
  have hord := ha.historyOrdered (s := s.start) hs.timingLegal hs.historyOrdered
  refine ⟨?_, rfl, rfl, hs.released, hs.searchStateLegal, hord, nofun⟩
  exact ⟨Nat.le_refl _, List.prefix_refl _, List.prefix_append _ _, List.prefix_append _ _, List.prefix_refl _,
    List.prefix_refl _⟩

/-- Taking an offer touches nothing the invariant speaks of. -/
theorem Inv.take {s : State} (hs : Inv s) (rest : List Offer) : Inv (s.take rest) :=
  ⟨hs.timingLegal, hs.released, hs.searchStateLegal, hs.historyOrdered, hs.inReset, hs.betweenRounds⟩

theorem execWord_wholeStep {w : CmdWord} {s t : State} (hs : Inv s) (h : execWord w s = .next t) : WholeStep s t := by
  unfold execWord at h
  split at h
  · exact exec_wholeStep hs h
  · obtain rfl := Host.Outcome.next.inj h
    exact execIllegal_wholeStep hs

/-- Histories that lie in the past still do later on. -/
theorem HistoryOrdered.later {s : State} (h : HistoryOrdered s) {n : Nat} (hn : s.now ≤ n) :
    HistoryOrdered { s with now := n } := by
  obtain ⟨hbus, hpair, htrace, hlooks, hrsp, hdiags⟩ := h
  exact ⟨fun sl hm => ⟨(hbus sl hm).1, (hbus sl hm).2.trans hn⟩, hpair, fun sp hm => (htrace sp hm).trans hn,
    fun w hm => (hlooks w hm).trans (Nat.succ_le_succ hn), fun b hm => (hrsp b hm).trans hn, fun d hm => (hdiags d hm).trans hn⟩

theorem idle_wholeStep {s : State} (hs : Inv s) (hb : s.busy = false) : WholeStep s s.idle := by
  have hg : Grown s s.idle := advance_grown s 1
  rw [idle_eq hs.released] at hg ⊢
  exact ⟨hg, rfl, rfl, hs.released, hs.searchStateLegal, hs.historyOrdered.later (Nat.le_succ _),
    fun h => absurd (hb.symm.trans h) Bool.false_ne_true⟩

/-! ### Hardware reset -/

/-- A step is cut at an instant at which `rst` is 1, or not at all. -/
theorem cutByReset_cases (s t : State) :
    (t.firstReset s.now = none ∧ s.cutByReset t = t) ∨
      ∃ e, t.firstReset s.now = some e ∧ s.cutByReset t = s.abandonAt e t := by
  cases h : t.firstReset s.now with
  | none => exact .inl ⟨rfl, by simp [State.cutByReset, h]⟩
  | some e => exact .inr ⟨e, rfl, cutByReset_some h⟩

/-- The cut leaves the parameters and the inputs. -/
theorem cutByReset_kept (s t : State) : InputsKept t (s.cutByReset t) := by
  obtain ⟨-, h⟩ | ⟨e, -, h⟩ := cutByReset_cases s t <;> rw [h] <;> exact ⟨rfl, rfl, rfl⟩

/-- What had happened before the step is not cut away. -/
theorem abandonAt_grown {s : State} {e : Nat} (he : s.now ≤ e) (t : State) : Grown s (s.abandonAt e t) :=
  ⟨he, List.prefix_append _ _, List.prefix_append _ _, List.prefix_append _ _, List.prefix_append _ _, List.prefix_append _ _⟩

theorem cutByReset_grown {s t : State} (g : Grown s t) : Grown s (s.cutByReset t) := by
  obtain ⟨-, h⟩ | ⟨e, he, h⟩ := cutByReset_cases s t <;> rw [h]
  · exact g
  · exact abandonAt_grown (Nat.le_of_lt (firstReset_some he).1) t

/-- Where the cut comes, `rst` is 1. -/
theorem abandonAt_rst {s t : State} {e : Nat} (he : t.firstReset s.now = some e) : (s.abandonAt e t).rst = true :=
  (firstReset_some he).2.2

/-- Where a step is not cut its registers are those of the whole step, and where it is cut `rst` is 1. -/
theorem searchStateKept_or_rst {s t : State} (h : SearchStateKept s t) :
    SearchStateKept s (s.cutByReset t) ∨ (s.cutByReset t).rst = true := by
  obtain ⟨-, hcut⟩ | ⟨e, he, hcut⟩ := cutByReset_cases s t <;> rw [hcut]
  · exact .inl h
  · exact .inr (abandonAt_rst he)

/-- A clipped span ends by the cut. -/
theorem clipSpan_stop {e : Nat} {sp sp' : Span} (h : clipSpan e sp = some sp') : sp'.stop ≤ e := by
  unfold clipSpan at h
  split at h
  · obtain rfl := Option.some.inj h
    exact Nat.min_le_right _ _
  · cases h

theorem clipWindow_stop {e : Nat} {w w' : Window} (h : clipWindow e w = some w') : w'.stop ≤ e := by
  unfold clipWindow at h
  split at h
  · obtain rfl := Option.some.inj h
    exact Nat.min_le_right _ _
  · cases h

/-- What the cut keeps of a step lies before the cut, in the order it had. -/
theorem abandonAt_historyOrdered {s t : State} {e : Nat} (he : s.now ≤ e) (hs : HistoryOrdered s) (ht : HistoryOrdered t)
    (hb : s.bus <+: t.bus) : HistoryOrdered (s.abandonAt e t) := by
  obtain ⟨hbus, hpair, htrace, hlooks, hrsp, hdiags⟩ := hs.later he
  obtain ⟨hbus', hpair', -, -, -, -⟩ := ht
  have hsplit : t.bus = s.bus ++ s.newSlots t := by
    obtain ⟨new, hn⟩ := hb
    rw [State.newSlots, ← hn, List.drop_left]
  refine ⟨fun sl hm => ?_, ?_, fun sp hm => ?_, fun w hm => ?_, fun b hm => ?_, fun d hm => ?_⟩
  · rcases List.mem_append.1 hm with hm | hm
    · exact hbus sl hm
    · obtain ⟨hnew, hstop⟩ := List.mem_filter.1 hm
      exact ⟨(hbus' sl (hsplit ▸ List.mem_append_right _ hnew)).1, of_decide_eq_true hstop⟩
  · rw [hsplit] at hpair'
    exact hpair'.sublist (List.filter_sublist.append_left s.bus)
  · rcases List.mem_append.1 hm with hm | hm
    · exact htrace sp hm
    · obtain ⟨sp', -, hclip⟩ := List.mem_filterMap.1 hm
      exact clipSpan_stop hclip
  · rcases List.mem_append.1 hm with hm | hm
    · exact hlooks w hm
    · obtain ⟨w', -, hclip⟩ := List.mem_filterMap.1 hm
      exact (clipWindow_stop hclip).trans (Nat.le_succ e)
  · rcases List.mem_append.1 hm with hm | hm
    · exact hrsp b hm
    · exact Nat.le_of_lt (of_decide_eq_true (List.mem_filter.1 hm).2)
  · rcases List.mem_append.1 hm with hm | hm
    · exact hdiags d hm
    · exact Nat.le_of_lt (of_decide_eq_true (List.mem_filter.1 hm).2)

/-- A state with its registers at their reset values, legal parameters and ordered histories meets the invariant. -/
theorem RegistersAtReset.inv {s : State} (h : RegistersAtReset s) (hl : s.timing.legal = true) (hh : HistoryOrdered s) : Inv s := by
  have hreg := h
  obtain ⟨hld, hldf, haddr, hbusy, hdrive, hcrit⟩ := h
  exact ⟨hl, ⟨hdrive, hcrit⟩, .inl ⟨hld, hldf, haddr⟩, hh, fun _ => hreg,
    fun hb => absurd (hbusy.symm.trans hb) Bool.false_ne_true⟩

/-- Cut or not, what a step leads to from the invariant meets it. -/
theorem WholeStep.inv {s t : State} (hs : Inv s) (h0 : s.rst = false) (h : WholeStep s t) : Inv (s.cutByReset t) := by
  have hlegal : t.timing.legal = true := by rw [h.timing]; exact hs.timingLegal
  obtain ⟨hnone, hcut⟩ | ⟨e, he, hcut⟩ := cutByReset_cases s t <;> rw [hcut]
  · have hrst : t.rst = false := rst_of_firstReset_none h0 h.rstEdges h.grown.now hnone
    exact ⟨hlegal, h.released, h.searchStateLegal, h.historyOrdered, 
      fun hr => absurd (hrst.symm.trans hr) Bool.false_ne_true, h.betweenRounds⟩
  · have hord := abandonAt_historyOrdered (Nat.le_of_lt (firstReset_some he).1) hs.historyOrdered h.historyOrdered h.grown.bus
    exact (abandonAt_registers s t e).inv hlegal hord

theorem holdReset_inv {s : State} (hs : Inv s) : Inv s.holdReset := by
  have hreg := holdReset_registers s
  rw [holdReset_eq] at hreg ⊢
  exact hreg.inv hs.timingLegal (HistoryOrdered.later (s := s) hs.historyOrdered (Nat.le_succ _))

theorem holdReset_grown (s : State) : Grown s s.holdReset := by
  rw [holdReset_eq]
  exact ⟨Nat.le_succ _, List.prefix_refl _, List.prefix_refl _, List.prefix_refl _, List.prefix_refl _, List.prefix_refl _⟩

/-! ### The line outside slots -/

/-- Acts drive the line only inside their slots (10_state.md R33; 40_signal_primitives.md R135). -/
theorem Acts.lowOutsideSlots {s m : State} (ha : Acts s m) (hl : s.timing.legal = true) (hh : HistoryOrdered s) :
    LowOutsideSlots s m := by
  obtain ⟨new, spanss, T⟩ := ha.timeline hl
  obtain ⟨-, -, htrace, -, -, -⟩ := hh
  intro x hx hout
  have low (f : Span → Bool) : (m.trace.any fun sp => f sp && decide (sp.start ≤ x) && decide (x < sp.stop)) = false := by
    rw [T.trace, List.any_append, old_spans f htrace hx, Bool.false_or]
    exact spans_outside hl f T.spans fun sl hm => hout sl (T.bus ▸ List.mem_append_right _ hm)
  exact ⟨low Span.driveLow, low Span.crit⟩

/-- Becoming idle touches neither the line nor the slots. -/
theorem Ended.lowOutsideSlots {s m t : State} (he : Ended m t) (h : LowOutsideSlots s m) : LowOutsideSlots s t := by
  cases he with
  | idle => exact h
  | looping => exact h

/-! ### The obligations -/

/-- Settles O45. In reset the registers are at their reset values; otherwise the step is computed whole, which keeps the invariant,
and the cut leaves the reset values and a part of the ordered histories. -/
theorem stepKeepsTheInvariant : Obligations.StepKeepsTheInvariant := by
  intro s t hs h
  obtain ⟨-, hx⟩ | ⟨h0, -, hx⟩ | ⟨w, rest, u, ⟨h0, -, -⟩, hw, -, hx⟩ | ⟨h0, hb, -, hx⟩ := step_cases s <;>
    obtain rfl := Host.Outcome.next.inj (h.symm.trans hx)
  · exact holdReset_inv hs
  · exact (enumRound_wholeStep hs).inv hs h0
  · have htaken := (execWord_wholeStep (hs.take rest) hw).inv (hs.take rest) h0
    exact htaken
  · exact (idle_wholeStep hs hb).inv hs h0

/-- Settles O11. Only a step that takes a word changes the offers, and it takes the one presented. -/
theorem wordsAreTakenOnlyWhenReady : Obligations.WordsAreTakenOnlyWhenReady := by
  intro s t h
  obtain ⟨h1, hx⟩ | ⟨-, h1, hx⟩ | ⟨w, rest, u, ⟨h1, h2, h3⟩, -, ⟨-, -, hk⟩, hx⟩ | ⟨-, -, h1, hx⟩ := step_cases s <;>
    obtain rfl := Host.Outcome.next.inj (h.symm.trans hx)
  · have hready : s.cmdReady = false := by simp [State.cmdReady, h1]
    exact ⟨fun hr => absurd (hready.symm.trans hr) Bool.false_ne_true, fun _ => rfl, fun _ => rfl⟩
  · have hready : s.cmdReady = false := by simp [State.cmdReady, h1]
    have hk : (s.cutByReset s.enumRound).offers = s.offers := (cutByReset_offers _ _).trans (enumRound_kept s).2.2
    exact ⟨fun hr => absurd (hready.symm.trans hr) Bool.false_ne_true, fun _ => hk, fun _ => hk⟩
  · have hready : s.cmdReady = true := by simp [State.cmdReady, h1, h2]
    refine ⟨fun _ w' rest' ho => ?_, fun hr => absurd (hready.symm.trans hr) (nofun),
      fun hn => absurd (h3.symm.trans hn) (Option.some_ne_none _)⟩
    obtain ⟨-, rfl⟩ := Prod.mk.inj (Option.some.inj (h3.symm.trans ho))
    exact (cutByReset_offers s u).trans hk
  · have hk : (s.cutByReset s.idle).offers = s.offers := cutByReset_offers _ _
    exact ⟨fun _ _ _ ho => absurd (ho.symm.trans h1) (Option.some_ne_none _), fun _ => hk, fun _ => hk⟩

/-- Settles O26. The nine operations by `exec_withSearch`; a step that changes the search state is found among `step_cases`. -/
theorem writersOfTheSearchState : Obligations.WritersOfTheSearchState := by
  constructor
  · intro i s hi
    obtain ⟨t, ht, -⟩ := exec_kept i s
    exact ⟨t, ht, exec_searchStateKept hi ht, fun l f a => exec_withSearch l f a s.tr.p s.tr.lastZero hi ht⟩
  · intro s t h hne
    obtain ⟨h1, -⟩ | ⟨-, h1, -⟩ | ⟨w, rest, u, htake, hw, -, hx⟩ | ⟨-, -, -, hx⟩ := step_cases s
    · exact .inl h1
    · exact .inr (.inr (.inl h1))
    · obtain rfl := Host.Outcome.next.inj (h.symm.trans hx)
      have of_kept (hk : SearchStateKept s u) : (s.cutByReset u).rst = true := (searchStateKept_or_rst hk).resolve_left hne
      unfold execWord at hw
      split at hw
      · next i hi =>
        cases hwr : writesSearchState i with
        | false =>
          have hk := exec_searchStateKept hwr hw
          exact .inr (.inl (of_kept hk))
        | true => exact .inr (.inr (.inr ⟨w, rest, i, htake, hi, hwr⟩))
      · obtain rfl := Host.Outcome.next.inj hw
        exact .inr (.inl (of_kept ⟨rfl, rfl, rfl⟩))
    · obtain rfl := Host.Outcome.next.inj (h.symm.trans hx)
      have hk : SearchStateKept s s.idle := ⟨rfl, rfl, rfl⟩
      exact .inr (.inl ((searchStateKept_or_rst hk).resolve_left hne))

/-- Settles O27, by `exec_withTransient` and `enumRound_withTransient`. -/
theorem transientRegistersDoNotMatter : Obligations.TransientRegistersDoNotMatter :=
  ⟨fun i s x => exec_withTransient x s i, fun s x => enumRound_withTransient x s⟩

/-- Settles O38. That the beat is the last one is how every operation but ENUM ends; the rest holds of ENUM's first round too. -/
theorem oneBeatAnOperation : Obligations.OneBeatAnOperation := by
  intro i s
  obtain ⟨t, ht, hk⟩ := exec_kept i s
  have hlen := exec_diags_length ht
  have hgrown := (exec_grown i s t ht).1.diags
  exact ⟨t, ht, hk, hlen, hgrown, fun hi => exec_lastBeat hi ht⟩

/-- Settles O42, for an operation and for a round of ENUM's loop from what acts do to the line. -/
theorem outputsAreLowOutsideSlots : Obligations.OutputsAreLowOutsideSlots := by
  constructor
  · intro i s hl hh
    obtain ⟨m, t, ha, he, hx⟩ := exec_acts i s
    exact ⟨t, hx, he.lowOutsideSlots (ha.lowOutsideSlots hl hh)⟩
  · intro s hs hround
    obtain ⟨m, ha, he⟩ := enumRound_acts s
    exact ⟨s.enumRound, step_laterRound hround,
      he.lowOutsideSlots (ha.lowOutsideSlots hs.timingLegal hs.historyOrdered)⟩

/-- Settles O46. Each of the four things a step can be only adds, and the cut keeps what had been there before the step. -/
theorem stepOnlyAddsToTheHistory : Obligations.StepOnlyAddsToTheHistory := by
  intro s t h
  have added {u : State} (g : Grown s u) (ht : u.timing = s.timing) (hr : u.rstEdges = s.rstEdges) :
      s.now ≤ u.now ∧ u.timing = s.timing ∧ u.rstEdges = s.rstEdges ∧
      s.bus <+: u.bus ∧ s.rsp <+: u.rsp ∧ s.diags <+: u.diags ∧ s.trace <+: u.trace ∧ s.looks <+: u.looks :=
    ⟨g.now, ht, hr, g.bus, g.rsp, g.diags, g.trace, g.looks⟩
  have addedByCut {u : State} (g : Grown s u) (ht : u.timing = s.timing) (hr : u.rstEdges = s.rstEdges) :=
    added (cutByReset_grown g) ((cutByReset_kept s u).1.trans ht) ((cutByReset_kept s u).2.1.trans hr)
  obtain ⟨-, hx⟩ | ⟨-, -, hx⟩ | ⟨w, rest, u, -, hw, ⟨ht, hr, -⟩, hx⟩ | ⟨-, -, -, hx⟩ := step_cases s <;>
    obtain rfl := Host.Outcome.next.inj (h.symm.trans hx)
  · exact added (holdReset_grown s) rfl rfl
  · exact addedByCut (enumRound_grown s) (enumRound_kept s).1 (enumRound_kept s).2.1
  · exact addedByCut (execWord_grown hw) ht hr
  · exact addedByCut (advance_grown s 1) rfl rfl

/-- Settles O6. With no change of `rst` ahead there is nothing to cut. -/
theorem stepRunsTheDecodedOperation : Obligations.StepRunsTheDecodedOperation := by
  intro s w rest i htake hw
  have hstep : step s = settle s (exec i (s.take rest)) := by rw [step_accept htake, execWord, hw]
  refine ⟨hstep, fun hno => ?_⟩
  obtain ⟨t, ht, -, hr, -⟩ := exec_kept i (s.take rest)
  rw [hstep, ht, settle, cutByReset_none hno hr]

/-- Settles O10, by evaluation of the one state. -/
theorem stateAfterReset : Obligations.StateAfterReset := by
  unfold Obligations.StateAfterReset
  decide

/-- Settles O44. Its registers are at their reset values, and its histories are empty. -/
theorem resetMeetsTheInvariant : Obligations.ResetMeetsTheInvariant := by
  have hord : HistoryOrdered State.reset := by simp [HistoryOrdered, State.reset]
  exact RegistersAtReset.inv ⟨rfl, rfl, rfl, rfl, rfl, rfl⟩ (by decide) hord

end Sys2Proof.Machine

/-!
PROOFS of the family 20_memory. What is on the line: the order of the bits of bytes and words (20_memory.md R52 to R54), which
operations touch a slave at all (R59), and that the devices of `Dev(S)` stay (R64).
-/

namespace Sys2Proof.Machine

open SlotLevel (View bitsOf numberOf)

/-! ### The bits of a byte and of a word -/

theorem bitsOf_length {n : Nat} (v : BitVec n) : (bitsOf v).length = n := by simp [bitsOf]

theorem bitsOf_ne_nil {n : Nat} (v : BitVec (n + 1)) : bitsOf v ≠ [] :=
  List.ne_nil_of_length_eq_add_one (bitsOf_length v)

theorem bitsOf_injective {n : Nat} : Function.Injective (bitsOf (n := n)) := by
  intro v w h
  apply BitVec.eq_of_getLsbD_eq
  intro i hi
  exact List.map_inj_left.1 h i (List.mem_range.2 hi)

/-- The bits of a word are byte 0 first, each byte bit 0 first (20_memory.md R53). -/
theorem bitsOf_word (v : Word) :
    bitsOf v = (List.range 8).flatMap fun j => (List.range 8).map fun k => v.getLsbD (8 * j + k) := rfl

/-- The bytes of a word, byte 0 first (00_scope.md R17). -/
def bytesOf (v : Word) : List Byte := (List.range 8).map fun j => v.extractLsb' (8 * j) 8

/-- The bits of a word are those of its bytes, one after another. -/
theorem bytesOf_flatMap_bitsOf (v : Word) : (bytesOf v).flatMap bitsOf = bitsOf v := by
  have hbyte (j : Nat) : bitsOf (v.extractLsb' (8 * j) 8) = (List.range 8).map fun k => v.getLsbD (8 * j + k) := by
    apply List.map_congr_left
    intro k hk
    rw [BitVec.getLsbD_extractLsb', decide_eq_true (List.mem_range.1 hk), Bool.true_and]
  rw [bitsOf_word, bytesOf, List.flatMap_map]
  simp only [hbyte]

theorem flatMap_bitsOf_length (bytes : List Byte) : (bytes.flatMap bitsOf).length = 8 * bytes.length := by
  simp [List.length_flatMap, bitsOf_length, Nat.mul_comm]

/-- Two lists of as many bytes with the same bits are the same. -/
theorem flatMap_bitsOf_inj : ∀ {as bs : List Byte}, as.length = bs.length → as.flatMap bitsOf = bs.flatMap bitsOf → as = bs
  | [], [], _, _ => rfl
  | a :: as, b :: bs, hlen, h => by
    rw [List.flatMap_cons, List.flatMap_cons] at h
    obtain ⟨hhead, htail⟩ := List.append_inj h (by rw [bitsOf_length, bitsOf_length])
    rw [bitsOf_injective hhead, flatMap_bitsOf_inj (Nat.succ.inj hlen) htail]

/-- A byte read in has the bits of its read slots (41_framing.md R142). -/
theorem readByte_readIn_bitsOf (s : State) : ReadIn (bitsOf s.readByte.1) s s.readByte.2 := by
  obtain ⟨bits, hlen, hread, hval⟩ := readByte_readIn s
  have hbyte : s.readByte.1 = BitVec.ofNat 8 (numberOf bits) := by
    have h := congrArg (BitVec.setWidth 8) hval
    rwa [ofByte, BitVec.setWidth_setWidth_of_le _ (by decide), BitVec.setWidth_eq,
      BitVec.setWidth_ofNat_of_le (by decide)] at h
  rwa [hbyte, ← bits_byte bits hlen]

/-- A word read in has the bits of its read slots (41_framing.md R143). -/
theorem readWord_readIn_bitsOf (s : State) : ReadIn (bitsOf s.readWord.1) s s.readWord.2 := by
  obtain ⟨bits, hlen, hread, hval⟩ := readWord_readIn s
  rwa [hval, ← bits_word bits hlen]

/-! ### What operations made of write slots do to the line -/

/-- On the way from `s` to `t` write slots carried these bits, and nothing else happened to the line. -/
structure Sent (bits : List Bool) (s t : State) : Prop where
  events : t.events = s.events ++ bits.map .w
  env : t.env = bits.foldl (fun e b => e.afterWrite b) s.env

theorem Sent.refl (s : State) : Sent [] s s := ⟨(List.append_nil _).symm, rfl⟩

theorem Sent.trans {a b : List Bool} {s t u : State} (f : Sent a s t) (g : Sent b t u) : Sent (a ++ b) s u where
  events := by rw [g.events, f.events, List.map_append, List.append_assoc]
  env := by rw [g.env, f.env, List.foldl_append]

/-- The bits determine what becomes of the line. -/
theorem Sent.unique {bits : List Bool} {s t u : State} (f : Sent bits s t) (g : Sent bits s u) :
    u.events = t.events ∧ u.env = t.env :=
  ⟨g.events.trans f.events.symm, g.env.trans f.env.symm⟩

/-- The beat and the end of an operation do nothing to the line. -/
theorem Wrote.sent {bits : List Bool} {s q : State} (h : Wrote bits s.start q) (v : Word) : Sent bits s (q.complete v) where
  events := (congrArg View.events h.view).trans (writeBits_events bits _)
  env := (congrArg View.env h.view).trans (writeBits_env bits _)

/-- Operations that each send bits send them all, one after another. -/
theorem execAll_sent {α : Type} {op : α → Instr} {bits : α → List Bool}
    (h : ∀ a s, ∃ t, exec (op a) s = .next t ∧ Sent (bits a) s t) :
    ∀ (as : List α) (s : State), ∃ t, execAll (as.map op) s = some t ∧ Sent (as.flatMap bits) s t
  | [], s => ⟨s, rfl, Sent.refl s⟩
  | a :: as, s => by
    obtain ⟨t, ht, hsent⟩ := h a s
    obtain ⟨u, hu, hrest⟩ := execAll_sent h as t
    exact ⟨u, by rw [List.map_cons, execAll, ht]; exact hu, hsent.trans hrest⟩

/-! ### What operations made of read slots do to the line -/

/-- The next `n` answers of a line to read slots. -/
def Env.answers (n : Nat) (e : Env) : List Bool := (List.range n).map fun k => (Env.afterRead^[k] e).readAnswer

theorem Env.answers_add (m n : Nat) (e : Env) : e.answers (m + n) = e.answers m ++ (Env.afterRead^[m] e).answers n := by
  simp only [Env.answers, List.range_add, List.map_append, List.map_map, Function.comp_def, ← Function.iterate_add_apply,
    Nat.add_comm]

theorem Env.answers_succ (n : Nat) (e : Env) : e.answers (n + 1) = e.readAnswer :: e.afterRead.answers n := by
  rw [Nat.add_comm, Env.answers_add]
  rfl

/-- Read slots at the slot level: the bits are the answers of the line. -/
theorem readBits_answers : ∀ (n : Nat) (v : View),
    (v.readBits n).1 = v.env.answers n ∧ (v.readBits n).2.env = Env.afterRead^[n] v.env
  | 0, _ => ⟨rfl, rfl⟩
  | n + 1, v => by
    obtain ⟨hbits, henv⟩ := readBits_answers n v.read.2
    rw [Env.answers_succ]
    exact ⟨congrArg (v.env.readAnswer :: ·) hbits, henv⟩

/-- On the way from `s` to `t` read slots sampled these bits, which the line answered, and nothing else happened to the line. -/
structure Heard (bits : List Bool) (s t : State) : Prop where
  events : t.events = s.events ++ bits.map .r
  answers : bits = s.env.answers bits.length
  env : t.env = Env.afterRead^[bits.length] s.env

theorem Heard.refl (s : State) : Heard [] s s := ⟨(List.append_nil _).symm, rfl, rfl⟩

theorem Heard.trans {a b : List Bool} {s t u : State} (f : Heard a s t) (g : Heard b t u) : Heard (a ++ b) s u where
  events := by rw [g.events, f.events, List.map_append, List.append_assoc]
  answers := by rw [List.length_append, Env.answers_add, ← f.env, ← f.answers, ← g.answers]
  env := by rw [g.env, f.env, List.length_append, Nat.add_comm, Function.iterate_add_apply]

/-- As many read slots sample the same bits, whatever the operations they belong to. -/
theorem Heard.unique {a b : List Bool} {s t u : State} (f : Heard a s t) (g : Heard b s u) (hlen : b.length = a.length) :
    b = a ∧ u.events = t.events ∧ u.env = t.env := by
  have hbits : b = a := by rw [g.answers, f.answers, hlen]
  subst hbits
  exact ⟨rfl, g.events.trans f.events.symm, g.env.trans f.env.symm⟩

/-- The beat and the end of an operation do nothing to the line. -/
theorem ReadIn.heard {bits : List Bool} {s q : State} (h : ReadIn bits s.start q) (hs : s.env.slotLevel = true) (v : Word) :
    Heard bits s (q.complete v) := by
  obtain ⟨-, hview⟩ := h.view hs
  obtain ⟨hbits, henv⟩ := readBits_answers bits.length s.start.view
  exact ⟨h.events, (congrArg Prod.fst hview).trans hbits, (congrArg (fun r => r.2.env) hview).trans henv⟩

/-- RBYTEs, one after another: the beats are the bytes whose bits the line answered. -/
theorem execAll_rbyte : ∀ (n : Nat) (s : State), s.env.slotLevel = true → ∃ (t : State) (bytes : List Byte),
    execAll (List.replicate n .rbyte) s = some t ∧ bytes.length = n ∧ Heard (bytes.flatMap bitsOf) s t ∧
    t.rsp.map Beat.data = s.rsp.map Beat.data ++ bytes.map ofByte
  | 0, s, _ => ⟨s, [], rfl, rfl, Heard.refl s, (List.append_nil _).symm⟩
  | n + 1, s, hs => by
    have hx : exec .rbyte s = .next (s.start.readByte.2.complete (ofByte s.start.readByte.1)) := rfl
    have hread := readByte_readIn_bitsOf s.start
    obtain ⟨u, bytes, hu, hlen, hheard, hrsp⟩ := execAll_rbyte n _ ((exec_slotLevel hx).trans hs)
    refine ⟨u, s.start.readByte.1 :: bytes, ?_, congrArg (· + 1) hlen, (hread.heard hs _).trans hheard, ?_⟩
    · rw [List.replicate_succ, execAll, hx]
      exact hu
    · have hbeat : s.start.readByte.2.rsp = s.rsp := hread.frame.rsp
      rw [hrsp, State.complete, State.becomeIdle_rsp, State.respond_rsp, hbeat, List.map_append, List.append_assoc]
      rfl

/-! ### Which operations touch a slave -/

theorem events_length (s : State) : s.events.length = s.bus.length := List.length_map _

theorem bus_length_lt_of_events {s t : State} {evs : List BusEvent} (h : t.events = s.events ++ evs) (hne : evs ≠ []) :
    s.bus.length < t.bus.length := by
  rw [← events_length, ← events_length, h, List.length_append]
  exact Nat.lt_add_of_pos_right (List.length_pos_iff.2 hne)

theorem resetPulse_bus_length_lt (s : State) : s.bus.length < s.resetPulse.2.bus.length := by
  obtain ⟨o, h, -⟩ := resetPulse_events s
  exact bus_length_lt_of_events h (List.cons_ne_nil _ _)

/-- A pass that is not over at once is its reset slot and what follows it (43_search.md R174). -/
theorem searchOne_acts_after_reset {s : State} (h : s.ldf = false) : Acts s.resetPulse.2 s.searchOne.2 := by
  have he := searchOne_ends s
  generalize s.searchOne = r at he
  have hloop := (Acts.refl s.resetPulse.2).passLoop
  cases he with
  | done h1 => exact absurd (h.symm.trans h1) Bool.false_ne_true
  | noDevice => exact (Acts.refl _).regs (SameLine.resetSearchState _)
  | aborted => exact hloop.regs (SameLine.resetSearchState _)
  | invalid => exact hloop.regs (SameLine.resetSearchState _)
  | found => exact hloop.regs (SameLine.commitPass _)

theorem searchOne_bus_length_lt {s : State} (h : s.ldf = false) : s.bus.length < s.searchOne.2.bus.length :=
  (resetPulse_bus_length_lt s).trans_le (searchOne_acts_after_reset h).grown.bus.length_le

/-- With the flag set a pass is over at once (43_search.md R173). -/
theorem searchOne_of_ldf {s : State} (h : s.ldf = true) : s.searchOne = (0#64, s) := by
  rw [State.searchOne, h]

/-- What follows the pass in a round of ENUM's loop has no slot. -/
theorem enumRound_bus (s : State) : s.enumRound.bus = s.searchOne.2.bus := by
  simp only [State.enumRound]
  split <;> rfl

/-- Every operation but SRST, and SEARCH with the flag set, has a slot. -/
theorem exec_bus_length_lt {i : Instr} {s t : State} (hi : ¬ (i = .srst ∨ (i = .search ∧ s.ldf = true)))
    (h : exec i s = .next t) : s.bus.length < t.bus.length := by
  have wrote {bits : List Bool} {q : State} (hw : Wrote bits s.start q) (hne : bits ≠ []) :
      s.bus.length < (q.complete 0#64).bus.length :=
    bus_length_lt_of_events (hw.sent 0#64).events (mt List.map_eq_nil_iff.1 hne)
  have read {bits : List Bool} {q : State} (hr : ReadIn bits s.start q) (hne : bits ≠ []) (v : Word) :
      s.bus.length < (q.complete v).bus.length :=
    bus_length_lt_of_events hr.events (mt List.map_eq_nil_iff.1 hne)
  cases i <;> obtain rfl := Host.Outcome.next.inj h
  case reset => exact resetPulse_bus_length_lt s.start
  case wbit b => exact wrote (slotWrite_wrote s.start b) (List.cons_ne_nil _ _)
  case rbit => exact read (slotRead_readIn s.start) (List.cons_ne_nil _ _) _
  case wbyte v => exact wrote (writeByte_wrote v s.start) (bitsOf_ne_nil v)
  case rbyte => exact read (readByte_readIn_bitsOf s.start) (bitsOf_ne_nil _) _
  case wword v => exact wrote (writeWord_wrote v s.start) (bitsOf_ne_nil v)
  case rword => exact read (readWord_readIn_bitsOf s.start) (bitsOf_ne_nil _) _
  case select a =>
    exact wrote ((writeByte_wrote Config.romMatch s.start).trans (writeWord_wrote a _))
      (List.append_ne_nil_of_left_ne_nil (bitsOf_ne_nil _) _)
  case skip => exact wrote (writeByte_wrote Config.romSkip s.start) (bitsOf_ne_nil _)
  case srst => exact absurd (.inl rfl) hi
  case search =>
    have hldf : s.start.ldf = false := Bool.eq_false_iff.2 fun hf => hi (.inr ⟨rfl, hf⟩)
    exact searchOne_bus_length_lt hldf
  case enum =>
    rw [enumRound_bus]
    exact searchOne_bus_length_lt (s := s.start.resetSearchState) rfl

/-! ### The devices on the line -/

theorem Acts.devicesOf {roms : List Word} {s t : State} (h : Acts s t) (hs : devicesOf roms s.env) : devicesOf roms t.env := by
  obtain ⟨new, -, henv⟩ := h.env
  rw [henv]
  exact devicesOf_slots new hs

theorem Ended.devicesOf {roms : List Word} {m t : State} (he : Ended m t) (h : devicesOf roms m.env) : devicesOf roms t.env := by
  cases he with
  | idle => exact h
  | looping => exact h

theorem enumRound_devicesOf {roms : List Word} {s : State} (h : devicesOf roms s.env) : devicesOf roms s.enumRound.env := by
  obtain ⟨m, ha, he⟩ := enumRound_acts s
  exact he.devicesOf (ha.devicesOf h)

theorem execWord_devicesOf {roms : List Word} {w : CmdWord} {s t : State} (h : devicesOf roms s.env)
    (hw : execWord w s = .next t) : devicesOf roms t.env := by
  unfold execWord at hw
  split at hw
  · next i _ =>
    obtain ⟨m, t', ha, he, hx⟩ := exec_acts i s
    obtain rfl := Host.Outcome.next.inj (hw.symm.trans hx)
    exact he.devicesOf (ha.devicesOf h)
  · obtain rfl := Host.Outcome.next.inj hw
    exact h

/-- Cut or not, a step from `s` to a state with these devices leaves these devices (20_memory.md R64; log 11). -/
theorem cutByReset_devicesOf {roms : List Word} {s t : State} (hs : devicesOf roms s.env) (ht : devicesOf roms t.env) :
    devicesOf roms (s.cutByReset t).env := by
  obtain ⟨-, h⟩ | ⟨e, -, h⟩ := cutByReset_cases s t <;> rw [h]
  · exact ht
  · exact devicesOf_envAt hs e t

/-! ### The obligations -/

/-- Settles O19. A byte is shifted out of `sh` and into it bit 0 first. -/
theorem bytesAreBitZeroFirst : Obligations.BytesAreBitZeroFirst := by
  constructor
  · intro s v
    obtain ⟨hop, hlooks⟩ := lineOp_wrote (writeByte_wrote v s.start) (bitsOf_ne_nil v) 0#64
    exact ⟨_, rfl, hlooks, hop⟩
  · intro s
    exact ⟨_, s.start.readByte.1, rfl, lineOp_read (readByte_readIn_bitsOf s.start) (bitsOf_ne_nil _) _⟩

/-- Settles O20. The loops over the bytes of `sh` go through its bits in their order, `bitsOf_word`. -/
theorem wordsAreByteZeroFirst : Obligations.WordsAreByteZeroFirst := by
  have order (v : Word) (ev : Bool → BusEvent) : (bitsOf v).map ev =
      (List.range 8).flatMap fun j => (List.range 8).map fun k => ev (v.getLsbD (8 * j + k)) := by
    rw [bitsOf_word, List.map_flatMap]
    simp only [List.map_map, Function.comp_def]
  constructor
  · intro s v
    obtain ⟨hop, hlooks⟩ := lineOp_wrote (writeWord_wrote v s.start) (bitsOf_ne_nil v) 0#64
    exact ⟨_, rfl, hlooks, order v .w ▸ hop⟩
  · intro s
    have hop := lineOp_read (readWord_readIn_bitsOf s.start) (bitsOf_ne_nil _) s.start.readWord.1
    exact ⟨_, s.start.readWord.1, rfl, order _ .r ▸ hop⟩

/-- Settles O23. Whatever the width, the same bits are sent in the same order; and sixty-four read slots sample the same bits. -/
theorem widthsShareOneOrder : Obligations.WidthsShareOneOrder := by
  intro s v
  constructor
  · have hword := (writeWord_wrote v s.start).sent 0#64
    obtain ⟨u, hu, hbytes⟩ := execAll_sent (op := .wbyte) (bits := bitsOf)
      (fun b s => ⟨_, rfl, (writeByte_wrote b s.start).sent 0#64⟩) (bytesOf v) s
    obtain ⟨x, hx, hbits⟩ := execAll_sent (op := .wbit) (bits := fun b => [b])
      (fun b s => ⟨_, rfl, (slotWrite_wrote s.start b).sent 0#64⟩) (bitsOf v) s
    rw [bytesOf, List.map_map] at hu
    rw [bitsOf, List.map_map] at hx
    rw [bytesOf_flatMap_bitsOf] at hbytes
    rw [List.flatMap_singleton'] at hbits
    obtain ⟨hue, huenv⟩ := hword.unique hbytes
    obtain ⟨hxe, hxenv⟩ := hword.unique hbits
    exact ⟨_, u, x, rfl, hu, hx, hue, hxe, huenv, hxenv⟩
  · intro hs
    have hread := readWord_readIn_bitsOf s.start
    obtain ⟨-, hbeat, -⟩ := lineOp_read hread (bitsOf_ne_nil _) s.start.readWord.1
    obtain ⟨u, bytes, hu, hlen, hheard, hrsp⟩ := execAll_rbyte 8 s hs
    have hword := hread.heard hs s.start.readWord.1
    obtain ⟨hbits, hevents, henv⟩ := hword.unique hheard (by rw [flatMap_bitsOf_length, hlen, bitsOf_length])
    rw [flatMap_bitsOf_inj (hlen.trans rfl) (hbits.trans (bytesOf_flatMap_bitsOf _).symm), bytesOf, List.map_map] at hrsp
    exact ⟨_, u, s.start.readWord.1, rfl, hbeat, hu, hevents, henv, hrsp⟩

/-- Settles O39. The two that touch no slave by definition of SRST and by `searchOne_of_ldf`, the others by `exec_bus_length_lt`. -/
theorem onlySrstAndDoneSearchTouchNoSlave : Obligations.OnlySrstAndDoneSearchTouchNoSlave := by
  intro i s
  obtain ⟨t, ht, -⟩ := exec_kept i s
  refine ⟨t, ht, ?_⟩
  split
  · next hi =>
    obtain rfl | ⟨rfl, hldf⟩ := hi <;> obtain rfl := Host.Outcome.next.inj ht
    · exact ⟨rfl, rfl⟩
    · rw [searchOne_of_ldf (s := s.start) hldf]
      exact ⟨rfl, rfl⟩
  · next hi => exact exec_bus_length_lt hi ht

/-- Settles O49. No slot of the four things a step can be takes a device off the line, and neither does the cut. -/
theorem devicesStayOnTheLine : Obligations.DevicesStayOnTheLine := by
  intro roms s t hs h
  obtain ⟨-, hx⟩ | ⟨-, -, hx⟩ | ⟨w, rest, u, -, hw, -, hx⟩ | ⟨-, -, -, hx⟩ := step_cases s <;>
    obtain rfl := Host.Outcome.next.inj (h.symm.trans hx)
  · exact hs
  · exact cutByReset_devicesOf hs (enumRound_devicesOf hs)
  · exact cutByReset_devicesOf hs (execWord_devicesOf (s := s.take rest) hs hw)
  · exact cutByReset_devicesOf (t := s.idle) hs hs

end Sys2Proof.Machine

/-!
PROOFS of the family 30_encoding, first part. The command words of the operations, and the opcode map (30_encoding.md R80 to R87).
-/

namespace Sys2Proof

/-! ### The operand of a format -/

/-- The reserved bits are 0 if and only if `arg` is its operand zero-extended (30_encoding.md R83). -/
theorem shift_zero_iff_setWidth (a : Word) (n : Nat) : a >>> n = 0#64 ↔ (a.setWidth n).setWidth 64 = a := by
  rw [shift_zero_iff, BitVec.eq_of_getLsbD_eq_iff]
  apply forall_congr'
  intro i
  rw [BitVec.getLsbD_setWidth, BitVec.getLsbD_setWidth]
  by_cases hn : n ≤ i
  · simp +contextual [hn, Nat.not_lt.2 hn]
  · simp +contextual [hn, Nat.not_le.1 hn]

/-- Format B is WBIT's operand and nothing else (30_encoding.md R81). -/
theorem decodeB_eq_instr_iff {op : Byte} {arg : Word} {i : Instr} :
    decodeB op arg .wbit = .instr i ↔ ∃ b, i = .wbit b ∧ arg = operand i := by
  have hres : arg >>> 1 = 0#64 ↔ operand (.wbit (arg.getLsbD 0)) = arg := by
    have hop (b : Bool) : operand (.wbit b) = (BitVec.ofBool b).setWidth 64 := by cases b <;> rfl
    rw [shift_zero_iff_setWidth, BitVec.setWidth_one, hop]
  unfold decodeB
  constructor
  · intro h
    split at h
    · next h0 =>
      obtain rfl := Decoded.instr.inj h
      exact ⟨_, rfl, (hres.1 h0).symm⟩
    · exact nomatch h
  · rintro ⟨b, rfl, rfl⟩
    have hbit : (operand (.wbit b)).getLsbD 0 = b := by cases b <;> rfl
    rw [if_pos (hres.2 (by rw [hbit])), hbit]

/-- Format Y is WBYTE's operand and nothing else (30_encoding.md R81). -/
theorem decodeY_eq_instr_iff {op : Byte} {arg : Word} {i : Instr} :
    decodeY op arg .wbyte = .instr i ↔ ∃ v, i = .wbyte v ∧ arg = operand i := by
  have hres : arg >>> 8 = 0#64 ↔ operand (.wbyte (arg.extractLsb' 0 8)) = arg := by
    rw [shift_zero_iff_setWidth, operand, ← BitVec.setWidth_eq_extractLsb' (by decide)]
  unfold decodeY
  constructor
  · intro h
    split at h
    · next h0 =>
      obtain rfl := Decoded.instr.inj h
      exact ⟨_, rfl, (hres.1 h0).symm⟩
    · exact nomatch h
  · rintro ⟨v, rfl, rfl⟩
    have hbyte : (operand (.wbyte v)).extractLsb' 0 8 = v := by
      rw [← BitVec.setWidth_eq_extractLsb' (by decide), operand, BitVec.setWidth_setWidth_of_le _ (by decide),
        BitVec.setWidth_eq]
    rw [if_pos (hres.2 (by rw [hbyte])), hbyte]

/-! ### The fields of an operation -/

/-- A word of format Z that decodes has the fields of its operation. -/
theorem fields_of_decodeZ {op : Byte} {arg : Word} {i j : Instr} (h : decodeZ op arg j = .instr i)
    (hop : op.toNat = (opcode j).toNat) (hj : operand j = 0#64) : op = opcode i ∧ arg = operand i := by
  unfold decodeZ at h
  split at h
  · next h0 =>
    obtain rfl := Decoded.instr.inj h
    exact ⟨BitVec.eq_of_toNat_eq hop, h0.trans hj.symm⟩
  · exact nomatch h

/-- A word decodes to an operation if and only if it has the operation's fields (30_encoding.md R81, R84). -/
theorem decode_eq_instr_iff {w : CmdWord} {i : Instr} :
    decode w = .instr i ↔ opField w = opcode i ∧ argField w = operand i := by
  unfold decode
  generalize opField w = op
  generalize argField w = arg
  constructor
  · intro h
    simp only at h
    split at h
    case h_1 hop => exact fields_of_decodeZ h hop rfl
    case h_2 hop =>
      obtain ⟨b, rfl, harg⟩ := decodeB_eq_instr_iff.1 h
      exact ⟨BitVec.eq_of_toNat_eq hop, harg⟩
    case h_3 hop => exact fields_of_decodeZ h hop rfl
    case h_4 hop =>
      obtain ⟨v, rfl, harg⟩ := decodeY_eq_instr_iff.1 h
      exact ⟨BitVec.eq_of_toNat_eq hop, harg⟩
    case h_5 hop => exact fields_of_decodeZ h hop rfl
    case h_6 hop =>
      obtain rfl := Decoded.instr.inj h
      exact ⟨BitVec.eq_of_toNat_eq hop, rfl⟩
    case h_7 hop => exact fields_of_decodeZ h hop rfl
    case h_8 hop =>
      obtain rfl := Decoded.instr.inj h
      exact ⟨BitVec.eq_of_toNat_eq hop, rfl⟩
    case h_9 hop => exact fields_of_decodeZ h hop rfl
    case h_10 hop => exact fields_of_decodeZ h hop rfl
    case h_11 hop => exact fields_of_decodeZ h hop rfl
    case h_12 hop => exact fields_of_decodeZ h hop rfl
    case h_13 => exact nomatch h
  · rintro ⟨rfl, rfl⟩
    cases i with
    | wbit b => exact decodeB_eq_instr_iff.2 ⟨b, rfl, rfl⟩
    | wbyte v => exact decodeY_eq_instr_iff.2 ⟨v, rfl, rfl⟩
    | _ => rfl

/-! ### The opcode map -/

/-- No two rows of the opcode map have one `op` (30_encoding.md R84). -/
theorem row_eq_of_op_eq : ∀ r₁ ∈ opcodeTable, ∀ r₂ ∈ opcodeTable,
    r₁.pat.extractLsb' 64 8 = r₂.pat.extractLsb' 64 8 → r₁ = r₂ := by decide

/-- The values of `op` that have a row are 0x01 to 0x0C (30_encoding.md R84). -/
theorem exists_row_iff (op : Byte) :
    (∃ r ∈ opcodeTable, r.pat.extractLsb' 64 8 = op) ↔ 0x01 ≤ op.toNat ∧ op.toNat ≤ 0x0C := by
  constructor
  · have hrows : ∀ r ∈ opcodeTable,
        0x01 ≤ (r.pat.extractLsb' 64 8).toNat ∧ (r.pat.extractLsb' 64 8).toNat ≤ 0x0C := by decide
    rintro ⟨r, hr, rfl⟩
    exact hrows r hr
  · have hrows : ∀ n : Fin 13, 0x01 ≤ n.1 → ∃ r ∈ opcodeTable, r.pat.extractLsb' 64 8 = BitVec.ofNat 8 n.1 := by decide
    rintro ⟨h1, h12⟩
    simpa using hrows ⟨op.toNat, by omega⟩ h1

/-- A word with a row's `op` and no reserved bit decodes to an operation of that row (30_encoding.md R85). -/
theorem decode_of_row {r : OpcodeRow} {w : CmdWord} (hr : r ∈ opcodeTable) (hop : opField w = r.pat.extractLsb' 64 8)
    (hres : argField w >>> r.format.operandBits = 0#64) :
    ∃ i, decode w = .instr i ∧ i.mnemonic = r.mnemonic ∧ i.format = r.format := by
  have hdec := decode_row r hr w hop
  rwa [if_pos hres] at hdec

/-- A word with a row's `op` and a reserved bit is illegal (30_encoding.md R87). -/
theorem decode_of_reserved {r : OpcodeRow} {w : CmdWord} (hr : r ∈ opcodeTable) (hop : opField w = r.pat.extractLsb' 64 8)
    (hres : ¬ argField w >>> r.format.operandBits = 0#64) : decode w = .illegal (.reservedBits (opField w)) := by
  have hdec := decode_row r hr w hop
  rwa [if_neg hres] at hdec

/-- Some bit from `n` on is 1 if and only if the word shifted right by `n` is not zero. -/
theorem exists_bit_iff (a : Word) (n : Nat) : (∃ i, n ≤ i ∧ i < 64 ∧ a.getLsbD i = true) ↔ ¬ a >>> n = 0#64 := by
  simp only [shift_zero_iff, not_forall, exists_prop, Bool.not_eq_false]

/-! ### The obligations -/

/-- Settles O1. The word of an operation has the operation's fields. -/
theorem encodeThenDecode : Obligations.EncodeThenDecode := fun i =>
  decode_eq_instr_iff.2 (fields_append (opcode i) (operand i))

/-- Settles O2. A word is its two fields, and these are the operation's. -/
theorem decodeThenEncode : Obligations.DecodeThenEncode := by
  intro w i h
  obtain ⟨hop, harg⟩ := decode_eq_instr_iff.1 h
  rw [encode, ← hop, ← harg, word_split]

/-- Settles O3. The `op` of a word selects its row; the reserved bits of that row's format decide whether the word is legal. -/
theorem decodingFollowsTheOpcodeMap : Obligations.DecodingFollowsTheOpcodeMap := by
  intro w
  refine ⟨fun r₁ hr₁ r₂ hr₂ h₁ h₂ => ?_, fun r hr h => ?_, fun hnone => ?_⟩
  · obtain ⟨hop₁, -⟩ := (selects_iff r₁ hr₁ w).1 h₁
    obtain ⟨hop₂, -⟩ := (selects_iff r₂ hr₂ w).1 h₂
    exact row_eq_of_op_eq r₁ hr₁ r₂ hr₂ (hop₁.symm.trans hop₂)
  · obtain ⟨hop, hres⟩ := (selects_iff r hr w).1 h
    exact decode_of_row hr hop hres
  · by_cases hrow : ∃ r ∈ opcodeTable, r.pat.extractLsb' 64 8 = opField w
    · obtain ⟨r, hr, hop⟩ := hrow
      have hres : ¬ argField w >>> r.format.operandBits = 0#64 := fun h0 =>
        Bool.false_ne_true ((hnone r hr).symm.trans ((selects_iff r hr w).2 ⟨hop.symm, h0⟩))
      exact ⟨_, decode_of_reserved hr hop.symm hres⟩
    · exact ⟨_, decode_norow w fun r hr hop => hrow ⟨r, hr, hop⟩⟩

/-- Settles O4. A word without a row has an `op` outside 0x01 to 0x0C; a word with one is illegal by its reserved bits alone. -/
theorem illegalWordsAreTheReservedOnes : Obligations.IllegalWordsAreTheReservedOnes := by
  intro w
  have hrow := exists_row_iff (opField w)
  rw [← or_assoc]
  constructor
  · rintro ⟨why, hdec⟩
    by_cases h : ∃ r ∈ opcodeTable, r.pat.extractLsb' 64 8 = opField w
    · obtain ⟨r, hr, hop⟩ := h
      refine .inr ⟨r, hr, hop, (exists_bit_iff _ _).2 fun hres => ?_⟩
      obtain ⟨i, hi, -⟩ := decode_of_row hr hop.symm hres
      exact nomatch hdec.symm.trans hi
    · rw [hrow] at h
      exact .inl (by omega)
  · rintro (hop | ⟨r, hr, hop, hbit⟩)
    · have h : ¬ ∃ r ∈ opcodeTable, r.pat.extractLsb' 64 8 = opField w := by
        rw [hrow]
        omega
      exact ⟨_, decode_norow w fun r hr hr' => h ⟨r, hr, hr'⟩⟩
    · exact ⟨_, decode_of_reserved hr hop.symm ((exists_bit_iff _ _).1 hbit)⟩

/-- Settles O5, by evaluation of the eleven words. -/
theorem wordsOfTheOpcodeMapDecode : Obligations.WordsOfTheOpcodeMapDecode := by
  unfold Obligations.WordsOfTheOpcodeMapDecode
  decide

end Sys2Proof

/-!
PROOFS of the family 30_encoding, second part. What an illegal word does (30_encoding.md R88), and the ROM command bytes on the
line (R97).
-/

namespace Sys2Proof.Machine

open SlotLevel (View bitsOf)

/-! ### An illegal word -/

/-- Nothing is cut where no time has passed. -/
theorem cutByReset_of_now_eq {s t : State} (h : t.now = s.now) : s.cutByReset t = t := by
  rw [State.cutByReset, firstReset_now h]

/-! ### The events of a pass -/

theorem Wrote.events {bits : List Bool} {s t : State} (h : Wrote bits s t) : t.events = s.events ++ bits.map .w :=
  (congrArg View.events h.view).trans (writeBits_events bits _)

theorem Grown.events {s t : State} (h : Grown s t) : s.events <+: t.events := h.bus.map Slot.ev

/-- A pass that found no device is its reset slot (43_search.md R174). -/
theorem searchOne_events_of_absent {s : State} (hf : s.ldf = false) (hp : s.resetPulse.1 = false) :
    s.searchOne.2.events = s.resetPulse.2.events := by
  rw [State.searchOne, hf]
  simp only [hp]
  rfl

/-- A pass that found a device is its reset slot, the command byte and the loop (43_search.md R175). -/
theorem searchOne_events_of_present {s : State} (hf : s.ldf = false) (hp : s.resetPulse.1 = true) :
    ∃ more, s.searchOne.2.events = s.resetPulse.2.events ++ (bitsOf Config.romSearch).map .w ++ more := by
  have hloop : s.searchOne.2.events = s.resetPulse.2.passLoop.2.events := by
    have he := searchOne_ends s
    generalize s.searchOne = r at he
    cases he with
    | done h => exact absurd (hf.symm.trans h) Bool.false_ne_true
    | noDevice _ h => exact absurd (h.symm.trans hp) Bool.false_ne_true
    | aborted => rfl
    | invalid => rfl
    | found => rfl
  obtain ⟨more, hmore⟩ := (Acts.refl s.resetPulse.2.passStart).searchLoop 64 |>.grown.events
  exact ⟨more, by rw [hloop, ← (passStart_wrote s.resetPulse.2).events]; exact hmore.symm⟩

/-! ### The obligations -/

/-- Settles O8. No time passes, so hardware reset cuts nothing. -/
theorem illegalWordIsADiagnosedNoOp : Obligations.IllegalWordIsADiagnosedNoOp := by
  intro s w rest why htake hw
  have hstep : step s = .next (((s.take rest).start.diag .illegalCmd).complete 0#64) := by
    rw [step_accept htake, execWord, hw]
    exact congrArg Host.Outcome.next (cutByReset_of_now_eq rfl)
  refine ⟨_, hstep, rfl, rfl, rfl, rfl, rfl, rfl, rfl, rfl, ?_, ⟨_, rfl⟩, rfl⟩
  exact List.map_append

/-- Settles O22. Each byte goes out bit 0 first, and the three bytes are literals. -/
theorem romCommandBytesOnTheLine : Obligations.RomCommandBytesOnTheLine := by
  refine ⟨fun s a => ?_, fun s => ?_, fun s hldf => ?_⟩
  · have hsent := ((writeByte_wrote Config.romMatch s.start).trans (writeWord_wrote a _)).sent 0#64
    refine ⟨_, (bitsOf a).map .w, rfl, ?_⟩
    rw [hsent.events, List.map_append, ← List.append_assoc]
    rfl
  · exact ⟨_, rfl, ((writeByte_wrote Config.romSkip s.start).sent 0#64).events⟩
  · obtain ⟨o, hreset, hpresence, -⟩ := resetPulse_events s.start
    refine ⟨_, o, rfl, fun hp => ?_, fun hp => ?_⟩
    · exact (searchOne_events_of_absent (s := s.start) hldf (hpresence.trans hp)).trans hreset
    · obtain ⟨more, h⟩ := searchOne_events_of_present (s := s.start) hldf (hpresence.trans hp)
      rw [hreset] at h
      exact ⟨more, h⟩

end Sys2Proof.Machine

/-!
PROOFS of the family 40_signal_primitives, first part. What the waits of a reset slot find on the line (40_signal_primitives.md R113 to
R117); the outputs and the looks of each kind of slot (R111, R116, R121, R123, R129, R132).
-/

namespace Sys2Proof.Machine

/-! ### The waits of a reset slot -/

section Waits

variable {incl : Bool} {line : Nat → Bool}

/-- A wait fails where the line never has the level before its budget ends (00_scope.md R19). -/
theorem waitWithin_eq_none_iff {lv : Bool} {st org b : Nat} : waitWithin incl line lv st org b = none ↔
    ∀ x, st ≤ x → x < org + b + (if incl then 1 else 0) → line x ≠ lv := by
  rw [waitWithin, waitLevel_none, budgetEnd]
  constructor <;> exact fun h x h1 h2 => h x h1 (by omega)

/-- A wait succeeds at the first instant at which the line has the level, where that comes before its budget ends. -/
theorem waitWithin_eq_some_iff {lv : Bool} {st org b r : Nat} : waitWithin incl line lv st org b = some r ↔
    st ≤ r ∧ r < org + b + (if incl then 1 else 0) ∧ line r = lv ∧ ∀ x, st ≤ x → x < r → line x ≠ lv := by
  rw [waitWithin, budgetEnd]
  constructor
  · intro h
    obtain ⟨h1, h2, h3, h4⟩ := waitLevel_some h
    exact ⟨h1, by omega, h3, h4⟩
  · rintro ⟨h1, h2, h3, h4⟩
    exact waitLevel_hit r h1 (by omega) h3 h4

/-- How the waits of a reset slot end, by the wait that fails (40_signal_primitives.md R113 to R117). -/
inductive ScanEnds (incl : Bool) (line : Nat → Bool) (tRel : Nat) : ResetScan → Prop
  /-- The line does not rise. -/
  | noFloat : waitWithin incl line true tRel tRel Config.tFloat = none →
      ScanEnds incl line tRel ⟨.noFloat, tRel + 15, budgetEnd incl tRel Config.tFloat⟩
  /-- It rises and stays high. -/
  | noPres {tH : Nat} : waitWithin incl line true tRel tRel Config.tFloat = some tH →
      waitWithin incl line false tH tRel Config.tPres = none →
      ScanEnds incl line tRel ⟨.noPres, tRel + 240, budgetEnd incl tRel Config.tPres⟩
  /-- It falls again and is released. -/
  | pres {tH tP tR : Nat} : waitWithin incl line true tRel tRel Config.tFloat = some tH →
      waitWithin incl line false tH tRel Config.tPres = some tP →
      waitWithin incl line true tP tRel Config.tPrel = some tR →
      ScanEnds incl line tRel ⟨.pres, tR, tR + 1⟩
  /-- It falls again and is not released. -/
  | presNoRel {tH tP : Nat} : waitWithin incl line true tRel tRel Config.tFloat = some tH →
      waitWithin incl line false tH tRel Config.tPres = some tP →
      waitWithin incl line true tP tRel Config.tPrel = none →
      ScanEnds incl line tRel ⟨.presNoRel, tRel + 480, budgetEnd incl tRel Config.tPrel⟩

/-- The one case split of `resetScan`. -/
theorem resetScan_ends (incl : Bool) (line : Nat → Bool) (tRel : Nat) :
    ScanEnds incl line tRel (resetScan incl line tRel) := by
  unfold resetScan
  split
  · next hH => exact .noFloat hH
  · next tH hH =>
    split
    · next hP => exact .noPres hH hP
    · next tP hP =>
      split
      · next tR hR => exact .pres hH hP hR
      · next hR => exact .presNoRel hH hP hR

variable {tRel tH tP : Nat} {r : ResetScan}

/-- The float wait alone decides `NOFLOAT`. -/
theorem ScanEnds.noFloat_iff (h : ScanEnds incl line tRel r) :
    r.outcome = .noFloat ↔ waitWithin incl line true tRel tRel Config.tFloat = none := by
  cases h <;> simp [*]

/-- Once the line is high the presence wait decides `NOPRES`. -/
theorem ScanEnds.noPres_iff (h : ScanEnds incl line tRel r)
    (hH : waitWithin incl line true tRel tRel Config.tFloat = some tH) :
    r.outcome = .noPres ↔ waitWithin incl line false tH tRel Config.tPres = none := by
  cases h <;> simp_all

/-- Once there is a presence pulse the release wait decides between `PRES` and `PRES_NOREL`. -/
theorem ScanEnds.release_iff (h : ScanEnds incl line tRel r)
    (hH : waitWithin incl line true tRel tRel Config.tFloat = some tH)
    (hP : waitWithin incl line false tH tRel Config.tPres = some tP) :
    (r.outcome = .pres ↔ waitWithin incl line true tP tRel Config.tPrel ≠ none) ∧
    (r.outcome = .presNoRel ↔ waitWithin incl line true tP tRel Config.tPrel = none) := by
  cases h <;> simp_all

/-- With `PRES` all three waits have succeeded, the last at the end of the critical section. -/
theorem ScanEnds.waits_of_pres (h : ScanEnds incl line tRel r) (ho : r.outcome = .pres) : ∃ tH tP,
    waitWithin incl line true tRel tRel Config.tFloat = some tH ∧
    waitWithin incl line false tH tRel Config.tPres = some tP ∧
    waitWithin incl line true tP tRel Config.tPrel = some r.tc := by
  cases h with
  | pres hH hP hR => exact ⟨_, _, hH, hP, hR⟩
  | _ => cases ho

/-- Where a wait has failed the critical section has lasted as long as its budget (40_signal_primitives.md R116). -/
theorem ScanEnds.tc_of_failed (h : ScanEnds incl line tRel r) : (r.outcome = .noFloat → r.tc = tRel + 15) ∧
    (r.outcome = .noPres → r.tc = tRel + 240) ∧ (r.outcome = .presNoRel → r.tc = tRel + 480) := by
  cases h with
  | noFloat => exact ⟨fun _ => rfl, nofun, nofun⟩
  | noPres => exact ⟨nofun, fun _ => rfl, nofun⟩
  | pres => exact ⟨nofun, nofun, nofun⟩
  | presNoRel => exact ⟨nofun, nofun, fun _ => rfl⟩

end Waits

/-! ### Pulses -/

/-- A signal with two edges is one pulse. -/
theorem levelAt_pulse {a b : Nat} (h : a ≤ b) (t : Nat) : levelAt [a, b] t = (decide (a ≤ t) && decide (t < b)) := by
  by_cases h1 : a ≤ t
  · by_cases h2 : b ≤ t
    · simp [levelAt, h1, h2, Nat.not_lt.2 h2]
    · simp [levelAt, h1, h2, Nat.not_le.1 h2]
  · have h2 : ¬ b ≤ t := by omega
    simp [levelAt, h1, h2]

/-- Such a waveform in a reset slot (20_memory.md R72). -/
theorem lowInReset_pulse {env : Env} {a b : Nat} (h : env = .wave [a, b]) (hab : a ≤ b) (tRel x : Nat) :
    env.lowInReset tRel x = (decide (a ≤ x) && decide (x < b)) := by
  rw [h]
  exact levelAt_pulse hab x

/-! ### The outputs and the looks of a slot -/

/-- `ow_drive_low` at the instant `x`, as these spans have it. -/
def driveIn (spans : List Span) (x : Nat) : Bool :=
  spans.any fun sp => sp.driveLow && decide (sp.start ≤ x) && decide (x < sp.stop)

/-- `crit` at the instant `x`, as these spans have it. -/
def critIn (spans : List Span) (x : Nat) : Bool :=
  spans.any fun sp => sp.crit && decide (sp.start ≤ x) && decide (x < sp.stop)

/-- Whether one of these looks is at the instant `x`. -/
def lookIn (looks : List Window) (x : Nat) : Bool :=
  looks.any fun w => decide (w.start ≤ x) && decide (x < w.stop)

/-- From now on the outputs are those of the spans added. -/
theorem outputs_of_trace {s t : State} {spans : List Span} {x : Nat} (hs : HistoryOrdered s)
    (ht : t.trace = s.trace ++ spans) (hx : s.now ≤ x) : t.driveAt x = driveIn spans x ∧ t.critAt x = critIn spans x := by
  obtain ⟨-, -, htrace, -, -, -⟩ := hs
  constructor
  · rw [State.driveAt, ht, List.any_append, old_spans Span.driveLow htrace hx, Bool.false_or, driveIn]
  · rw [State.critAt, ht, List.any_append, old_spans Span.crit htrace hx, Bool.false_or, critIn]

/-- After now the looks are those added. -/
theorem lookedAt_of_looks {s t : State} {looks : List Window} {x : Nat} (hs : HistoryOrdered s)
    (ht : t.looks = s.looks ++ looks) (hx : s.now < x) : t.lookedAt x = lookIn looks x := by
  obtain ⟨-, -, -, hlooks, -, -⟩ := hs
  have hold : (s.looks.any fun w => decide (w.start ≤ x) && decide (x < w.stop)) = false := by
    simp only [List.any_eq_false, Bool.and_eq_true, decide_eq_true_eq, not_and, not_lt]
    intro w hw _
    have := hlooks w hw
    omega
  rw [State.lookedAt, ht, List.any_append, hold, Bool.false_or, lookIn]

theorem lookIn_single {a b x : Nat} : lookIn [⟨a, b⟩] x = (decide (a ≤ x) && decide (x < b)) := Bool.or_false _

/-- A read slot samples before it ends (00_scope.md R15). -/
theorem sample_le_slot {t : Config.Timing} (h : t.legal = true) (t0 : Nat) : t0 + t.tRInit + t.tRWait ≤ t0 + 60 := by
  obtain ⟨-, -, -, -, -, -, -, -, -, -, -, hwait⟩ := (legal_iff t).1 h
  omega

/-- The outputs of a write slot: low for its low phase, `crit` to its end (40_signal_primitives.md R121, R123). -/
theorem writeSlot_outputs {t0 low stop x : Nat} (hlow : t0 + low ≤ stop) (hx : t0 ≤ x) :
    driveIn [⟨t0, t0 + low, true, true⟩, ⟨t0 + low, stop, false, true⟩] x = decide (x < t0 + low) ∧
    critIn [⟨t0, t0 + low, true, true⟩, ⟨t0 + low, stop, false, true⟩] x = decide (x < stop) := by
  constructor
  · simp [driveIn, hx]
  · rw [Bool.eq_iff_iff]
    simp [critIn]
    omega

/-- The outputs of a read slot: low for its initiation pulse, `crit` to its end (40_signal_primitives.md R129, R132). -/
theorem readSlot_outputs {t0 init wait stop x : Nat} (hstop : t0 + init + wait ≤ stop) (hx : t0 ≤ x) :
    driveIn [⟨t0, t0 + init, true, true⟩, ⟨t0 + init, t0 + init + wait, false, true⟩,
      ⟨t0 + init + wait, stop, false, true⟩] x = decide (x < t0 + init) ∧
    critIn [⟨t0, t0 + init, true, true⟩, ⟨t0 + init, t0 + init + wait, false, true⟩,
      ⟨t0 + init + wait, stop, false, true⟩] x = decide (x < stop) := by
  constructor
  · simp [driveIn, hx]
  · rw [Bool.eq_iff_iff]
    simp [critIn]
    omega

/-- The outputs of a reset slot: low for 480 microseconds, then `crit` to the end of the waits (40_signal_primitives.md R111, R116). -/
theorem resetSlot_outputs {t0 tc x : Nat} (hx : t0 ≤ x) :
    driveIn [⟨t0, t0 + 480, true, false⟩, ⟨t0 + 480, tc, false, true⟩] x = decide (x < t0 + 480) ∧
    critIn [⟨t0, t0 + 480, true, false⟩, ⟨t0 + 480, tc, false, true⟩] x = (decide (t0 + 480 ≤ x) && decide (x < tc)) := by
  constructor
  · simp [driveIn, hx]
  · simp [critIn]

/-! ### RESET -/

/-- The first slot of an operation starts when the operation does. -/
theorem start_slotStart (s : State) : s.start.slotStart = s.now := rfl

/-- The whole next state of RESET (40_signal_primitives.md R110 to R118). -/
theorem exec_reset_eq (s : State) : exec .reset s = .next (State.complete (ofBit (presence s.start.scan.outcome))
    { s.start with
      owDriveLow := false
      crit := false
      inOp := true
      now := s.now + 960
      tr := { s.tr with tRef := s.now + 480 }
      env := s.env.afterReset
      diags := s.diags ++ (diagnostics s.start.scan.outcome).map fun c => ⟨s.now + 960, c⟩
      bus := s.bus ++ [⟨.rst s.start.scan.outcome, s.now, s.now + 960⟩]
      trace := s.trace ++ [⟨s.now, s.now + 480, true, false⟩, ⟨s.now + 480, s.start.scan.tc, false, true⟩]
      looks := s.looks ++ [⟨s.now + 480, s.start.scan.lookStop⟩] }) := by
  show Host.Outcome.next (s.start.resetPulse.2.complete (ofBit s.start.resetPulse.1)) = _
  rw [resetPulse_eq, slotReset_eq, start_slotStart]
  generalize s.start.scan = sc
  generalize s.now + 960 = tEnd
  rfl

/-- How the waits of RESET end, on the line that the environment leaves. -/
theorem start_scanEnds (s : State) : ScanEnds s.timing.boundaryInclusive (fun x => !s.env.lowInReset (s.now + 480) x)
    (s.now + 480) s.start.scan :=
  resetScan_ends _ _ _

/-! ### The obligations -/

/-- Settles O13, from the whole next state of RESET. -/
theorem resetReturnsPresence : Obligations.ResetReturnsPresence := by
  intro s
  refine ⟨_, _, exec_reset_eq s, ?_, ⟨s.now + 960, ?_⟩, rfl, ⟨rfl, rfl, rfl⟩, ⟨rfl, rfl, rfl⟩, ⟨rfl, rfl, rfl⟩, rfl⟩
  · simp [State.events]
  · cases presence s.start.scan.outcome <;> rfl

/-- Settles O14. The three waits decide the outcome one after another; what each of them finds is said by `waitWithin_eq_none_iff` and
`waitWithin_eq_some_iff`. -/
theorem resetOutcomeIsReadOffTheLine : Obligations.ResetOutcomeIsReadOffTheLine := by
  intro s t o hx he tRel low more
  obtain rfl : s.start.scan.outcome = o := by
    obtain rfl := Host.Outcome.next.inj (hx.symm.trans (exec_reset_eq s))
    simpa [State.events] using he
  have hends : ScanEnds s.timing.boundaryInclusive (fun x => !low x) tRel s.start.scan := start_scanEnds s
  refine ⟨?_, fun tH h1 h2 h3 h4 => ?_⟩
  · rw [hends.noFloat_iff, waitWithin_eq_none_iff]
    simp [Config.tFloat, more]
  · have hH : waitWithin s.timing.boundaryInclusive (fun x => !low x) true tRel tRel Config.tFloat = some tH :=
      waitWithin_eq_some_iff.2 ⟨h1, h2, by simp [h3], by simpa using h4⟩
    refine ⟨?_, fun tP g1 g2 g3 g4 => ?_⟩
    · rw [hends.noPres_iff hH, waitWithin_eq_none_iff]
      simp [Config.tPres, more]
    · have hP : waitWithin s.timing.boundaryInclusive (fun x => !low x) false tH tRel Config.tPres = some tP :=
        waitWithin_eq_some_iff.2 ⟨g1, g2, by simp [g3], by simpa using g4⟩
      have hR : waitWithin s.timing.boundaryInclusive (fun x => !low x) true tP tRel Config.tPrel = none ↔
          ∀ x, tP < x → x < tRel + 480 + more → low x = true := by
        rw [waitWithin_eq_none_iff]
        constructor
        · intro h x hx1 hx2
          simpa using h x hx1.le hx2
        · intro h x hx1 hx2
          rcases hx1.eq_or_lt with rfl | hlt
          · simp [g3]
          · simp [h x hlt hx2]
      obtain ⟨hpres, hnorel⟩ := hends.release_iff hH hP
      refine ⟨?_, hnorel.trans hR⟩
      rw [hpres, ne_eq, hR]
      simp

/-- Settles O15. The trace of the slot is that of `exec_reset_eq`, and with `PRES` the instants are those its waits have found. -/
theorem resetSlotWaveform : Obligations.ResetSlotWaveform := by
  intro s hs
  have hends := start_scanEnds s
  obtain ⟨hc1, hc2⟩ : s.now + 480 ≤ s.start.scan.tc ∧ s.start.scan.tc ≤ s.now + 480 + 480 := resetScan_tc _ _ _
  obtain ⟨h1, h2, h3⟩ := hends.tc_of_failed
  refine ⟨_, _, s.start.scan.tc, exec_reset_eq s, by simp [State.events], rfl, fun x hx => ?_, fun x hx => ?_,
    fun x _ hx hold => ?_, hc1, by omega, h1, h2, h3, fun ho => ?_⟩
  · exact (outputs_of_trace hs rfl hx).1.trans (resetSlot_outputs hx).1
  · exact (outputs_of_trace hs rfl hx).2.trans (resetSlot_outputs hx).2
  · rw [State.lookedAt] at hold ⊢
    rw [State.complete_looks, List.any_append, hold]
    simp
    omega
  · obtain ⟨tH, tP, hH, hP, hR⟩ := hends.waits_of_pres ho
    obtain ⟨a1, -, a3, a4⟩ := waitWithin_eq_some_iff.1 hH
    obtain ⟨b1, -, b3, b4⟩ := waitWithin_eq_some_iff.1 hP
    obtain ⟨c1, -, c3, c4⟩ := waitWithin_eq_some_iff.1 hR
    have hHP : tH < tP := b1.lt_of_ne fun h => by rw [← h, a3] at b3; cases b3
    have hPR : tP < s.start.scan.tc := c1.lt_of_ne fun h => by rw [← h, b3] at c3; cases c3
    simp only [ne_eq, Bool.not_eq_true', Bool.not_eq_false', Bool.not_eq_true, Bool.not_eq_false] at a4 b4 c3 c4
    exact ⟨tH, tP, a1, hHP, hPR, a4, b4, c4, c3⟩

/-- Settles O16. That nothing else happens is `lineOp_wrote`, and the trace of the slot is that of `slotWrite_eq`. -/
theorem writeBitSlot : Obligations.WriteBitSlot := by
  intro s bit hl hs
  obtain ⟨hop, hlooks⟩ := lineOp_wrote (slotWrite_wrote s.start bit) (List.cons_ne_nil _ _) 0#64
  have he := slotWrite_eq (s := s.start) hl bit
  have htrace : ((s.start.slotWrite bit).complete 0#64).trace = s.trace ++ _ := congrArg State.trace he
  have hlow : s.now + lowPhase s.timing bit ≤ s.now + s.timing.tWSlot := Nat.add_le_add_left (lowPhase_le_slot hl bit) _
  refine ⟨_, rfl, hop, slotWrite_env s.start bit, congrArg State.now he, hlooks, fun x hx => ?_, fun x hx => ?_⟩
  · exact (outputs_of_trace hs htrace hx).1.trans (writeSlot_outputs hlow hx).1
  · exact (outputs_of_trace hs htrace hx).2.trans (writeSlot_outputs hlow hx).2

/-- Settles O17. That nothing else happens is `lineOp_read`, and the sample and the trace of the slot are those of `slotRead_eq`. -/
theorem readBitSlot : Obligations.ReadBitSlot := by
  intro s hl hs tS b
  have he := slotRead_eq (s := s.start) hl
  have hb : s.start.slotRead.1 = b := congrArg Prod.fst he
  have hx : exec .rbit s = .next (s.start.slotRead.2.complete (if b then 1#64 else 0#64)) := by
    rw [show (if b then 1#64 else 0#64) = ofBit b by cases b <;> rfl, ← hb]
    rfl
  have hop := lineOp_read (slotRead_readIn s.start) (List.cons_ne_nil _ _) (if b then 1#64 else 0#64)
  rw [hb] at hop
  have htrace : (s.start.slotRead.2.complete (if b then 1#64 else 0#64)).trace = s.trace ++ _ :=
    congrArg (fun r => r.2.trace) he
  have hsample := sample_le_slot hl s.now
  refine ⟨_, hx, hop, slotRead_env s.start, congrArg (fun r => r.2.now) he, congrArg (fun r => r.2.looks) he,
    fun x hx => ?_, fun x hx => ?_⟩
  · exact (outputs_of_trace hs htrace hx).1.trans (readSlot_outputs hsample hx).1
  · exact (outputs_of_trace hs htrace hx).2.trans (readSlot_outputs hsample hx).2

/-- Settles O18. The outcome on each waveform is read off it by O14, and what RESET returns for it is O13. -/
theorem presencePulseAt239And241 : Obligations.PresencePulseAt239And241 := by
  intro s width hnow hpos hwidth
  obtain ⟨o, t, hx, hev, hbeat, -⟩ := resetReturnsPresence s
  obtain ⟨hfloat, hhigh⟩ := resetOutcomeIsReadOffTheLine s t o hx hev
  have hmore : (if s.timing.boundaryInclusive then 1 else 0) ≤ 1 := by split <;> decide
  rw [hnow] at hfloat hhigh
  refine ⟨fun henv => ⟨t, hx, ?_⟩, fun henv => ⟨t, hx, ?_⟩, fun henv => ⟨t, hx, ?_⟩⟩
  · simp only [Nat.zero_add, lowInReset_pulse henv (by omega)] at hhigh
    obtain ⟨-, hlow⟩ := hhigh 480 (by omega) (by omega) (by simp) (by intros; omega)
    obtain ⟨hpres, -⟩ := hlow 719 (by omega) (by omega) (by simp; omega) (by simp; omega)
    obtain rfl := hpres.2 ⟨719 + width, by omega, by omega, by simp⟩
    exact hbeat
  · simp only [Nat.zero_add, lowInReset_pulse henv (by omega)] at hhigh
    obtain ⟨hnopres, -⟩ := hhigh 480 (by omega) (by omega) (by simp) (by intros; omega)
    obtain rfl := hnopres.2 fun x _ _ => by simp; omega
    exact hbeat
  · simp only [Nat.zero_add, lowInReset_pulse henv (by omega)] at hfloat
    obtain rfl := hfloat.2 fun x _ _ => by simp; omega
    exact ⟨hbeat, hev⟩

end Sys2Proof.Machine

/-!
PROOFS of the family 40_signal_primitives, second part. The slots of acts follow each other with the gap between them, and each is the
slot of its kind (40_signal_primitives.md R135, R136).
-/

namespace Sys2Proof.Machine

/-! ### The slots of acts, one after another -/

/-- The slots of a timeline follow each other (40_signal_primitives.md R135). -/
theorem Timeline.slotsFollow {s t : State} {new : List Slot} {spanss : List (List Span)} (T : Timeline s t new spanss) :
    SlotsFollow s t s.slotStart new :=
  ⟨T.bus, T.first, T.chain, fun sl hsl => (T.last sl hsl).1, fun hn => (T.empty hn).1⟩

/-- Becoming idle adds no slot and takes no time. -/
theorem Ended.slotsFollow {s m t : State} {start : Nat} {new : List Slot} (he : Ended m t) (h : SlotsFollow s m start new) :
    SlotsFollow s t start new := by
  cases he with
  | idle => exact h
  | looping => exact h

/-! ### Each slot of acts is the slot of its kind -/

/-- The kind of a slot determines its spans. -/
theorem SlotSpans.unique {tm : Config.Timing} {env : Env} {sl : Slot} {a b : List Span} (ha : SlotSpans tm env sl a)
    (hb : SlotSpans tm env sl b) : a = b := by
  obtain ⟨ev, start, stop⟩ := sl
  cases ev with
  | w _ => exact ha.2.trans hb.2.symm
  | r _ => exact ha.2.2.trans hb.2.2.symm
  | rst _ => exact ha.2.2.trans hb.2.2.symm

/-- The kind of a slot determines its looks. -/
theorem SlotLooks.unique {tm : Config.Timing} {env : Env} {sl : Slot} {a b : List Window} (ha : SlotLooks tm env sl a)
    (hb : SlotLooks tm env sl b) : a = b := by
  obtain ⟨ev, start, stop⟩ := sl
  cases ev <;> exact Eq.trans ha (Eq.symm hb)

/-- Every slot has the looks of its kind. -/
theorem exists_slotLooks (tm : Config.Timing) (env : Env) (sl : Slot) : ∃ looks, SlotLooks tm env sl looks := by
  obtain ⟨ev, start, stop⟩ := sl
  cases ev <;> exact ⟨_, rfl⟩

/-- Inside a slot the outputs are those of its spans, and after its first instant the line is read where its looks say. -/
structure SlotShown (s t : State) (sl : Slot) (spans : List Span) (looks : List Window) : Prop where
  ofKind : SlotSpans s.timing s.env sl spans ∧ SlotLooks s.timing s.env sl looks
  drive : ∀ x, sl.start ≤ x → x < sl.stop → t.driveAt x = driveIn spans x
  crit : ∀ x, sl.start ≤ x → x < sl.stop → t.critAt x = critIn spans x
  look : ∀ x, sl.start < x → x < sl.stop → t.lookedAt x = lookIn looks x

/-- Every slot of a timeline shows its own spans and looks: those of the past and of the other slots do not count inside it. -/
theorem Timeline.slotShown {s m : State} {new : List Slot} {spanss : List (List Span)} (T : Timeline s m new spanss)
    (ha : Acts s m) (hl : s.timing.legal = true) (hh : HistoryOrdered s) {sl : Slot} (hsl : sl ∈ new) :
    ∃ spans looks, SlotShown s m sl spans looks := by
  obtain ⟨hpos, hpair, hin⟩ := T.bounds hl
  obtain ⟨lookss, hlooks, hkinds⟩ := T.looks ha hl
  have hnow : s.now ≤ sl.start := (slotStart_le s).trans (hin sl hsl).1
  obtain ⟨spans, hspans, -⟩ := spans_in_slot hl Span.driveLow T.spans hpair sl hsl sl.start (Nat.le_refl _) (hpos sl hsl)
  obtain ⟨looks, hlook⟩ := exists_slotLooks s.timing s.env sl
  refine ⟨spans, looks, ⟨hspans, hlook⟩, fun x h1 h2 => ?_, fun x h1 h2 => ?_, fun x h1 h2 => ?_⟩
  · obtain ⟨spans', hspans', hany⟩ := spans_in_slot hl Span.driveLow T.spans hpair sl hsl x h1 h2
    rw [(outputs_of_trace hh T.trace (hnow.trans h1)).1, hspans.unique hspans']
    exact hany
  · obtain ⟨spans', hspans', hany⟩ := spans_in_slot hl Span.crit T.spans hpair sl hsl x h1 h2
    rw [(outputs_of_trace hh T.trace (hnow.trans h1)).2, hspans.unique hspans']
    exact hany
  · obtain ⟨looks', hlook', hany⟩ := looks_in_slot hl T.spans hkinds hpair sl hsl x h1 h2
    rw [lookedAt_of_looks hh hlooks (hnow.trans_lt h1), hlook.unique hlook']
    exact hany

/-- A slot that shows the spans and looks of its kind is the slot of its kind (40_signal_primitives.md R136). -/
theorem SlotShown.asSpecified {s t : State} {sl : Slot} {spans : List Span} {looks : List Window} (h : SlotShown s t sl spans looks)
    (hl : s.timing.legal = true) : SlotAsSpecified s t sl := by
  obtain ⟨⟨hspans, hlooks⟩, hdrive, hcrit, hlook⟩ := h
  obtain ⟨ev, start, stop⟩ := sl
  cases ev with
  | w b =>
    obtain ⟨hstop, rfl⟩ := hspans
    obtain rfl : stop = start + s.timing.tWSlot := hstop
    obtain rfl : looks = [] := hlooks
    have hlow : start + lowPhase s.timing b ≤ start + s.timing.tWSlot := Nat.add_le_add_left (lowPhase_le_slot hl b) _
    refine ⟨rfl, fun x h1 h2 => ⟨?_, ?_, fun h3 => hlook x h3 h2⟩⟩
    · exact (hdrive x h1 h2).trans (writeSlot_outputs hlow h1).1
    · exact (hcrit x h1 h2).trans ((writeSlot_outputs hlow h1).2.trans (decide_eq_true h2))
  | r b =>
    obtain ⟨hstop, hbit, rfl⟩ := hspans
    obtain rfl : stop = start + 60 := hstop
    obtain rfl : looks = _ := hlooks
    have hsample := sample_le_slot hl start
    refine ⟨rfl, hbit, fun x h1 h2 => ⟨?_, ?_, fun h3 => ?_⟩⟩
    · exact (hdrive x h1 h2).trans (readSlot_outputs hsample h1).1
    · exact (hcrit x h1 h2).trans ((readSlot_outputs hsample h1).2.trans (decide_eq_true h2))
    · rw [hlook x h3 h2, lookIn_single, Bool.eq_iff_iff]
      simp
      omega
  | rst o =>
    obtain ⟨hstop, ho, rfl⟩ := hspans
    obtain rfl : stop = start + 960 := hstop
    obtain rfl : looks = _ := hlooks
    refine ⟨rfl, ho, fun x h1 h2 => ⟨?_, ?_, fun h3 => ?_⟩⟩
    · exact (hdrive x h1 h2).trans (resetSlot_outputs h1).1
    · exact (hcrit x h1 h2).trans (resetSlot_outputs h1).2
    · exact (hlook x h3 h2).trans lookIn_single

/-- Becoming idle touches neither the outputs nor the looks. -/
theorem Ended.slotAsSpecified {s m t : State} {sl : Slot} (he : Ended m t) (h : SlotAsSpecified s m sl) : SlotAsSpecified s t sl := by
  cases he with
  | idle => exact h
  | looping => exact h

theorem Ended.bus {m t : State} (he : Ended m t) : t.bus = m.bus := by cases he <;> rfl

/-- So each slot of acts that have come to an end is the slot of its kind. -/
theorem Acts.slotsAsSpecified {s m t : State} (ha : Acts s m) (he : Ended m t) (hl : s.timing.legal = true) (hh : HistoryOrdered s) :
    ∃ new, t.bus = s.bus ++ new ∧ ∀ sl ∈ new, SlotAsSpecified s t sl := by
  obtain ⟨new, spanss, T⟩ := ha.timeline hl
  refine ⟨new, he.bus.trans T.bus, fun sl hsl => ?_⟩
  obtain ⟨spans, looks, h⟩ := T.slotShown ha hl hh hsl
  exact he.slotAsSpecified (h.asSpecified hl)

/-! ### The obligations -/

/-- Settles O40, from the timeline of acts: an operation starts with no slot behind it, a later round with the last slot of the round
before. -/
theorem slotsFollowEachOther : Obligations.SlotsFollowEachOther := by
  constructor
  · intro i s hl
    obtain ⟨m, t, ha, he, hx⟩ := exec_acts i s
    obtain ⟨new, spanss, T⟩ := ha.timeline hl
    exact ⟨t, new, hx, he.slotsFollow T.slotsFollow⟩
  · intro s hs hround
    have ⟨hbusy, _, _⟩ := hround
    obtain ⟨m, ha, he⟩ := enumRound_acts s
    obtain ⟨new, spanss, T⟩ := ha.timeline hs.timingLegal
    obtain ⟨hop, ⟨before, hbefore, hstop⟩, -⟩ := hs.betweenRounds hbusy
    have hstart : s.slotStart = before.stop + s.timing.tGap := by rw [State.slotStart, if_pos hop, hstop]
    exact ⟨s.enumRound, new, before, step_laterRound hround, hbefore, hstart ▸ he.slotsFollow T.slotsFollow⟩

/-- Settles O41. Operations and rounds are acts and an end. -/
theorem everySlotHasItsWaveform : Obligations.EverySlotHasItsWaveform := by
  constructor
  · intro i s hl hh
    obtain ⟨m, t, ha, he, hx⟩ := exec_acts i s
    obtain ⟨new, hbus, hslots⟩ := ha.slotsAsSpecified he hl hh
    exact ⟨t, new, hx, hbus, hslots⟩
  · intro s hs hround
    obtain ⟨m, ha, he⟩ := enumRound_acts s
    obtain ⟨new, hbus, hslots⟩ := ha.slotsAsSpecified he hs.timingLegal hs.historyOrdered
    exact ⟨s.enumRound, new, step_laterRound hround, hbus, hslots⟩

end Sys2Proof.Machine

/-!
PROOFS of the family 41_framing. What the loopback queue takes in, it gives back in the same order (20_memory.md R68), so that
what is written is what is read (41_framing.md R146).
-/

namespace Sys2Proof.Machine

open SlotLevel (bitsOf)

/-! ### The queue of the loopback -/

/-- Write slots append their bits to the queue (20_memory.md R68). -/
theorem Env.foldl_afterWrite_loop : ∀ bits queue : List Bool,
    bits.foldl (fun e b => e.afterWrite b) (Env.loop queue) = .loop (queue ++ bits)
  | [], queue => by rw [List.append_nil, List.foldl_nil]
  | b :: bits, queue => by
    rw [List.foldl_cons, Env.afterWrite, Env.foldl_afterWrite_loop bits, List.append_assoc, List.singleton_append]

/-- As many read slots as there are bits in the queue sample those bits and empty it (20_memory.md R68). -/
theorem Env.answers_loop : ∀ queue : List Bool,
    (Env.loop queue).answers queue.length = queue ∧ Env.afterRead^[queue.length] (.loop queue) = .loop []
  | [] => ⟨rfl, rfl⟩
  | b :: queue => by
    obtain ⟨hbits, hempty⟩ := Env.answers_loop queue
    rw [List.length_cons, Env.answers_succ]
    exact ⟨congrArg (b :: ·) hbits, hempty⟩

/-- Bits sent to an empty loopback are heard again by as many read slots, which leave it empty. -/
theorem Sent.heard_loop {sent heard : List Bool} {s t u : State} (f : Sent sent s t) (g : Heard heard t u)
    (hs : s.env = .loop []) (hlen : heard.length = sent.length) : heard = sent ∧ u.env = .loop [] := by
  have hqueue : t.env = .loop sent := by rw [f.env, hs, Env.foldl_afterWrite_loop, List.nil_append]
  obtain ⟨hbits, hempty⟩ := Env.answers_loop sent
  constructor
  · rw [g.answers, hqueue, hlen, hbits]
  · rw [g.env, hqueue, hlen, hempty]

/-! ### An operation of write slots, then one of read slots -/

/-- Against an empty loopback, an operation of read slots after an operation of as many write slots samples the bits written; the
first gives 0, the second its result, and the queue is empty again. -/
theorem execAll_write_read_loop (i j : Instr) {sent heard : List Bool} {s q r : State} {v : Word} (hs : s.env = .loop [])
    (hi : exec i s = .next (q.complete 0#64)) (hw : Wrote sent s.start q)
    (hj : exec j (q.complete 0#64) = .next (r.complete v)) (hr : ReadIn heard (q.complete 0#64).start r)
    (hlen : heard.length = sent.length) :
    heard = sent ∧ ∃ t, execAll [i, j] s = some t ∧ t.rsp.map Beat.data = s.rsp.map Beat.data ++ [0#64, v] ∧
      t.env = .loop [] := by
  have hlevel : (q.complete 0#64).env.slotLevel = true := by rw [exec_slotLevel hi, hs, Env.slotLevel]
  obtain ⟨hbits, hempty⟩ := (hw.sent 0#64).heard_loop (hr.heard hlevel v) hs hlen
  refine ⟨hbits, r.complete v, ?_, ?_, hempty⟩
  · simp only [execAll, hi, hj, nextState]
  · have hwrite : q.rsp = s.rsp := hw.frame.rsp
    have hread : r.rsp = (q.complete 0#64).rsp := hr.frame.rsp
    rw [State.complete_rsp, hread, State.complete_rsp, hwrite, List.map_append, List.map_append, List.append_assoc]
    rfl

/-- The result of RBIT as the statement writes it (30_encoding.md R92). -/
theorem ofBit_eq_ite (b : Bool) : ofBit b = if b then 1#64 else 0#64 := by cases b <;> rfl

/-! ### The obligation -/

/-- Settles O24. The read samples the bits written, `execAll_write_read_loop`, and a word or a byte is determined by its bits. -/
theorem loopbackRoundTrip : Obligations.LoopbackRoundTrip := by
  intro s hs
  refine ⟨fun v => ?_, fun v => ?_, fun b => ?_⟩
  · obtain ⟨hbits, hrun⟩ := execAll_write_read_loop (.wword v) .rword hs rfl (writeWord_wrote v s.start) rfl
      (readWord_readIn_bitsOf _) ((bitsOf_length _).trans (bitsOf_length v).symm)
    rwa [bitsOf_injective hbits] at hrun
  · obtain ⟨hbits, hrun⟩ := execAll_write_read_loop (.wbyte v) .rbyte hs rfl (writeByte_wrote v s.start) rfl
      (readByte_readIn_bitsOf _) ((bitsOf_length _).trans (bitsOf_length v).symm)
    rwa [bitsOf_injective hbits] at hrun
  · obtain ⟨hbits, hrun⟩ := execAll_write_read_loop (.wbit b) .rbit hs rfl (slotWrite_wrote s.start b) rfl
      (slotRead_readIn _) rfl
    rwa [List.singleton_inj.1 hbits, ofBit_eq_ite] at hrun

end Sys2Proof.Machine

/-!
PROOFS of the family 42_device_protocol. What SELECT and SKIP put on the line (42_device_protocol.md R160, R161, R163), and what a
device makes of a ROM command byte and of the address after Match-ROM (20_memory.md R65, R66).
-/

namespace Sys2Proof.Machine

open SlotLevel (bitsOf)

/-! ### The bits of SELECT -/

/-- SELECT is the Match-ROM byte and the address in one stretch of write slots (42_device_protocol.md R160). -/
theorem select_wrote (a : Word) (s : State) :
    Wrote (bitsOf Config.romMatch ++ bitsOf a) s ((s.writeByte Config.romMatch).writeWord a) :=
  (writeByte_wrote Config.romMatch s).trans (writeWord_wrote a _)

/-! ### A device and a stretch of write slots -/

/-- A device after write slots that carried these bits. -/
def Device.afterBits (bits : List Bool) (d : Device) : Device := bits.foldl (fun d b => d.afterWrite b) d

theorem Device.afterBits_cons (b : Bool) (bits : List Bool) (d : Device) :
    d.afterBits (b :: bits) = (d.afterWrite b).afterBits bits := rfl

theorem Device.afterBits_append (as bs : List Bool) (d : Device) :
    d.afterBits (as ++ bs) = (d.afterBits as).afterBits bs := List.foldl_append

/-- Every device of `Dev(S)` hears the same bits. -/
theorem Env.foldl_afterWrite_dev : ∀ (bits : List Bool) (ds : List Device),
    bits.foldl (fun e b => e.afterWrite b) (Env.dev ds) = .dev (ds.map (Device.afterBits bits))
  | [], ds => congrArg Env.dev (List.map_id ds).symm
  | b :: bits, ds => by
    rw [List.foldl_cons, Env.afterWrite, Env.foldl_afterWrite_dev bits, List.map_map]
    rfl

/-- An idle device ignores what is written until the next reset slot. -/
theorem Device.afterBits_idle (rom : Word) : ∀ bits : List Bool, Device.afterBits bits ⟨rom, .idle⟩ = ⟨rom, .idle⟩
  | [] => rfl
  | _ :: bits => Device.afterBits_idle rom bits

/-! ### A ROM command byte -/

/-- Taking bit `n` of a byte of which the first `n` bits have been taken. -/
theorem lowBits_or_bit (v : Byte) (n : Nat) :
    (v.setWidth n).setWidth 8 ||| ((BitVec.ofBool (v.getLsbD n)).setWidth 8 <<< n) = (v.setWidth (n + 1)).setWidth 8 := by
  apply BitVec.eq_of_getLsbD_eq
  intro i hi
  rcases Nat.lt_trichotomy i n with h | rfl | h
  · simp [hi, h, Nat.lt_succ_of_lt h]
  · simp [hi]
  · have hbit : i - n ≠ 0 := by omega
    have hnew : ¬ i < n + 1 := by omega
    simp [hi, BitVec.getLsbD_ofBool, hbit, hnew, Nat.not_lt.2 h.le]

/-- After `n` bits of a command byte a device holds the low `n` bits of it (20_memory.md R66). -/
theorem Device.afterBits_cmd_range (rom : Word) (v : Byte) : ∀ n < 8,
    Device.afterBits ((List.range n).map v.getLsbD) ⟨rom, .cmd 0 0#8⟩ = ⟨rom, .cmd n ((v.setWidth n).setWidth 8)⟩
  | 0, _ => by rw [BitVec.of_length_zero (x := v.setWidth 0)]; rfl
  | n + 1, hn => by
    rw [List.range_succ, List.map_append, Device.afterBits_append, Device.afterBits_cmd_range rom v n (by omega),
      ← lowBits_or_bit]
    have h : n < 7 := by omega
    simp [Device.afterBits, Device.afterWrite, h]

/-- After a reset slot a command byte puts a device in the mode of that command (20_memory.md R65, R66). -/
theorem Device.afterBits_commandByte (d : Device) (v : Byte) :
    d.afterReset.afterBits (bitsOf v) = ⟨d.rom, romCommandMode v⟩ := by
  have hbits : bitsOf v = (List.range 7).map v.getLsbD ++ [v.getLsbD 7] := by
    rw [bitsOf, List.range_succ, List.map_append, List.map_singleton]
  have hlast := lowBits_or_bit v 7
  rw [BitVec.setWidth_eq, BitVec.setWidth_eq] at hlast
  rw [hbits, Device.afterBits_append, Device.afterReset, Device.afterBits_cmd_range d.rom v 7 (by decide)]
  simp only [Device.afterBits, List.foldl_cons, List.foldl_nil, Device.afterWrite, lt_irrefl, if_false, hlast]

/-! ### The address after Match-ROM -/

/-- The bits of a value from bit `i` on begin with bit `i`. -/
theorem bitsOf_drop {n : Nat} (v : BitVec n) {i : Nat} (hi : i < n) :
    (bitsOf v).drop i = v.getLsbD i :: (bitsOf v).drop (i + 1) := by
  rw [List.drop_eq_getElem_cons (by rwa [bitsOf_length])]
  simp [bitsOf]

/-- From bit `i` of a comparison on, a device is selected by the rest of its own code and by nothing else (20_memory.md R66). -/
theorem Device.afterBits_matching (rom : Word) : ∀ (bits : List Bool) (i : Nat), i < 64 → i + bits.length = 64 →
    Device.afterBits bits ⟨rom, .matching i⟩ = ⟨rom, if bits = (bitsOf rom).drop i then .sel else .idle⟩
  | [], _, hi, hlen => absurd hlen hi.ne
  | b :: bits, i, hi, hlen => by
    rw [List.length_cons] at hlen
    simp only [Device.afterBits_cons, bitsOf_drop rom hi, List.cons.injEq, Device.afterWrite]
    by_cases hb : b = rom.getLsbD i
    · by_cases hlast : i < 63
      · simp only [hb, if_pos hlast, true_and, if_true]
        exact Device.afterBits_matching rom bits (i + 1) (by omega) (by omega)
      · obtain rfl : bits = [] := List.length_eq_zero_iff.1 (by omega)
        have hend : (bitsOf rom).drop (i + 1) = [] := List.drop_eq_nil_of_le (by rw [bitsOf_length]; omega)
        simp [hb, hlast, hend, Device.afterBits]
    · simp only [hb, false_and, if_false]
      exact Device.afterBits_idle rom bits

/-- Match-ROM and an address select the device with that code (42_device_protocol.md R160; 20_memory.md R66). -/
theorem Device.afterBits_select (d : Device) (a : Word) :
    d.afterReset.afterBits (bitsOf Config.romMatch ++ bitsOf a) = ⟨d.rom, if d.rom = a then .sel else .idle⟩ := by
  have hcode : bitsOf a = bitsOf d.rom ↔ d.rom = a := ⟨fun h => (bitsOf_injective h).symm, fun h => h ▸ rfl⟩
  have hmode : romCommandMode Config.romMatch = .matching 0 := rfl
  rw [Device.afterBits_append, Device.afterBits_commandByte, hmode,
    Device.afterBits_matching d.rom (bitsOf a) 0 (by decide) (by rw [bitsOf_length])]
  simp only [List.drop_zero, hcode]

/-! ### RESET and an addressing operation -/

/-- RESET and then an operation that sends bits, against `Dev(S)`: each device hears a reset slot and the bits. -/
theorem execAll_reset_sent {s : State} {ds : List Device} {i : Instr} {bits : List Bool} (hs : s.env = .dev ds)
    (hi : ∀ q, ∃ t, exec i q = .next t ∧ Sent bits q t) :
    ∃ t, execAll [.reset, i] s = some t ∧ t.env = .dev (ds.map fun d => d.afterReset.afterBits bits) := by
  have hreset : exec .reset s = .next (s.start.resetPulse.2.complete (ofBit s.start.resetPulse.1)) := rfl
  have henv : (s.start.resetPulse.2.complete (ofBit s.start.resetPulse.1)).env = .dev (ds.map Device.afterReset) :=
    (resetPulse_env s.start).trans (congrArg Env.afterReset hs)
  obtain ⟨t, ht, hsent⟩ := hi (s.start.resetPulse.2.complete (ofBit s.start.resetPulse.1))
  refine ⟨t, ?_, ?_⟩
  · simp only [execAll, hreset, ht, nextState]
  · rw [hsent.env, henv, Env.foldl_afterWrite_dev, List.map_map]
    rfl

/-! ### The obligations -/

/-- Settles O21. Each is a stretch of write slots, so `lineOp_wrote` says what it does and what it leaves alone. -/
theorem selectAndSkipSendTheirBytes : Obligations.SelectAndSkipSendTheirBytes := by
  constructor
  · intro s a
    obtain ⟨hop, hlooks⟩ := lineOp_wrote (select_wrote a s.start)
      (List.append_ne_nil_of_left_ne_nil (bitsOf_ne_nil Config.romMatch) _) 0#64
    exact ⟨_, rfl, hlooks, hop⟩
  · intro s
    obtain ⟨hop, hlooks⟩ := lineOp_wrote (writeByte_wrote Config.romSkip s.start) (bitsOf_ne_nil _) 0#64
    exact ⟨_, rfl, hlooks, hop⟩

/-- Settles O25. What one device makes of the bits is `Device.afterBits_select` and `Device.afterBits_commandByte`. -/
theorem addressingReachesTheDevices : Obligations.AddressingReachesTheDevices := by
  intro s ds hs
  constructor
  · intro a
    obtain ⟨t, ht, henv⟩ := execAll_reset_sent hs (i := .select a)
      fun q => ⟨_, rfl, (select_wrote a q.start).sent 0#64⟩
    simp only [Device.afterBits_select] at henv
    exact ⟨t, ht, henv⟩
  · obtain ⟨t, ht, henv⟩ := execAll_reset_sent hs (i := .skip)
      fun q => ⟨_, rfl, (writeByte_wrote Config.romSkip q.start).sent 0#64⟩
    simp only [Device.afterBits_commandByte] at henv
    exact ⟨t, ht, henv⟩

end Sys2Proof.Machine

/-!
PROOFS of the family 43_search, first part. How a pass ends (43_search.md R172 to R189) and how a round of ENUM's loop does (R190,
R191): results, search state and bus events, for every environment.
-/

namespace Sys2Proof.Machine

open SlotLevel (bitsOf)

/-! ### What a pass keeps -/

/-- The command byte and the loop keep everything a pass leaves alone. -/
theorem passLoop_frame (s : State) : PassFrame s s.passLoop.2 := by
  have w := passStart_wrote s
  have f := w.frame
  obtain ⟨_, L⟩ := passLoop_looped s
  exact PassFrame.trans ⟨f.ld, f.ldf, f.busy, f.timing, f.rstEdges, f.offers, f.rsp, w.diags, f.draws⟩ L.frame

/-- What comes after the reset slot of a pass reports nothing (43_search.md R174). -/
theorem searchOne_diags {s : State} (h : s.ldf = false) : s.searchOne.2.diags = s.resetPulse.2.diags := by
  have hloop := (passLoop_frame s.resetPulse.2).diags
  have he := searchOne_ends s
  generalize s.searchOne = r at he
  cases he with
  | done h1 => exact absurd (h.symm.trans h1) Bool.false_ne_true
  | noDevice => rfl
  | aborted => exact hloop
  | invalid => exact hloop
  | found => exact hloop

/-- A pass leaves `busy` as it is. -/
theorem searchOne_busy (s : State) : s.searchOne.2.busy = s.busy := by
  have hreset := (resetPulse_frame s).busy
  have hloop := (passLoop_frame s.resetPulse.2).busy.trans hreset
  have he := searchOne_ends s
  generalize s.searchOne = r at he
  cases he with
  | done => rfl
  | noDevice => exact hreset
  | aborted => exact hloop
  | invalid => exact hloop
  | found => exact hloop

/-! ### The result of a pass -/

theorem ne_zero_of_lowByte {a : Word} (h : lowByte a ≠ 0#8) : a ≠ 0#64 := by
  rintro rfl
  exact h rfl

/-- The three results of a pass: an address, 0 with the flag set, 0 with the search state cleared (43_search.md R172). -/
theorem searchOne_result (s : State) :
    (lowByte s.searchOne.1 ≠ 0#8 ∧ s.ldf = false ∧ s.searchOne.2.addr = s.searchOne.1 ∧
      s.searchOne.2.ldf = (s.searchOne.2.ld == 0#7)) ∨
    (s.ldf = true ∧ s.searchOne = (0#64, s)) ∨
    (s.searchOne.1 = 0#64 ∧ s.ldf = false ∧ SearchStateEmpty s.searchOne.2) := by
  have he := searchOne_ends s
  generalize s.searchOne = r at he
  cases he with
  | done h1 => exact .inr (.inl ⟨h1, rfl⟩)
  | noDevice h1 => exact .inr (.inr ⟨rfl, h1, rfl, rfl, rfl⟩)
  | aborted h1 => exact .inr (.inr ⟨rfl, h1, rfl, rfl, rfl⟩)
  | invalid h1 => exact .inr (.inr ⟨rfl, h1, rfl, rfl, rfl⟩)
  | found h1 _ _ h4 =>
    have hldf : s.resetPulse.2.passLoop.2.ldf = false := by rw [(passLoop_ldf _).1, (resetPulse_frame s).ldf, h1]
    refine .inl ⟨h4, h1, rfl, ?_⟩
    simp only [State.commitPass_ldf, State.commitPass_ld, hldf, Bool.false_or]

/-! ### The bus events of a pass -/

/-- A pass that found a device has the events of its loop (43_search.md R175). -/
theorem searchOne_events_of_loop {s : State} (hf : s.ldf = false) (hp : s.resetPulse.1 = true) :
    s.searchOne.2.events = s.resetPulse.2.passLoop.2.events := by
  have he := searchOne_ends s
  generalize s.searchOne = r at he
  cases he with
  | done h => exact absurd (hf.symm.trans h) Bool.false_ne_true
  | noDevice _ h => exact absurd (h.symm.trans hp) Bool.false_ne_true
  | aborted => rfl
  | invalid => rfl
  | found => rfl

/-- After the reset slot: the command byte, and then 192 events, or `3(q-1)` and the pair `(1, 1)` where the loop is left at position
`q` (43_search.md R178, R189). -/
theorem passLoop_events (s : State) : ∃ more, s.passLoop.2.events = s.events ++ (bitsOf Config.romSearch).map .w ++ more ∧
    (s.passLoop.1 = true → more.length = 192) ∧
    (s.passLoop.1 = false → ∃ q front, 1 ≤ q ∧ q ≤ 64 ∧ more = front ++ [.r true, .r true] ∧ front.length = 3 * (q - 1)) := by
  have hstart := (passStart_wrote s).events
  obtain ⟨taken, L⟩ := passLoop_looped s
  have hcount := L.count
  have hevents := L.eventCount
  cases hend : s.passLoop.1 with
  | true =>
    obtain ⟨more, hmore⟩ := (Acts.refl s.passStart).searchLoop 64 |>.grown.events
    have hmore : s.passLoop.2.events = s.passStart.events ++ more := hmore.symm
    rw [hend, if_pos rfl] at hcount hevents
    rw [hmore, List.length_append] at hevents
    exact ⟨more, hstart ▸ hmore, fun _ => by omega, nofun⟩
  | false =>
    obtain ⟨front, hfront⟩ := abort_tail 64 s.passStart rfl (Nat.le_refl 1) hend
    have hfront : s.passLoop.2.events = s.passStart.events ++ front ++ [.r true, .r true] := hfront
    rw [hend, if_neg Bool.false_ne_true] at hcount hevents
    simp only [hfront, List.length_append, List.length_cons, List.length_nil] at hevents
    refine ⟨front ++ [.r true, .r true], by rw [hfront, hstart]; simp only [List.append_assoc], nofun, fun _ => ?_⟩
    exact ⟨taken + 1, front, by omega, by omega, rfl, by omega⟩

/-- A pass whose loop is left early fails (43_search.md R178, R186). -/
theorem searchOne_aborted {s : State} (hf : s.ldf = false) (hp : s.resetPulse.1 = true)
    (hend : s.resetPulse.2.passLoop.1 = false) : s.searchOne = s.resetPulse.2.passLoop.2.failPass := by
  simp only [State.passLoop, State.passStart] at hend
  simp only [State.searchOne, hf, hp, State.traverse, hend]
  rfl

/-- A pass that found no device fails at once (43_search.md R174). -/
theorem searchOne_absent {s : State} (hf : s.ldf = false) (hp : s.resetPulse.1 = false) :
    s.searchOne = s.resetPulse.2.failPass := by
  simp only [State.searchOne, hf, hp]

/-- SEARCH gives the result of its pass in one beat. -/
theorem search_oneBeat (s : State) : OneBeat s (s.start.searchOne.2.complete s.start.searchOne.1) s.start.searchOne.1 :=
  ⟨s.start.searchOne.2.now, congrArg (· ++ [_]) (searchOne_rsp s.start)⟩

/-! ### A round of ENUM's loop -/

theorem enumRound_of_zero {s : State} (h : s.searchOne.1 = 0#64) : s.enumRound = s.searchOne.2.complete 0#64 := by
  simp only [State.enumRound, h, if_true]

theorem enumRound_of_ne_zero {s : State} (h : s.searchOne.1 ≠ 0#64) :
    s.enumRound = s.searchOne.2.respond s.searchOne.1 false := by
  simp only [State.enumRound, h, if_false]

/-- A round of a busy block gives the beat of an address and stays busy, or gives the closing beat and ends (43_search.md R190). -/
theorem enumRound_result {s : State} (hb : s.busy = true) :
    (∃ a, a ≠ 0#64 ∧ lowByte a ≠ 0#8 ∧ s.enumRound.rsp = s.rsp ++ [⟨s.enumRound.now, a, false⟩] ∧ s.enumRound.addr = a ∧
      s.enumRound.busy = true) ∨
    (s.enumRound.rsp = s.rsp ++ [⟨s.enumRound.now, 0#64, true⟩] ∧ s.enumRound.busy = false ∧
      (SearchStateKept s s.enumRound ∨ SearchStateEmpty s.enumRound)) := by
  have hrsp := searchOne_rsp s
  have hbusy := (searchOne_busy s).trans hb
  have closing (h0 : s.searchOne.1 = 0#64) (hstate : SearchStateKept s s.searchOne.2 ∨ SearchStateEmpty s.searchOne.2) :
      s.enumRound.rsp = s.rsp ++ [⟨s.enumRound.now, 0#64, true⟩] ∧ s.enumRound.busy = false ∧
        (SearchStateKept s s.enumRound ∨ SearchStateEmpty s.enumRound) := by
    rw [enumRound_of_zero h0, ← hrsp]
    exact ⟨rfl, rfl, hstate⟩
  obtain ⟨hlow, -, haddr, -⟩ | ⟨-, hdone⟩ | ⟨h0, -, hempty⟩ := searchOne_result s
  · have hne := ne_zero_of_lowByte hlow
    rw [enumRound_of_ne_zero hne, ← hrsp]
    exact .inl ⟨s.searchOne.1, hne, hlow, rfl, haddr, hbusy⟩
  · exact .inr (closing (by rw [hdone]) (.inl (by rw [hdone]; exact ⟨rfl, rfl, rfl⟩)))
  · exact .inr (closing h0 (.inr hempty))

/-! ### Rounds one after another -/

/-- The `rst` input is 0 now and from now on. -/
def RstStaysLow (s : State) : Prop := s.rst = false ∧ NoResetAhead s

theorem RstStaysLow.later {s t : State} (h : RstStaysLow s) (hedges : t.rstEdges = s.rstEdges) (hnow : s.now ≤ t.now) :
    RstStaysLow t := by
  obtain ⟨hrst, hahead⟩ := h
  refine ⟨?_, fun e he => (hahead e (hedges ▸ he)).trans hnow⟩
  rw [State.rst, hedges, ← levelAt_same hnow fun e he hx => absurd (hahead e he) (by omega)]
  exact hrst

theorem RstStaysLow.enumRound {s : State} (h : RstStaysLow s) : RstStaysLow s.enumRound :=
  h.later (enumRound_kept s).2.1 (enumRound_grown s).now

theorem RstStaysLow.laterRound {s : State} (h : RstStaysLow s) (hb : s.busy = true) : LaterRound s := ⟨hb, h.1, h.2⟩

/-- The first step of a busy block is a round. -/
theorem stepAll_succ_of_busy {s : State} (h : RstStaysLow s) (hb : s.busy = true) (n : Nat) :
    stepAll (n + 1) s = stepAll n s.enumRound := by
  rw [stepAll, step_laterRound (h.laterRound hb)]
  rfl

/-! ### The obligations -/

theorem eq_of_writesSearchState {i : Instr} (h : writesSearchState i = true) : i = .srst ∨ i = .search ∨ i = .enum := by
  cases i with
  | srst => exact .inl rfl
  | search => exact .inr (.inl rfl)
  | enum => exact .inr (.inr rfl)
  | _ => cases h

/-- Settles O28. SRST is a register transfer between a start and a last beat. -/
theorem srstClearsTheSearchState : Obligations.SrstClearsTheSearchState := fun _ =>
  ⟨_, _, rfl, ⟨rfl, rfl, rfl⟩, rfl, rfl, rfl, rfl, rfl, rfl, ⟨_, rfl⟩, ⟨rfl, rfl, rfl⟩, rfl, rfl, rfl, rfl, rfl, rfl, rfl⟩

/-- Settles O29. With the flag set the pass is over at once, and the other operations keep the search state. -/
theorem searchAfterTheLastDevice : Obligations.SearchAfterTheLastDevice := by
  intro s hldf
  have hpass : s.start.searchOne = (0#64, s.start) := searchOne_of_ldf hldf
  have hsearch : exec .search s = .next (s.start.complete 0#64) := by
    rw [exec, execSearch]
    simp only [hpass]
  refine ⟨⟨_, hsearch, ⟨rfl, rfl, rfl⟩, rfl, rfl, rfl, rfl, rfl, rfl, rfl, ⟨rfl, rfl, rfl⟩, rfl⟩, fun i hsrst henum => ?_⟩
  cases hi : writesSearchState i with
  | false =>
    obtain ⟨t, ht, -⟩ := exec_kept i s
    obtain ⟨-, hkept, -⟩ := exec_searchStateKept hi ht
    exact ⟨t, ht, hkept.trans hldf⟩
  | true =>
    obtain rfl | rfl | rfl := eq_of_writesSearchState hi
    · exact absurd rfl hsrst
    · exact ⟨_, hsearch, hldf⟩
    · exact absurd rfl henum

/-- Settles O30. Without presence the pass is its reset slot; with presence the command byte and the loop follow. -/
theorem searchNeedsPresence : Obligations.SearchNeedsPresence := by
  intro s hldf
  obtain ⟨o, hreset, hpresence, hdiags⟩ := resetPulse_events s.start
  have hcodes : s.start.searchOne.2.diags.map Diag.code = s.diags.map Diag.code ++ diagnostics o := by
    rw [searchOne_diags (s := s.start) hldf]
    exact hdiags
  cases ho : presence o with
  | false =>
    have hpass := searchOne_absent (s := s.start) hldf (hpresence.trans ho)
    have hbeat := search_oneBeat s
    rw [hpass] at hbeat hcodes
    refine ⟨_, o, [], rfl, ?_, ?_, fun _ => ⟨rfl, ?_, ?_⟩, fun h => absurd (ho.symm.trans h) Bool.false_ne_true⟩ <;> rw [hpass]
    · exact hreset
    · exact hcodes
    · exact ⟨rfl, rfl, rfl⟩
    · exact hbeat
  | true =>
    obtain ⟨more, hmore, hwhole, hleft⟩ := passLoop_events s.start.resetPulse.2
    have hne : more ≠ [] := by
      rintro rfl
      cases hend : s.start.resetPulse.2.passLoop.1 with
      | true => exact absurd (hwhole hend) (by decide)
      | false =>
        obtain ⟨_, front, -, -, hpair, -⟩ := hleft hend
        exact List.append_ne_nil_of_right_ne_nil front (List.cons_ne_nil _ _) hpair.symm
    have hevents := (searchOne_events_of_loop (s := s.start) hldf (hpresence.trans ho)).trans hmore
    rw [hreset, List.append_assoc, List.append_assoc] at hevents
    exact ⟨_, o, _, rfl, hevents, hcodes, fun h => absurd (h.symm.trans ho) Bool.false_ne_true, fun _ => ⟨more, rfl, hne⟩⟩

/-- Settles O31, by `searchOne_result`; a pass with the flag clear has at least its reset slot. -/
theorem searchResult : Obligations.SearchResult := by
  intro s
  obtain ⟨t, ht, hkept⟩ := exec_kept .search s
  obtain rfl := Host.Outcome.next.inj ht
  refine ⟨_, s.start.searchOne.1, rfl, search_oneBeat s, hkept, rfl, ?_⟩
  obtain ⟨hlow, hldf, haddr, hflag⟩ | ⟨hldf, hdone⟩ | ⟨h0, hldf, hempty⟩ := searchOne_result s.start
  · exact .inl ⟨ne_zero_of_lowByte hlow, hlow, hldf, haddr, hflag⟩
  · rw [hdone]
    exact .inr (.inl ⟨rfl, hldf, ⟨rfl, rfl, rfl⟩, rfl⟩)
  · have hslots := searchOne_bus_length_lt hldf
    rw [← events_length, ← events_length] at hslots
    exact .inr (.inr ⟨h0, hldf, hempty, hslots⟩)

/-- Settles O32. The reset slot, the eight slots of the command byte, and the loop's events by `passLoop_events`. -/
theorem searchBusEvents : Obligations.SearchBusEvents := by
  intro s
  cases hldf : s.ldf with
  | true =>
    have hpass : s.start.searchOne = (0#64, s.start) := searchOne_of_ldf hldf
    refine ⟨_, [], rfl, ?_, fun _ => rfl, fun h => absurd h.symm Bool.false_ne_true⟩
    rw [hpass]
    exact (List.append_nil _).symm
  | false =>
    obtain ⟨o, hreset, hpresence, -⟩ := resetPulse_events s.start
    cases ho : presence o with
    | false =>
      have hevents := (searchOne_events_of_absent (s := s.start) hldf (hpresence.trans ho)).trans hreset
      exact ⟨_, [.rst o], rfl, hevents, nofun, fun _ => .inl ⟨o, ho, rfl⟩⟩
    | true =>
      have hp := hpresence.trans ho
      obtain ⟨more, hmore, hwhole, hleft⟩ := passLoop_events s.start.resetPulse.2
      have hevents := (searchOne_events_of_loop (s := s.start) hldf hp).trans hmore
      rw [hreset, List.append_assoc, List.append_assoc] at hevents
      refine ⟨_, _, rfl, hevents, nofun, fun _ => .inr ?_⟩
      cases hend : s.start.resetPulse.2.passLoop.1 with
      | true =>
        right
        simp only [List.length_append, List.length_map, bitsOf_length, hwhole hend]
        rfl
      | false =>
        obtain ⟨q, front, h1, h64, rfl, hlen⟩ := hleft hend
        refine .inl ⟨q, [.rst o] ++ ((bitsOf Config.romSearch).map .w ++ front), h1, h64, by simp only [List.append_assoc], ?_, ?_⟩
        · simp only [List.length_append, List.length_map, bitsOf_length, hlen, List.length_cons, List.length_nil]
          omega
        · rw [searchOne_aborted (s := s.start) hldf hp hend]
          exact ⟨rfl, rfl, rfl⟩

/-- Settles O33. `exec` of ENUM is a round of a busy block with an empty search state, so a search state that is kept is empty. -/
theorem enumGoesRoundByRound : Obligations.EnumGoesRoundByRound := by
  refine ⟨fun s => ⟨_, rfl, enumRound_kept s.start.resetSearchState, ?_⟩, fun _ _ _ _ => rfl, fun s hround => ?_⟩
  · obtain h | ⟨hrsp, hbusy, ⟨hld, hldf, haddr⟩ | hempty⟩ := enumRound_result (s := s.start.resetSearchState) rfl
    · exact .inl h
    · exact .inr ⟨hrsp, hbusy, hld, hldf, haddr⟩
    · exact .inr ⟨hrsp, hbusy, hempty⟩
  · have ⟨hbusy, _, _⟩ := hround
    exact ⟨_, step_laterRound hround, enumRound_kept s, enumRound_result hbusy⟩

end Sys2Proof.Machine

/-!
PROOFS of the family 43_search, second part. ENUM need not end (43_search.md R196): against a script of three bits each pass finds an
address, and the search state and the script come back after three passes.
-/

namespace Sys2Proof.SlotLevel

open Sys2Proof.Machine

/-! ### A pass does not read the histories -/

/-- A view with the histories of `h` before its own. -/
def View.after (h v : View) : View :=
  { v with events := h.events ++ v.events, diags := h.diags ++ v.diags, rsp := h.rsp ++ v.rsp }

/-- A view without its histories: what a pass depends on. -/
def View.bare (v : View) : View := { v with events := [], diags := [], rsp := [] }

theorem View.after_bare (v : View) : v.after v.bare = v := by simp only [View.after, View.bare, List.append_nil]

theorem View.write_after (h v : View) (b : Bool) : (h.after v).write b = h.after (v.write b) := by
  simp only [View.write, View.after, List.append_assoc]

theorem View.writeBits_after (h v : View) (bits : List Bool) : (h.after v).writeBits bits = h.after (v.writeBits bits) :=
  List.foldl_hom h.after fun v b => h.write_after v b

theorem View.read_after (h v : View) : (h.after v).read = (v.read.1, h.after v.read.2) := by
  simp only [View.read, View.after, List.append_assoc]

theorem View.resetPulse_after (h v : View) : (h.after v).resetPulse = (v.resetPulse.1, h.after v.resetPulse.2) := by
  simp only [View.resetPulse, View.resetSlot, View.after, View.diag]
  cases v.env.resetAnswer <;> simp only [List.append_assoc]

theorem View.positions_after (h : View) : ∀ (n p lastZero : Nat) (v : View),
    View.positions n p lastZero (h.after v) =
      ((View.positions n p lastZero v).1, h.after (View.positions n p lastZero v).2)
  | 0, _, _, _ => rfl
  | n + 1, p, lastZero, v => by
    simp only [View.positions, View.read_after]
    have hbranch : branch (h.after v).ld (h.after v).addr = branch v.ld v.addr := rfl
    rw [hbranch]
    cases branch v.ld v.addr p v.read.1 v.read.2.read.1 with
    | none => rfl
    | some d =>
      simp only
      rw [← View.positions_after h n, ← View.write_after]
      rfl

theorem View.searchOne_after (h v : View) : (h.after v).searchOne = (v.searchOne.1, h.after v.searchOne.2) := by
  simp only [View.searchOne, View.resetPulse_after, View.writeBits_after, View.positions_after]
  have hldf : (h.after v).ldf = v.ldf := rfl
  rw [hldf]
  cases v.ldf with
  | true => rfl
  | false =>
    cases v.resetPulse.1 with
    | false => rfl
    | true =>
      generalize View.positions 64 1 0 (v.resetPulse.2.writeBits (bitsOf Config.romSearch)) = r
      obtain ⟨_ | lastZero, w⟩ := r
      · rfl
      · have haddr : (h.after w).addr = w.addr := rfl
        by_cases hlow : BitVec.extractLsb' 0 8 w.addr = 0#8 <;> simp only [haddr, hlow, if_true, if_false] <;> rfl

/-- What a pass returns and the search state and the environment it leaves depend on those before it alone. -/
theorem View.searchOne_bare (v : View) :
    v.searchOne.1 = v.bare.searchOne.1 ∧ v.searchOne.2.bare = v.bare.searchOne.2.bare := by
  have h := v.searchOne_after v.bare
  rw [v.after_bare] at h
  rw [h]
  exact ⟨rfl, rfl⟩

end Sys2Proof.SlotLevel

namespace Sys2Proof.Machine

open SlotLevel (View)

/-! ### Three passes that come back -/

/-- Search states and scripts at the start of a pass: the empty one of ENUM, and three that follow each other in turn. -/
def turn : Fin 4 → View
  | 0 => ⟨0, false, 0#64, .script [.pres] [false, false, true], [], [], []⟩
  | 1 => ⟨64, false, 0x2492492492492492#64, .script [.pres] [true, false, false], [], [], []⟩
  | 2 => ⟨63, false, 0x9249249249249249#64, .script [.pres] [false, true, false], [], [], []⟩
  | 3 => ⟨62, false, 0x4924924924924924#64, .script [.pres] [false, false, true], [], [], []⟩

/-- The turn after a turn. -/
def nextTurn : Fin 4 → Fin 4
  | 0 => 1
  | 1 => 2
  | 2 => 3
  | 3 => 1

theorem turn_searchOne : ∀ i, (turn i).searchOne.1 ≠ 0#64 ∧ (turn i).searchOne.2.bare = turn (nextTurn i) := by
  decide +kernel

theorem turn_slotLevel : ∀ i, (turn i).env.slotLevel = true := by decide

/-- A round from a turn gives the beat of an address and leads to the next turn. -/
theorem enumRound_turn {s : State} {i : Fin 4} (h : s.view.bare = turn i) :
    s.enumRound.view.bare = turn (nextTurn i) ∧ s.enumRound.busy = s.busy := by
  have hlevel : s.env.slotLevel = true := (congrArg (fun v : View => v.env.slotLevel) h).trans (turn_slotLevel i)
  obtain ⟨hresult, hstate⟩ := s.view.searchOne_bare
  obtain ⟨hne, hnext⟩ := turn_searchOne i
  rw [← (searchOne_view hlevel).2, h] at hresult hstate
  rw [enumRound_of_ne_zero (hresult.trans_ne hne)]
  exact ⟨hstate.trans hnext, searchOne_busy s⟩

/-- From a turn every step is a round that gives one beat more. -/
theorem stepAll_turn : ∀ (n : Nat) {s : State} {i : Fin 4}, s.view.bare = turn i → s.busy = true → RstStaysLow s →
    ∃ u, stepAll n s = some u ∧ u.busy = true ∧ u.rsp.length = s.rsp.length + n
  | 0, s, _, _, hb, _ => ⟨s, rfl, hb, rfl⟩
  | n + 1, s, i, h, hb, hlow => by
    obtain ⟨hturn, hbusy⟩ := enumRound_turn h
    obtain ⟨_, hbeat, -⟩ := enumRound_beat s
    obtain ⟨u, hu, hub, hlen⟩ := stepAll_turn n hturn (hbusy.trans hb) hlow.enumRound
    refine ⟨u, (stepAll_succ_of_busy hlow hb n).trans hu, hub, ?_⟩
    rw [hlen, hbeat, List.length_append, List.length_singleton]
    omega

/-! ### The obligation -/

/-- The state after reset on a line that answers `PRES` and the bits 0, 0, 1 over and over (log 14). -/
def scripted : State := { State.reset with env := .script [.pres] [false, false, true] }

/-- Settles O34, by `stepAll_turn` for the first round of ENUM from `scripted`. -/
theorem enumNeedNotEnd : Obligations.EnumNeedNotEnd := by
  have hlow : RstStaysLow scripted.start.resetSearchState := ⟨rfl, nofun⟩
  obtain ⟨hturn, hbusy⟩ := enumRound_turn (s := scripted.start.resetSearchState) (i := 0) rfl
  obtain ⟨_, hbeat, -⟩ := enumRound_beat scripted.start.resetSearchState
  refine ⟨scripted, scripted.start.resetSearchState.enumRound, by decide, rfl, rfl, fun n => ?_⟩
  obtain ⟨u, hu, hub, hlen⟩ := stepAll_turn n hturn hbusy hlow.enumRound
  refine ⟨u, hu, hub, ?_⟩
  rw [hlen, hbeat, List.length_append, Nat.add_right_comm]
  rfl

end Sys2Proof.Machine

/-!
PROOFS of the family 43_search, third part. Against devices that stay on the line the passes find their codes one by one in order,
bit 0 compared first (43_search.md R192, R193): each pass takes the first of the codes that are still to be found.
-/

namespace Sys2Proof.Machine

open SlotLevel (View)

/-! ### The order of the codes -/

theorem BitFirstLess.asymm {a b : Word} (h : BitFirstLess a b) : ¬ BitFirstLess b a := by
  obtain ⟨n, -, hn, ha, hb⟩ := h
  rintro ⟨m, -, hm, hb', ha'⟩
  rcases Nat.lt_trichotomy m n with hlt | rfl | hlt
  · exact Bool.false_ne_true (hb'.symm.trans ((hn m hlt).symm.trans ha'))
  · exact Bool.false_ne_true (hb'.symm.trans hb)
  · exact Bool.false_ne_true (ha.symm.trans ((hm n hlt).symm.trans hb))

theorem BitFirstLess.irrefl (a : Word) : ¬ BitFirstLess a a := fun h => h.asymm h

theorem BitFirstLess.trans {a b c : Word} (h : BitFirstLess a b) (g : BitFirstLess b c) : BitFirstLess a c := by
  obtain ⟨n, hn64, hn, ha, hb⟩ := h
  obtain ⟨m, hm64, hm, hb', hc⟩ := g
  have below : ∀ k, k < n → k < m → a.getLsbD k = c.getLsbD k := fun k hkn hkm => (hn k hkn).trans (hm k hkm)
  rcases Nat.lt_trichotomy m n with hlt | rfl | hlt
  · exact ⟨m, hm64, fun k hk => below k (hk.trans hlt) hk, (hn m hlt).trans hb', hc⟩
  · exact absurd (hb.symm.trans hb') (by decide)
  · exact ⟨n, hn64, fun k hk => below k hk (hk.trans hlt), ha, (hm n hlt).symm.trans hb⟩

theorem bitFirstLess_total {a b : Word} (h : a ≠ b) : BitFirstLess a b ∨ BitFirstLess b a := by
  obtain ⟨n, hn, hagree, hne⟩ := first_difference h
  cases ha : a.getLsbD n with
  | false => exact .inl (bitFirstLess_of hn hagree ha (by simpa [ha] using hne))
  | true => exact .inr (bitFirstLess_of hn hagree.symm (by simpa [ha] using hne) ha)

/-- `found` are the codes of the line in order. -/
def InOrder (roms found : List Word) : Prop := found.Perm roms ∧ found.Pairwise BitFirstLess

open Classical in
/-- The order of the codes as a test, to sort by. -/
noncomputable def notAfter (a b : Word) : Bool := decide (a = b ∨ BitFirstLess a b)

open Classical in
theorem notAfter_iff {a b : Word} : notAfter a b = true ↔ a = b ∨ BitFirstLess a b := decide_eq_true_iff

theorem notAfter_trans {a b c : Word} (h : notAfter a b = true) (g : notAfter b c = true) : notAfter a c = true := by
  obtain rfl | hab := notAfter_iff.1 h
  · exact g
  · obtain rfl | hbc := notAfter_iff.1 g
    · exact h
    · exact notAfter_iff.2 (.inr (hab.trans hbc))

theorem notAfter_total (a b : Word) : (notAfter a b || notAfter b a) = true := by
  rw [Bool.or_eq_true, notAfter_iff, notAfter_iff]
  by_cases h : a = b
  · exact .inl (.inl h)
  · exact (bitFirstLess_total h).imp .inr .inr

/-- The codes of a line can be put into order. -/
theorem exists_inOrder {roms : List Word} (h : roms.Nodup) : ∃ found, InOrder roms found := by
  have hperm := List.mergeSort_perm roms notAfter
  have hsorted := List.pairwise_mergeSort (le := notAfter) (fun _ _ _ => notAfter_trans) notAfter_total roms
  exact ⟨_, hperm, hsorted.imp₂ (fun _ _ hle hne => (notAfter_iff.1 hle).resolve_left hne) (hperm.nodup_iff.2 h)⟩

/-- Of codes in order, one that no other comes before is the first. -/
theorem eq_head_of_least {b c : Word} {rest : List Word} (hs : (b :: rest).Pairwise BitFirstLess) (hc : c ∈ b :: rest)
    (hleast : b = c ∨ BitFirstLess c b) : c = b := by
  obtain rfl | hrest := List.mem_cons.1 hc
  · rfl
  · obtain rfl | hless := hleast
    · rfl
    · exact absurd hless (BitFirstLess.asymm (List.rel_of_pairwise_cons hs hrest))

section Line

variable {roms found rest past : List Word} {a b c : Word} {v : View}

/-- The first code of the line is the first in order. -/
theorem First.eq_head (h : First roms c) (ho : InOrder roms (b :: rest)) : c = b := by
  obtain ⟨hmem, hfirst⟩ := h
  obtain ⟨hperm, hs⟩ := ho
  exact eq_head_of_least hs (hperm.mem_iff.2 hmem) (hfirst b (hperm.subset (List.mem_cons_self ..)))

/-- The codes that come after a code of the line are those that follow it in order. -/
theorem InOrder.mem_of_less (ho : InOrder roms (past ++ a :: rest)) (hc : c ∈ roms) (hless : BitFirstLess a c) : c ∈ rest := by
  obtain ⟨hperm, hs⟩ := ho
  obtain ⟨-, -, hpast⟩ := List.pairwise_append.1 hs
  rcases List.mem_append.1 (hperm.mem_iff.2 hc) with hmem | hmem
  · exact absurd hless (BitFirstLess.asymm (hpast c hmem a (List.mem_cons_self ..)))
  · obtain rfl | hmem := List.mem_cons.1 hmem
    · exact absurd hless (BitFirstLess.irrefl c)
    · exact hmem

/-- The next code of the line is the next in order. -/
theorem Next.eq_head (h : Next roms a c) (ho : InOrder roms (past ++ a :: b :: rest)) : c = b := by
  obtain ⟨hmem, hless, hnext⟩ := h
  have hrest := ho.mem_of_less hmem hless
  obtain ⟨hperm, hs⟩ := ho
  obtain ⟨-, hs, -⟩ := List.pairwise_append.1 hs
  have hb : b ∈ roms := hperm.subset (by simp)
  exact eq_head_of_least hs.of_cons hrest (hnext b hb (List.rel_of_pairwise_cons hs (List.mem_cons_self ..)))

/-! ### The codes still to be found -/

/-- `LD` is 0 after a pass if and only if no code comes after the one found (43_search.md R183, R184). -/
theorem LastFork.eq_zero_iff {lz : Nat} (h : LastFork roms a 0 0 lz) : lz = 0 ↔ ∀ r ∈ roms, ¬ BitFirstLess a r := by
  obtain ⟨hlz, hnone⟩ | ⟨n, -, hn, hlz, ⟨ha, r, hr, hagree, hb⟩, -⟩ := h
  · exact ⟨fun _ => last_of_no_fork fun m => hnone m (Nat.zero_le m), fun _ => hlz⟩
  · exact ⟨fun h0 => absurd (hlz.symm.trans h0) (Nat.succ_ne_zero n),
      fun hlast => absurd (bitFirstLess_of hn hagree.symm ha hb) (hlast r hr)⟩

/-- At the start of a pass, on a line with these codes in order, these are still to be found. -/
inductive Pending (roms found : List Word) : List Word → View → Prop
  /-- The search state is empty: all of them. -/
  | fresh {v : View} : devicesOf roms v.env → v.ld = 0 → v.ldf = false → v.addr = 0#64 → Pending roms found found v
  /-- `ADDR` is the code of the pass before: those that follow it. -/
  | after {v : View} {past rest : List Word} : devicesOf roms v.env → found = past ++ v.addr :: rest →
      v.ldf = decide (v.ld = 0) → LastFork roms v.addr 0 0 v.ld → Pending roms found rest v

theorem Pending.devices (h : Pending roms found rest v) : devicesOf roms v.env := by
  cases h with
  | fresh hd => exact hd
  | after hd => exact hd

theorem Pending.suffix (h : Pending roms found rest v) : ∃ past, found = past ++ rest := by
  cases h with
  | fresh => exact ⟨[], rfl⟩
  | @after _ past _ _ hfound => exact ⟨past ++ [v.addr], by rw [hfound, List.append_cons]⟩

/-- A code that is still to be found comes after the one found. -/
theorem Pending.ldf_eq_false (h : Pending roms found (b :: rest) v) (ho : InOrder roms found) : v.ldf = false := by
  cases h with
  | fresh _ _ hldf => exact hldf
  | after _ hfound hldf hlast =>
    obtain ⟨hperm, hs⟩ := hfound ▸ ho
    obtain ⟨-, hs, -⟩ := List.pairwise_append.1 hs
    rw [hldf, decide_eq_false_iff_not, hlast.eq_zero_iff]
    exact fun hnone => hnone b (hperm.subset (by simp)) (List.rel_of_pairwise_cons hs (List.mem_cons_self ..))

/-- The code that a pass finds is the first of those still to be found (43_search.md R192). -/
theorem Pending.addr_eq {z : Nat} {w : View} {r : Option Nat × View} (h : Pending roms found (b :: rest) v)
    (ho : InOrder roms found) (P : PassFound roms 0 z w r) (hld : w.ld = v.ld) (haddr : w.addr = v.addr) : r.2.addr = b := by
  have hldf := h.ldf_eq_false ho
  cases h with
  | fresh _ h0 => exact (P.first (hld.trans h0)).eq_head ho
  | after _ hfound hflag hlast =>
    rw [hfound] at ho
    have hmem : w.addr ∈ roms := ho.1.subset (by simp [haddr])
    obtain ⟨h0, -⟩ | ⟨n, -, hn, hn1, hfork, hafter⟩ := hlast
    · exact absurd (hldf.symm.trans hflag) (by simp [h0])
    · rw [← haddr] at hfork hafter ho
      exact (P.next hmem hn (hld.trans hn1) hfork hafter).eq_head ho

/-- A pass with codes still to be found takes the first of them; if its byte 0 is zero the pass fails (43_search.md R185, R192). -/
theorem Pending.searchOne_cons (h : Pending roms found (b :: rest) v) (ho : InOrder roms found) :
    if lowByte b = 0#8 then v.searchOne.1 = 0#64 ∧ v.searchOne.2.ld = 0 ∧ v.searchOne.2.ldf = false ∧ v.searchOne.2.addr = 0#64
    else v.searchOne.1 = b ∧ Pending roms found rest v.searchOne.2 := by
  obtain ⟨past, hfound⟩ := h.suffix
  have hne : roms ≠ [] := by
    rintro rfl
    exact absurd (hfound ▸ ho.1.eq_nil) (by simp)
  obtain ⟨c, lz, u, w, P, hc, hld, haddr, -, -, hlast, hpass⟩ := searchOne_devices h.devices hne (h.ldf_eq_false ho)
  obtain rfl : c = b := hc.symm.trans (h.addr_eq ho P hld haddr)
  rw [hpass]
  split
  · exact ⟨rfl, rfl, rfl, rfl⟩
  · exact ⟨rfl, .after P.devices (hc ▸ hfound) rfl (hc ▸ hlast)⟩

/-- With all codes found the flag is set, if there are any. -/
theorem Pending.nil_cases (h : Pending roms found [] v) (ho : InOrder roms found) :
    (roms = [] ∧ v.ld = 0 ∧ v.ldf = false ∧ v.addr = 0#64) ∨
      (roms ≠ [] ∧ v.ld = 0 ∧ v.ldf = true ∧ some v.addr = found.getLast?) := by
  cases h with
  | fresh _ hld hldf haddr => exact .inl ⟨ho.1.nil_eq.symm, hld, hldf, haddr⟩
  | after _ hfound hldf hlast =>
    rw [hfound] at ho ⊢
    have hld : v.ld = 0 := hlast.eq_zero_iff.2 fun r hr hless => absurd (ho.mem_of_less hr hless) List.not_mem_nil
    refine .inr ⟨?_, hld, by rw [hldf, hld]; rfl, by simp⟩
    rintro rfl
    exact absurd ho.1.eq_nil (by simp)

/-- A pass after the last code returns 0 and leaves the search state as it is (43_search.md R173, R174). -/
theorem Pending.searchOne_nil (h : Pending roms found [] v) (ho : InOrder roms found) :
    v.searchOne.1 = 0#64 ∧ Pending roms found [] v.searchOne.2 := by
  obtain ⟨rfl, hld, hldf, haddr⟩ | ⟨-, -, hldf, -⟩ := h.nil_cases ho
  · obtain ⟨ds, henv, hds⟩ := h.devices
    obtain rfl := List.map_eq_nil_iff.1 hds
    obtain rfl := ho.1.eq_nil
    have hpass : v.searchOne = ((v.resetSlot.2).diag .noPres).failPass := by
      simp [View.searchOne, View.resetPulse, View.resetSlot, hldf, henv, Env.resetAnswer]
    rw [hpass]
    refine ⟨rfl, .fresh ⟨[], ?_, rfl⟩ rfl rfl rfl⟩
    show v.env.afterReset = _
    rw [henv]
    rfl
  · have hpass : v.searchOne = (0#64, v) := by simp only [View.searchOne, hldf, if_true]
    rw [hpass]
    exact ⟨rfl, h⟩

/-- A beat does not change what is still to be found. -/
theorem Pending.respond (h : Pending roms found rest v) (data : Word) (last : Bool) :
    Pending roms found rest (v.respond data last) := by
  cases h with
  | fresh hd hld hldf haddr => exact .fresh hd hld hldf haddr
  | after hd hfound hldf hlast => exact .after hd hfound hldf hlast

/-! ### ENUM -/

variable {s : State}

/-- A line of devices answers slots, so a pass of the machine is one of the slot level. -/
theorem Pending.view_searchOne (h : Pending roms found rest s.view) : s.view.searchOne = (s.searchOne.1, s.searchOne.2.view) := by
  obtain ⟨ds, henv, -⟩ := h.devices
  have henv : s.env = .dev ds := henv
  exact (searchOne_view (by rw [henv]; rfl)).2.symm

theorem searchOne_view_rsp (s : State) : s.searchOne.2.view.rsp = s.view.rsp :=
  congrArg (List.map fun b : Beat => (b.data, b.last)) (searchOne_rsp s)

theorem enumRound_view_rsp_of_zero (h : s.searchOne.1 = 0#64) : s.enumRound.view.rsp = s.view.rsp ++ [(0#64, true)] := by
  rw [enumRound_of_zero h, complete_view]
  exact congrArg (· ++ [(0#64, true)]) (searchOne_view_rsp s)

/-- A round that finds a code gives its beat and leaves the others to be found. -/
theorem Pending.enumRound_cons (h : Pending roms found (b :: rest) s.view) (ho : InOrder roms found) (hb : lowByte b ≠ 0#8) :
    Pending roms found rest s.enumRound.view ∧ s.enumRound.busy = s.busy ∧
      s.enumRound.view.rsp = s.view.rsp ++ [(b, false)] := by
  have hpass := h.searchOne_cons ho
  rw [if_neg hb, h.view_searchOne] at hpass
  obtain ⟨hresult, hpending⟩ := hpass
  have hresult : s.searchOne.1 = b := hresult
  rw [enumRound_of_ne_zero (hresult ▸ ne_zero_of_lowByte hb), respond_view, hresult]
  refine ⟨hpending.respond b false, searchOne_busy s, ?_⟩
  exact congrArg (· ++ [(b, false)]) (searchOne_view_rsp s)

/-- The rounds of ENUM's loop: they give the codes still to be found up to the first whose byte 0 is zero, and then the closing beat,
in at most one round more than there are codes (43_search.md R190, R193, R196). -/
theorem Pending.enumRounds (ho : InOrder roms found) : ∀ (rest : List Word) {s : State}, Pending roms found rest s.view →
    s.busy = true → RstStaysLow s →
    ∃ n u, n ≤ rest.length ∧ stepAll n s.enumRound = some u ∧ u.busy = false ∧
      u.view.rsp = s.view.rsp ++ (rest.takeWhile fun a => lowByte a != 0#8).map (fun a => (a, false)) ++ [(0#64, true)] ∧
      ((∀ a ∈ rest, lowByte a ≠ 0#8) → Pending roms found [] u.view) ∧
      ((∃ a ∈ rest, lowByte a = 0#8) → SearchStateEmpty u)
  | [], s, h, _, _ => by
    obtain ⟨hresult, hpending⟩ := h.searchOne_nil ho
    rw [h.view_searchOne] at hresult hpending
    refine ⟨0, s.enumRound, Nat.le_refl 0, rfl, ?_, ?_, fun _ => ?_, nofun⟩
    · rw [enumRound_of_zero hresult]
      rfl
    · rw [enumRound_view_rsp_of_zero hresult, List.takeWhile_nil, List.map_nil, List.append_nil]
    · rw [enumRound_of_zero hresult, complete_view]
      exact hpending.respond _ _
  | b :: rest, s, h, hbusy, hlow => by
    by_cases hb : lowByte b = 0#8
    · have hpass := h.searchOne_cons ho
      rw [if_pos hb, h.view_searchOne] at hpass
      obtain ⟨hresult, hld, hldf, haddr⟩ := hpass
      refine ⟨0, s.enumRound, Nat.zero_le _, rfl, ?_, ?_, fun hall => absurd hb (hall b (List.mem_cons_self ..)), fun _ => ?_⟩
      · rw [enumRound_of_zero hresult]
        rfl
      · rw [enumRound_view_rsp_of_zero hresult]
        simp [hb]
      · rw [enumRound_of_zero hresult]
        exact ⟨BitVec.eq_of_toNat_eq hld, hldf, haddr⟩
    · obtain ⟨hpending, hkept, hrsp⟩ := h.enumRound_cons ho hb
      have hbusy' := hkept.trans hbusy
      obtain ⟨n, u, hn, hu, hub, hbeats, hall, hsome⟩ := Pending.enumRounds ho rest hpending hbusy' hlow.enumRound
      refine ⟨n + 1, u, Nat.succ_le_succ hn, (stepAll_succ_of_busy hlow.enumRound hbusy' n).trans hu, hub, ?_, ?_, ?_⟩
      · rw [hbeats, hrsp]
        simp [hb]
      · exact fun h => hall fun a ha => h a (List.mem_cons_of_mem b ha)
      · rintro ⟨a, ha, ha0⟩
        obtain rfl | ha := List.mem_cons.1 ha
        · exact absurd ha0 hb
        · exact hsome ⟨a, ha, ha0⟩

/-! ### Successive SEARCHes -/

/-- A SEARCH that finds a code gives its beat and leaves the others to be found. -/
theorem Pending.search_cons (h : Pending roms found (b :: rest) s.view) (ho : InOrder roms found) (hb : lowByte b ≠ 0#8) :
    ∃ t, exec .search s = .next t ∧ Pending roms found rest t.view ∧ t.rsp.map Beat.data = s.rsp.map Beat.data ++ [b] := by
  have h : Pending roms found (b :: rest) s.start.view := by rwa [start_view]
  have hpass := h.searchOne_cons ho
  rw [if_neg hb, h.view_searchOne] at hpass
  obtain ⟨hresult, hpending⟩ := hpass
  have hresult : s.start.searchOne.1 = b := hresult
  refine ⟨s.start.searchOne.2.complete s.start.searchOne.1, rfl, ?_, ?_⟩
  · rw [complete_view]
    exact hpending.respond _ _
  · rw [State.complete_rsp, searchOne_rsp, List.map_append, hresult]
    rfl

/-- As many SEARCHes as there are codes to be found return them in order (43_search.md R192). -/
theorem Pending.searches (ho : InOrder roms found) : ∀ (rest : List Word) {s : State}, Pending roms found rest s.view →
    (∀ a ∈ rest, lowByte a ≠ 0#8) →
    ∃ t, execAll (List.replicate rest.length .search) s = some t ∧ Pending roms found [] t.view ∧
      t.rsp.map Beat.data = s.rsp.map Beat.data ++ rest
  | [], s, h, _ => ⟨s, rfl, h, (List.append_nil _).symm⟩
  | b :: rest, s, h, hlow => by
    obtain ⟨q, hq, hpending, hbeat⟩ := h.search_cons ho (hlow b (List.mem_cons_self ..))
    obtain ⟨t, ht, hdone, hbeats⟩ := Pending.searches ho rest hpending fun a ha => hlow a (List.mem_cons_of_mem b ha)
    refine ⟨t, ?_, hdone, ?_⟩
    · rw [List.length_cons, List.replicate_succ, execAll, hq]
      exact ht
    · rw [hbeats, hbeat, List.append_assoc, List.singleton_append]

end Line

/-! ### The obligations -/

/-- Settles O35. The codes are put into order first; `Pending.enumRounds` says what the rounds give, and `Pending.nil_cases` what they
leave behind where no code stops them. -/
theorem enumerationIsCompleteAndOrdered : Obligations.EnumerationIsCompleteAndOrdered := by
  intro roms s hnodup hdevices hahead hrst
  obtain ⟨found, ho⟩ := exists_inOrder hnodup
  have hmem (a : Word) : a ∈ found ↔ a ∈ roms := ho.1.mem_iff
  have hpending : Pending roms found found s.start.resetSearchState.view := .fresh hdevices rfl rfl rfl
  obtain ⟨n, u, hn, hu, hbusy, hbeats, hall, hsome⟩ := Pending.enumRounds ho found hpending rfl ⟨hrst, hahead⟩
  refine ⟨found, n, _, u, ho.1, ho.2, ho.1.length_eq ▸ hn, rfl, hu, hbusy, hbeats, fun hne hlow => ?_, ?_⟩
  · obtain ⟨hnil, -⟩ | ⟨-, hld, hldf, haddr⟩ := (hall fun a ha => hlow a ((hmem a).1 ha)).nil_cases ho
    · exact absurd hnil hne
    · exact ⟨BitVec.eq_of_toNat_eq hld, hldf, haddr⟩
  · rintro (rfl | ⟨a, ha, ha0⟩)
    · obtain rfl := ho.1.eq_nil
      obtain ⟨-, hld, hldf, haddr⟩ | ⟨hne, -⟩ := (hall nofun).nil_cases ho
      · exact ⟨BitVec.eq_of_toNat_eq hld, hldf, haddr⟩
      · exact absurd rfl hne
    · exact hsome ⟨a, (hmem a).2 ha, ha0⟩

/-- Settles O36, by `Pending.searches`; after the last code the flag is set, and then a pass is over at once. -/
theorem successiveSearchesFindEveryDevice : Obligations.SuccessiveSearchesFindEveryDevice := by
  intro roms s hne hnodup hlow hdevices
  obtain ⟨found, ho⟩ := exists_inOrder hnodup
  have hpending : Pending roms found found (s.start.resetSearchState.complete 0#64).view := .fresh hdevices rfl rfl rfl
  obtain ⟨t, ht, hdone, hbeats⟩ := hpending.searches ho found fun a ha => hlow a (ho.1.mem_iff.1 ha)
  rw [ho.1.length_eq] at ht
  have hldf : t.start.ldf = true := by
    obtain ⟨hnil, -⟩ | ⟨-, -, hldf, -⟩ := hdone.nil_cases ho
    · exact absurd hnil hne
    · exact hldf
  refine ⟨found, t, _, ho.1, ho.2, ht, ?_, rfl, ?_, ?_, ?_⟩
  · rw [hbeats]
    simp
  all_goals rw [searchOne_of_ldf hldf]
  · exact ⟨_, rfl⟩
  · rfl
  · rfl

end Sys2Proof.Machine

/-!
PROOFS of the family 60_exceptions. Every step has a next state (60_exceptions.md R219, R230); an idle block lets time pass and nothing
else (R229); the codes of the diagnostic channel, and that nothing depends on what is there (R211; 10_state.md R37).
-/

namespace Sys2Proof.Machine

/-! ### The idle block -/

/-- Where nothing but time has passed, hardware reset leaves the reset state and every history as it was. -/
theorem abandonAt_of_later (s : State) (e n : Nat) : s.abandonAt e { s with now := n } = { s.hardReset with now := e } := by
  simp [State.abandonAt, State.envAt, State.newSlots, State.hardReset, State.becomeIdle, State.resetSearchState]

/-- With `rst` still 0 after the microsecond of idling there is nothing to cut. -/
theorem cutByReset_idle_of_low {s : State} (h : levelAt s.rstEdges (s.now + 1) = false) : s.cutByReset s.idle = s.idle := by
  obtain ⟨-, hcut⟩ | ⟨e, he, -⟩ := cutByReset_cases s s.idle
  · exact hcut
  · obtain ⟨hlt, hle, hlevel⟩ := firstReset_some he
    obtain rfl : e = s.now + 1 := Nat.le_antisymm hle hlt
    exact absurd (h.symm.trans hlevel) Bool.false_ne_true

/-- With `rst` 1 after the microsecond of idling it is there that it has risen. -/
theorem cutByReset_idle_of_high {s : State} (h0 : s.rst = false) (h : levelAt s.rstEdges (s.now + 1) = true) :
    s.cutByReset s.idle = s.abandonAt (s.now + 1) s.idle := by
  have hrises : RstRisesAt s (s.now + 1) := by
    refine ⟨Nat.lt_succ_self _, h, fun x hx hlt => ?_⟩
    obtain rfl : x = s.now := Nat.le_antisymm (Nat.le_of_lt_succ hlt) hx
    exact h0
  exact cutByReset_some (firstReset_of_rises hrises rfl (Nat.le_refl _))

/-- A step of an idle block to which nothing is offered (60_exceptions.md R229). -/
theorem step_idle {s : State} (h0 : s.rst = false) (hb : s.busy = false) (ho : s.offered = none) :
    step s = .next (s.cutByReset s.idle) := by
  simp [step, State.action, h0, hb, ho, settle]

/-! ### The codes on the channel -/

/-- The codes a way from `s` to `t` adds, as they stand on `diag_code`. -/
theorem diagCodes_append {s t : State} {new : List DiagCode} (h : t.diags.map Diag.code = s.diags.map Diag.code ++ new) :
    t.diagCodes = s.diagCodes ++ new.map DiagCode.value := by
  have values (u : State) : u.diagCodes = (u.diags.map Diag.code).map DiagCode.value := by
    rw [List.map_map]
    rfl
  rw [values, values, h, List.map_append]

/-! ### The channel has no effect -/

section Channel

variable {α : Type}

/-- What `f` puts on the channel from `s`, and everything else it does, is the same whatever was on the channel before. -/
def IgnoresDiags (f : State → α × State) (s : State) : Prop :=
  ∃ new, (f s).2.diags = s.diags ++ new ∧ ∀ d, f (s.withDiags d) = ((f s).1, (f s).2.withDiags (d ++ new))

/-- What commutes with every change of the channel puts nothing there: the change that changes nothing shows it. -/
theorem IgnoresDiags.of_silent {f : State → α × State} {s : State}
    (h : ∀ d, f (s.withDiags d) = ((f s).1, (f s).2.withDiags d)) : IgnoresDiags f s := by
  have hself : (f s).2.diags = s.diags := congrArg (fun r : α × State => r.2.diags) (h s.diags)
  exact ⟨[], by rw [hself, List.append_nil], fun d => by rw [h, List.append_nil]⟩

/-- The same of what returns nothing. -/
theorem IgnoresDiags.of_silent_state {f : State → State} {s : State} (h : ∀ d, f (s.withDiags d) = (f s).withDiags d) :
    IgnoresDiags (fun q => ((), f q)) s :=
  .of_silent fun d => congrArg (Prod.mk ()) (h d)

/-- The start and the last beat of an operation do not look at the channel either. -/
theorem IgnoresDiags.complete {f : State → α × State} {s : State} (h : IgnoresDiags f s.start) (g : α → Word) :
    ∃ new, ((f s.start).2.complete (g (f s.start).1)).diags = s.diags ++ new ∧
      ∀ d, (f (s.withDiags d).start).2.complete (g (f (s.withDiags d).start).1) =
        ((f s.start).2.complete (g (f s.start).1)).withDiags (d ++ new) := by
  obtain ⟨new, hnew, hd⟩ := h
  refine ⟨new, hnew, fun d => ?_⟩
  rw [show (s.withDiags d).start = s.start.withDiags d from rfl, hd]
  rfl

end Channel

/-- No operation depends on what was on the channel before, and what it puts there does not either (10_state.md R37). -/
theorem exec_withDiags (i : Instr) (s : State) : ∃ t new, exec i s = .next t ∧ t.diags = s.diags ++ new ∧
    ∀ d, exec i (s.withDiags d) = .next (t.withDiags (d ++ new)) := by
  have completed {α : Type} {f : State → α × State} (h : IgnoresDiags f s.start) (g : α → Word)
      (hx : ∀ q, exec i q = .next ((f q.start).2.complete (g (f q.start).1))) :
      ∃ t new, exec i s = .next t ∧ t.diags = s.diags ++ new ∧ ∀ d, exec i (s.withDiags d) = .next (t.withDiags (d ++ new)) := by
    obtain ⟨new, hnew, hd⟩ := h.complete g
    exact ⟨_, new, hx s, hnew, fun d => (hx _).trans (congrArg Host.Outcome.next (hd d))⟩
  have wrote {f : State → State} (h : ∀ d, f (s.start.withDiags d) = (f s.start).withDiags d)
      (hx : ∀ q, exec i q = .next ((f q.start).complete 0#64)) := completed (.of_silent_state h) (fun _ => 0#64) hx
  cases i with
  | reset => exact completed (resetPulse_withDiags s.start) ofBit fun _ => rfl
  | wbit b => exact wrote (slotWrite_withDiags · b s.start) fun _ => rfl
  | rbit => exact completed (.of_silent (slotRead_withDiags · s.start)) ofBit fun _ => rfl
  | wbyte v => exact wrote (writeByte_withDiags · v s.start) fun _ => rfl
  | rbyte => exact completed (.of_silent (readByte_withDiags · s.start)) ofByte fun _ => rfl
  | wword v => exact wrote (writeWord_withDiags · v s.start) fun _ => rfl
  | rword => exact completed (.of_silent (readWord_withDiags · s.start)) id fun _ => rfl
  | select a =>
    refine wrote (f := fun q => (q.writeByte Config.romMatch).writeWord a) (fun d => ?_) fun _ => rfl
    rw [writeByte_withDiags, writeWord_withDiags]
  | skip => exact wrote (writeByte_withDiags · Config.romSkip s.start) fun _ => rfl
  | srst => exact wrote (f := State.resetSearchState) (fun _ => rfl) fun _ => rfl
  | search => exact completed (searchOne_withDiags s.start) id fun _ => rfl
  | enum =>
    obtain ⟨new, hnew, hd⟩ := enumRound_withDiags s.start.resetSearchState
    exact ⟨_, new, rfl, hnew, fun d => congrArg Host.Outcome.next (hd d)⟩

/-! ### The obligations -/

/-- Settles O7. Each of the four things a step can be has a next state. -/
theorem everyStepHasANextState : Obligations.EveryStepHasANextState := by
  intro s
  obtain ⟨-, hx⟩ | ⟨-, -, hx⟩ | ⟨_, _, _, -, -, -, hx⟩ | ⟨-, -, -, hx⟩ := step_cases s <;> exact ⟨_, hx⟩

/-- Settles O47. The step is a microsecond of idling, cut at its end where `rst` has risen by then. -/
theorem idleStepOnlyLetsTimePass : Obligations.IdleStepOnlyLetsTimePass := by
  intro s hs h0 hb ho
  have hidle := idle_eq hs.released
  rw [step_idle h0 hb ho]
  refine ⟨fun hlow => by rw [cutByReset_idle_of_low hlow, hidle], fun hhigh => ?_⟩
  rw [cutByReset_idle_of_high h0 hhigh, hidle, abandonAt_of_later]
  exact ⟨_, rfl, rfl, hhigh, ⟨rfl, rfl, rfl, rfl, rfl, rfl⟩, rfl, rfl, rfl, rfl, rfl, rfl, rfl, rfl, rfl⟩

/-- Settles O48. RESET by O13, an illegal word by O8; that the channel has no effect is `exec_withDiags`. -/
theorem diagnosticCodesOnTheChannel : Obligations.DiagnosticCodesOnTheChannel := by
  refine ⟨fun s => ?_, fun s w rest why htake hw => ?_, fun i s d => ?_⟩
  · obtain ⟨o, t, hx, hevents, -, hdiags, -⟩ := resetReturnsPresence s
    have hcodes : t.diags.map Diag.code = s.diags.map Diag.code ++ diagnostics o := by
      simp [hdiags, Function.comp_def]
    refine ⟨t, o, hx, hevents, (diagCodes_append hcodes).trans ?_⟩
    cases o <;> rfl
  · obtain ⟨t, hx, -, -, -, -, -, -, -, -, hcodes, -⟩ := illegalWordIsADiagnosedNoOp s w rest why htake hw
    exact ⟨t, hx, diagCodes_append hcodes⟩
  · obtain ⟨t, new, hx, hnew, hd⟩ := exec_withDiags i s
    exact ⟨t, new, hx, hnew, hd d⟩

end Sys2Proof.Machine

/-!
PROOFS of the family 70_reset_and_hazards. What hardware reset leaves of a step it cuts (70_reset_and_hazards.md R241, R242), and how
long each operation takes (R255).
-/

namespace Sys2Proof.Machine

open SlotLevel (bitsOf)

/-! ### The block in reset, and the steps that do not begin idle -/

theorem cmdReady_of_rst {s : State} (h : s.rst = true) : s.cmdReady = false := by
  simp [State.cmdReady, h]

/-- A step that starts with `rst` 0 and ends with `rst` 1 has been cut, so it ends in the reset state (10_state.md R38). -/
theorem cutByReset_registers {s t : State} (h0 : s.rst = false) (hedges : t.rstEdges = s.rstEdges) (hnow : s.now ≤ t.now)
    (h : (s.cutByReset t).rst = true) : RegistersAtReset (s.cutByReset t) := by
  obtain ⟨hnone, hcut⟩ | ⟨e, -, hcut⟩ := cutByReset_cases s t <;> rw [hcut] at h ⊢
  · exact absurd ((rst_of_firstReset_none h0 hedges hnow hnone).symm.trans h) Bool.false_ne_true
  · exact abandonAt_registers s t e

theorem step_hold {s : State} (h : s.rst = true) : step s = .next s.holdReset := by
  simp [step, State.action, h]

/-- A step inside ENUM's loop (log 9). -/
theorem step_resume {s : State} (h0 : s.rst = false) (hb : s.busy = true) : step s = .next (s.cutByReset s.enumRound) := by
  simp [step, State.action, h0, hb, settle]

/-! ### What the cut leaves -/

/-- The outputs before the cut are those of the whole step, and from the cut on they are 0 (70_reset_and_hazards.md R241). -/
theorem abandonAt_output {s t : State} {e : Nat} (f : Span → Bool) (hf : ∀ sp n, f { sp with stop := n } = f sp)
    (hpast : ∀ sp ∈ s.trace, sp.stop ≤ s.now) (he : s.now ≤ e) (hgrown : s.trace <+: t.trace) (x : Nat) :
    ((s.abandonAt e t).trace.any fun sp => f sp && decide (sp.start ≤ x) && decide (x < sp.stop)) =
      (decide (x < e) && t.trace.any fun sp => f sp && decide (sp.start ≤ x) && decide (x < sp.stop)) := by
  obtain ⟨new, hnew⟩ := hgrown
  have htrace : (s.abandonAt e t).trace = s.trace ++ new.filterMap (clipSpan e) := by
    rw [← List.drop_left (l₁ := s.trace) (l₂ := new), hnew]
    rfl
  rw [htrace, ← hnew, List.any_append, List.any_append, any_clip e x f hf]
  by_cases hx : x < e
  · rw [decide_eq_true hx, Bool.true_and, Bool.true_and]
  · rw [old_spans f hpast (he.trans (Nat.not_lt.1 hx)), decide_eq_false hx]
    rfl

/-- The slots of the whole step that had ended by the cut are on the line, and no others (70_reset_and_hazards.md R241). -/
theorem mem_abandonAt_bus {s t : State} {e : Nat} (hpast : ∀ sl ∈ s.bus, sl.stop ≤ e) (hgrown : s.bus <+: t.bus) (sl : Slot) :
    sl ∈ (s.abandonAt e t).bus ↔ sl ∈ t.bus ∧ sl.stop ≤ e := by
  obtain ⟨new, hnew⟩ := hgrown
  have hbus : (s.abandonAt e t).bus = s.bus ++ new.filter fun sl => decide (sl.stop ≤ e) := by
    rw [← List.drop_left (l₁ := s.bus) (l₂ := new), hnew]
    rfl
  rw [hbus, ← hnew, List.mem_append, List.mem_append, List.mem_filter, decide_eq_true_eq, or_and_right,
    and_iff_left_of_imp (hpast sl)]

/-- A step that only adds to an ordered history and gives its one beat at its end is abandoned where `rst` rises inside it. -/
theorem step_abandoned {s t : State} {e : Nat} {b : Beat} (hs : HistoryOrdered s) (hrise : RstRisesAt s e)
    (hgrown : Grown s t) (htiming : t.timing = s.timing) (hedges : t.rstEdges = s.rstEdges) (hend : e ≤ t.now)
    (hbeat : t.rsp = s.rsp ++ [b]) (htime : b.time = t.now) (hstep : step s = .next (s.cutByReset t)) :
    ∃ u, step s = .next u ∧ AbandonedAt s t e u := by
  obtain ⟨hbus, -, htrace, -, -, hdiags⟩ := hs
  have ⟨hlt, _, _⟩ := hrise
  have hle := Nat.le_of_lt hlt
  have hfirst := firstReset_of_rises hrise hedges hend
  have hrst := abandonAt_rst hfirst
  rw [cutByReset_some hfirst] at hstep
  have drive (x : Nat) : (s.abandonAt e t).driveAt x = (decide (x < e) && t.driveAt x) :=
    abandonAt_output Span.driveLow (fun _ _ => rfl) htrace hle hgrown.trace x
  have crit (x : Nat) : (s.abandonAt e t).critAt x = (decide (x < e) && t.critAt x) :=
    abandonAt_output Span.crit (fun _ _ => rfl) htrace hle hgrown.trace x
  refine ⟨_, hstep, rfl, abandonAt_registers s t e, hrst, cmdReady_of_rst hrst, abandonAt_rsp hbeat (htime ▸ hend),
    abandonAt_diags (fun d hd => (hdiags d hd).trans_lt hlt) hgrown.diags, htiming, hedges, fun x hx => ?_, fun x hx => ?_,
    mem_abandonAt_bus (fun sl hsl => (hbus sl hsl).2.trans hle) hgrown.bus⟩
  · rw [drive, crit, decide_eq_false (Nat.not_lt.2 hx)]
    exact ⟨rfl, rfl⟩
  · rw [drive, crit, decide_eq_true hx]
    exact ⟨rfl, rfl⟩

theorem RstRisesAt.rst_low {s : State} {e : Nat} (h : RstRisesAt s e) : s.rst = false := by
  obtain ⟨hlt, -, hlow⟩ := h
  exact hlow s.now (Nat.le_refl _) hlt

/-! ### Durations -/

/-- How long an operation of `n + 1` slots of the length `d` takes, read off where one more slot would start
(40_signal_primitives.md R135). -/
theorem duration_of_slotStart {i : Instr} {s q : State} {v : Word} {n d : Nat} (hx : exec i s = .next (q.complete v))
    (hdone : SlotDone q) (htiming : q.timing = s.timing)
    (hstart : q.slotStart = s.now + (n + 1) * (d + s.timing.tGap)) :
    ∃ t, exec i s = .next t ∧ t.now = s.now + (n + 1) * d + n * s.timing.tGap := by
  refine ⟨_, hx, ?_⟩
  rw [slotStart_now hdone, htiming] at hstart
  have hsum : (n + 1) * (d + s.timing.tGap) = (n + 1) * d + n * s.timing.tGap + s.timing.tGap := by ring
  rw [State.complete_now]
  omega

/-- How long an operation of `n + 1` write slots takes. -/
theorem Wrote.duration {i : Instr} {bits : List Bool} {s q : State} {v : Word} (h : Wrote bits s.start q)
    (hl : s.timing.legal = true) (n : Nat) (hn : bits.length = n + 1) (hx : exec i s = .next (q.complete v)) :
    ∃ t, exec i s = .next t ∧ t.now = s.now + (n + 1) * s.timing.tWSlot + n * s.timing.tGap := by
  have hstart := h.start hl
  rw [hn] at hstart
  exact duration_of_slotStart hx (h.done (List.ne_nil_of_length_eq_add_one hn)) h.frame.timing hstart

/-- How long an operation of `n + 1` read slots takes. -/
theorem ReadIn.duration {i : Instr} {bits : List Bool} {s q : State} {v : Word} (h : ReadIn bits s.start q)
    (hl : s.timing.legal = true) (n : Nat) (hn : bits.length = n + 1) (hx : exec i s = .next (q.complete v)) :
    ∃ t, exec i s = .next t ∧ t.now = s.now + (n + 1) * 60 + n * s.timing.tGap := by
  have hstart := h.start hl
  rw [hn] at hstart
  exact duration_of_slotStart hx (h.done (List.ne_nil_of_length_eq_add_one hn)) h.frame.timing hstart

/-- The reset slot of an operation takes 960 microseconds (40_signal_primitives.md R118). -/
theorem resetPulse_start_now (s : State) : s.start.resetPulse.2.now = s.now + 960 := by
  rw [resetPulse_eq, slotReset_eq]
  rfl

/-- The command byte and the loop of a pass, `taken` positions of which are not the pair `(1, 1)`: how many slots they are, and how
long they take after the reset slot (43_search.md R175 to R183). -/
theorem passLoop_duration {s : State} (hl : s.timing.legal = true) (hdone : SlotDone s) : ∃ taken,
    (if s.passLoop.1 then taken = 64 else taken < 64) ∧
    s.passLoop.2.events.length = s.events.length + 8 + 3 * taken + (if s.passLoop.1 then 0 else 2) ∧
    s.passLoop.2.now = s.now + 8 * (s.timing.tWSlot + s.timing.tGap) +
      taken * (2 * (60 + s.timing.tGap) + (s.timing.tWSlot + s.timing.tGap)) +
      (if s.passLoop.1 then 0 else 2 * (60 + s.timing.tGap)) := by
  have w := passStart_wrote s
  have htiming := w.frame.timing
  obtain ⟨taken, L⟩ := passLoop_looped s
  have hstart := L.start (htiming ▸ hl)
  rw [slotStart_now (L.done (w.keeps hdone)), L.frame.timing, htiming, w.start hl, slotStart_now hdone, bitsOf_length] at hstart
  have hevents := L.eventCount
  rw [w.events, List.length_append, List.length_map, bitsOf_length] at hevents
  refine ⟨taken, L.count, hevents, ?_⟩
  simp only [Config.tRSlot] at hstart
  omega

/-- After the loop a pass touches neither the line nor the time (43_search.md R184 to R187). -/
theorem searchOne_sameLine_of_loop {s : State} (hf : s.ldf = false) (hp : s.resetPulse.1 = true) :
    SameLine s.resetPulse.2.passLoop.2 s.searchOne.2 := by
  have he := searchOne_ends s
  generalize s.searchOne = r at he
  cases he with
  | done h => exact absurd (hf.symm.trans h) Bool.false_ne_true
  | noDevice _ h => exact absurd (h.symm.trans hp) Bool.false_ne_true
  | aborted => exact SameLine.resetSearchState _
  | invalid => exact SameLine.resetSearchState _
  | found => exact SameLine.commitPass _

/-- How many slots the pass of a SEARCH with the flag clear has, and how long it takes: without presence, complete, and left at position
`q` (43_search.md R189; 70_reset_and_hazards.md R255). -/
theorem search_duration {s : State} (hl : s.timing.legal = true) (hf : s.ldf = false) :
    let t := s.start.searchOne.2
    let w := s.timing.tWSlot
    let g := s.timing.tGap
    (t.events.length = s.events.length + 1 ∧ t.now = s.now + 960) ∨
    (t.events.length = s.events.length + 201 ∧ t.now = s.now + 960 + 72 * w + 128 * 60 + 200 * g) ∨
    (∃ q, 1 ≤ q ∧ q ≤ 64 ∧ t.events.length = s.events.length + 1 + 8 + 3 * (q - 1) + 2 ∧
      t.now = s.now + 960 + (7 + q) * w + 2 * q * 60 + (7 + 3 * q) * g) := by
  intro t w g
  obtain ⟨o, hreset, -, -⟩ := resetPulse_events s.start
  have hcount : s.start.resetPulse.2.events.length = s.events.length + 1 := by
    rw [hreset, List.length_append]
    rfl
  have hnow := resetPulse_start_now s
  cases hp : s.start.resetPulse.1 with
  | false =>
    have hpass : t = s.start.resetPulse.2.resetSearchState := congrArg Prod.snd (searchOne_absent (s := s.start) hf hp)
    rw [hpass]
    exact .inl ⟨hcount, hnow⟩
  | true =>
    have hframe := resetPulse_frame s.start
    have htiming : s.start.resetPulse.2.timing = s.timing := hframe.timing
    have hsame : t.now = s.start.resetPulse.2.passLoop.2.now := (searchOne_sameLine_of_loop (s := s.start) hf hp).now
    have hevents : t.events = s.start.resetPulse.2.passLoop.2.events := searchOne_events_of_loop (s := s.start) hf hp
    obtain ⟨taken, htaken, hslots, htime⟩ := passLoop_duration (htiming ▸ hl) hframe.done
    rw [hcount] at hslots
    rw [hnow, htiming] at htime
    rw [hevents, hslots, hsame, htime]
    right
    cases hend : s.start.resetPulse.2.passLoop.1 with
    | true =>
      rw [hend, if_pos rfl] at htaken
      subst htaken
      refine .inl ⟨rfl, ?_⟩
      simp only [if_true]
      ring
    | false =>
      rw [hend, if_neg Bool.false_ne_true] at htaken
      refine .inr ⟨taken + 1, Nat.le_add_left 1 taken, htaken, rfl, ?_⟩
      simp only [Bool.false_eq_true, if_false]
      ring

/-! ### The obligations -/

/-- Settles O9. A step that ends with `rst` 1 is a microsecond of reset or has been cut; a microsecond of reset touches no history. -/
theorem registersWhileInReset : Obligations.RegistersWhileInReset := by
  refine ⟨fun s t h hrst => ⟨?_, cmdReady_of_rst hrst⟩, fun s h => ⟨cmdReady_of_rst h, s.holdReset, step_hold h, ?_⟩⟩
  · obtain ⟨-, hx⟩ | ⟨h0, -, hx⟩ | ⟨w, rest, u, ⟨h0, -, -⟩, hw, ⟨-, hedges, -⟩, hx⟩ | ⟨h0, -, -, hx⟩ := step_cases s <;>
      obtain rfl := Host.Outcome.next.inj (h.symm.trans hx)
    · exact holdReset_registers s
    · exact cutByReset_registers h0 (enumRound_kept s).2.1 (enumRound_grown s).now hrst
    · exact cutByReset_registers h0 hedges (execWord_grown hw).now hrst
    · exact cutByReset_registers h0 rfl (advance_grown s 1).now hrst
  · rw [holdReset_eq]
    refine ⟨⟨rfl, rfl, rfl, rfl, rfl, rfl⟩, rfl, rfl, rfl, rfl, rfl, rfl, rfl, fun hlow => ?_⟩
    rw [State.cmdReady, hlow]
    rfl

/-- Settles O12. An operation and a round only add to the histories and give one beat, at their end, and `rst` rises by then. -/
theorem resetInTheMiddleAbandons : Obligations.ResetInTheMiddleAbandons := by
  intro s e hs hrise
  refine ⟨fun t w rest i htake hw hx hend => ?_, fun hbusy hend => ?_⟩
  · obtain ⟨hgrown, htiming, hedges, -⟩ := exec_grown i _ t hx
    obtain ⟨b, hbeat, htime⟩ := exec_beat i hx
    obtain ⟨hstep, -⟩ := stepRunsTheDecodedOperation s w rest i htake hw
    rw [hx] at hstep
    exact step_abandoned hs.historyOrdered hrise hgrown.of_take htiming hedges hend hbeat htime hstep
  · obtain ⟨htiming, hedges, -⟩ := enumRound_kept s
    obtain ⟨b, hbeat, htime⟩ := enumRound_beat s
    exact step_abandoned hs.historyOrdered hrise (enumRound_grown s) htiming hedges hend hbeat htime
      (step_resume hrise.rst_low hbusy)

/-- Settles O43. Operations of write or of read slots by `Wrote.duration` and `ReadIn.duration`; a pass is its reset slot, and with
presence the command byte and the loop by `passLoop_duration`. -/
theorem durationOfEachOperation : Obligations.DurationOfEachOperation := by
  intro s hl w g
  obtain ⟨_, hbyte, hreadByte, -⟩ := readByte_readIn s.start
  obtain ⟨_, hword, hreadWord, -⟩ := readWord_readIn s.start
  have hselect (a : Word) := (writeByte_wrote Config.romMatch s.start).trans (writeWord_wrote a _)
  refine ⟨⟨_, rfl, (State.complete_now _ _).trans (resetPulse_start_now s)⟩, fun b => ?_, ?_, fun v => ?_, ?_, fun v => ?_, ?_,
    fun a => ?_, ?_, ⟨_, rfl, rfl⟩, ?_⟩
  · simpa using (slotWrite_wrote s.start b).duration hl 0 rfl rfl
  · simpa using (slotRead_readIn s.start).duration hl 0 rfl rfl
  · exact (writeByte_wrote v s.start).duration hl 7 (bitsOf_length v) rfl
  · exact hreadByte.duration hl 7 hbyte rfl
  · exact (writeWord_wrote v s.start).duration hl 63 (bitsOf_length v) rfl
  · exact hreadWord.duration hl 63 hword rfl
  · refine (hselect a).duration hl 71 ?_ rfl
    rw [List.length_append, bitsOf_length, bitsOf_length]
  · exact (writeByte_wrote Config.romSkip s.start).duration hl 7 (bitsOf_length _) rfl
  · refine ⟨_, rfl, fun hf => ?_, search_duration hl⟩
    rw [State.complete_now, searchOne_of_ldf (s := s.start) hf]
    rfl

end Sys2Proof.Machine
